-- ==== Sys2Proof/Word.lean ====
section
/-!
DEFINITION. The word types of the engine: a byte of a port (spec 20_memory R52), an index of the 26-symbol
alphabet (00_scope R14, R19) and the list of all 26 positions in order.
-/

namespace Sys2Proof

/-- One byte on a port (00_scope R15, 20_memory R52). -/
abbrev Byte := BitVec 8

/-- An index, 0 to 25: what a table cell and a shift register hold and what addresses a cell
(00_scope R14, 10_state R22, 20_memory R54). The spec's 5-bit encodings 26 to 31 are unreachable
(10_state R36, 93 V5), and this type leaves them out: DEDUCED, log entry 5, safe. -/
abbrev Index := Fin 26

/-- The positions 0 to 25 in order: the range of every `for i in 0..25` (00_scope R16). -/
def allIndices : List Index := List.finRange 26

end Sys2Proof
end

