-- ==== Sys2Proof/Config.lean ====
section
/-!
DEFINITION. What an implementation fixes: the three open parameters of 00_scope R11 to R13.
-/

namespace Sys2Proof

/-- `PRESET` when it is given (00_scope R12): one key for each rotor and one reflector key, each the
26 bytes a load command would carry. -/
structure Preset where
  rotorKeys : List (List Byte)
  reflKey : List Byte
  deriving DecidableEq, Repr

/-- The parameters that shape an engine at reset: `NROTORS` (00_scope R11) and `PRESET` (R12). -/
structure Params where
  nRotors : Nat
  preset : Option Preset
  deriving DecidableEq, Repr

namespace Config

/-- The greatest `NROTORS`, "0 <= N <= 16" (00_scope R11). -/
def maxRotors : Nat := 16

/-- The parameters of the one engine that `State.reset` shows. DESIGN CHOICE, log entries 1 and 2, unsafe
for a statement that rests on them: the spec leaves both open. Every statement about states holds
for every `N` and every `PRESET`, because both stand in `State`. -/
def params : Params := { nRotors := 16, preset := none }

/-- `INVALID_LETTER` (00_scope R13), the byte `indexToLetter` gives for an index of 26 or more: a free
value, nothing may be assumed of it (log entry 3). -/
opaque invalidLetter : Byte

end Config

end Sys2Proof
end

