-- ==== Sys2Proof/Machine/Alphabet.lean ====
section
/-!
DEFINITION. The three alphabet functions (spec 40_alphabet R100 to R103) and the two sums of the datapath
(43_cipher R142, R144, R145).
-/

namespace Sys2Proof.Machine

/-- `'A'` to `'Z'`, 0x41 to 0x5A (40_alphabet R100, R103). -/
def isUpper (c : Byte) : Bool := decide (0x41 ≤ c.toNat) && decide (c.toNat ≤ 0x5A)

/-- `'a'` to `'z'`, 0x61 to 0x7A (40_alphabet R100, R103). -/
def isLower (c : Byte) : Bool := decide (0x61 ≤ c.toNat) && decide (c.toNat ≤ 0x7A)

/-- `isLetter(c)`: an ASCII letter of either case (40_alphabet R100). -/
def isLetter (c : Byte) : Bool := isUpper c || isLower c

/-- `letterToIndex(c)`: 0 to 25, and 0 for a byte that is no letter (40_alphabet R101). -/
def letterToIndex (c : Byte) : Index :=
  if isUpper c then Fin.ofNat 26 (c.toNat - 0x41)
  else if isLower c then Fin.ofNat 26 (c.toNat - 0x61)
  else 0

/-- `indexToLetter(i)`: the upper-case letter, and the sentinel for an index of 26 or more
(40_alphabet R102). -/
def indexToLetter (i : Nat) : Byte := if i ≤ 25 then BitVec.ofNat 8 (0x41 + i) else Config.invalidLetter

/-- The upper-case form of a byte: the code less 0x20 for a lower-case letter, else the byte itself
(40_alphabet R103, R104). No command uses it: it says what a round trip gives back. -/
def upperCase (c : Byte) : Byte := if isLower c then BitVec.ofNat 8 (c.toNat - 0x20) else c

/-- `(x + shift) mod 26` (43_cipher R142, R145). -/
def addShift (x sh : Index) : Index := Fin.ofNat 26 (x.val + sh.val)

/-- `(x + 26 - shift) mod 26` (43_cipher R144, R145). -/
def subShift (x sh : Index) : Index := Fin.ofNat 26 (x.val + 26 - sh.val)

/-- `(v + 1) mod 26`: the step of a shift register (43_cipher R141) and of a probe (41_generate R111). -/
def nextIndex (v : Index) : Index := Fin.ofNat 26 (v.val + 1)

end Sys2Proof.Machine
end

