-- ==== Sys2Proof/Machine/Status.lean ====
section
/-!
DEFINITION. The status of a command and its response on the port (spec 60_exceptions R160, 30_encoding R80).
-/

namespace Sys2Proof.Machine

/-- The outcomes a response can report (60_exceptions R160). -/
inductive Status where
  | ok
  | invalidCharacter
  | duplicateMapping
  | notInvolution
  | tableInvalid
  | badRotorSelect
  | illegalCommand
  deriving DecidableEq, Repr

/-- The status byte (60_exceptions R160). -/
def Status.code : Status → Byte
  | .ok => 0x00
  | .invalidCharacter => 0x01
  | .duplicateMapping => 0x02
  | .notInvolution => 0x03
  | .tableInvalid => 0x04
  | .badRotorSelect => 0x05
  | .illegalCommand => 0x06

/-- The bytes of an error response: the status byte alone (30_encoding R80). -/
def errorResponse (st : Status) : List Byte := [st.code]

/-- The bytes of an `OK` response: 0x00, then the payload (00_scope R17, 30_encoding R80). -/
def okResponse (p : List Byte) : List Byte := Status.ok.code :: p

end Sys2Proof.Machine
end

