-- ==== Sys2Proof/Machine/Table.lean ====
section
/-!
DEFINITION. The memory of one table space (spec 20_memory R50) and the 26-bit mask of used values
(00_scope R18, 10_state R32).
-/

namespace Sys2Proof.Machine

/-- One table space: the cells that hold a value, as (address, value) pairs, addresses strictly rising.
An address that is not listed holds no value (10_state R35, 93 V4). The unit is one cell (00_scope R16). -/
abbrev Memory := List (Index × Index)

/-- The canonical form: addresses strictly rising. -/
abbrev Memory.wf (m : Memory) : Prop := m.Pairwise (fun a b => a.1 < b.1)

/-- `T[i]` (00_scope R16): the cell at address `a`, `none` where it holds no value. -/
def Memory.read : Memory → Index → Option Index
  | [], _ => none
  | (b, w) :: m, a => if a = b then some w else Memory.read m a

/-- `T[i] <- v` (00_scope R16): the cell at address `a` becomes `v`, every other cell stays. -/
def Memory.write : Memory → Index → Index → Memory
  | [], a, v => [(a, v)]
  | (b, w) :: m, a, v =>
    if a < b then (a, v) :: (b, w) :: m
    else if a = b then (a, v) :: m
    else (b, w) :: Memory.write m a v

/-- The scratch mask `used`, 26 bits (00_scope R18, 10_state R32). -/
abbrev Mask := BitVec 26

/-- `used <- 0`: all bits clear. -/
def Mask.empty : Mask := 0

/-- `used[v]` (00_scope R18). -/
def Mask.has (m : Mask) (v : Index) : Bool := m.getLsbD v.val

/-- `used[v] <- 1` (00_scope R18). -/
def Mask.mark (m : Mask) (v : Index) : Mask := m ||| BitVec.twoPow 26 v.val

end Sys2Proof.Machine
end

