-- ==== Sys2Proof/Machine/KeyCodec.lean ====
section
/-!
DEFINITION. The key codec on tables alone: what a key writes, when it is refused, and how a table is
serialized (spec 42_keycodec R121 to R125, 30_encoding R85). Reset with `PRESET` (10_state R35) and the load
commands both use it.
-/

namespace Sys2Proof.Machine

/-- `k[i]`, the key byte for position `i`. A decoded key has 26 bytes (30_encoding R71); a missing byte
of an ill-formed key reads as 0x00, no letter (DESIGN CHOICE, log entry 11, safe: no decoded command has one). -/
def keyChar (k : List Byte) (i : Index) : Byte := k.getD i.val 0

/-- What a rotor load leaves: how it ended and the two tables. -/
structure RotorLoad where
  status : Status
  fwd : Memory
  inv : Memory
  deriving DecidableEq, Repr

/-- The loop of `LDROT` over the positions left (42_keycodec R121): at each, the letter test, then the
duplicate test, then the two writes; a failure keeps the writes made (R125). -/
def loadRotorLoop (k : List Byte) : List Index → Mask → Memory → Memory → RotorLoad
  | [], _, f, g => { status := .ok, fwd := f, inv := g }
  | i :: rest, used, f, g =>
    if isLetter (keyChar k i) then
      let v := letterToIndex (keyChar k i)
      if used.has v then { status := .duplicateMapping, fwd := f, inv := g }
      else loadRotorLoop k rest (used.mark v) (f.write i v) (g.write v i)
    else { status := .invalidCharacter, fwd := f, inv := g }

/-- `LDROT`'s loop over all 26 positions, from the tables as they are (42_keycodec R121). -/
def loadRotorKey (k : List Byte) (f g : Memory) : RotorLoad := loadRotorLoop k allIndices Mask.empty f g

/-- What a reflector load leaves: how it ended and the table. -/
structure ReflLoad where
  status : Status
  refl : Memory
  deriving DecidableEq, Repr

/-- Pass 1 of `LDREF` over the positions left (42_keycodec R122). -/
def writeReflLoop (k : List Byte) : List Index → Memory → ReflLoad
  | [], m => { status := .ok, refl := m }
  | i :: rest, m =>
    if isLetter (keyChar k i) then writeReflLoop k rest (m.write i (letterToIndex (keyChar k i)))
    else { status := .invalidCharacter, refl := m }

/-- The test of pass 2 at position `i`: `refl[refl[i]] = i` and `refl[i]` is not `i` (42_keycodec R122). -/
def pairsAt (m : Memory) (i : Index) : Bool :=
  decide ((m.read i).bind m.read = some i) && decide (m.read i ≠ some i)

/-- `LDREF`'s two passes, from the table as it is (42_keycodec R122): all positions are written before
any is validated (conflict C9). -/
def loadReflKey (k : List Byte) (m : Memory) : ReflLoad :=
  let w := writeReflLoop k allIndices m
  match w.status with
  | .ok => { status := if allIndices.all (pairsAt w.refl) then .ok else .notInvolution, refl := w.refl }
  | st => { status := st, refl := w.refl }

/-- The letters of the cells at the positions given (42_keycodec R123, R124); `none` where a cell holds no
value. -/
def serializeFrom (m : Memory) : List Index → Option (List Byte)
  | [] => some []
  | i :: rest =>
    match m.read i, serializeFrom m rest with
    | some v, some p => some (indexToLetter v.val :: p)
    | _, _ => none

/-- The 26 letters of a table, position 0 first (20_memory R52, 30_encoding R81). -/
def serialize (m : Memory) : Option (List Byte) := serializeFrom m allIndices

end Sys2Proof.Machine
end

