-- ==== Sys2Proof/Machine/Rotor.lean ====
section
/-!
DEFINITION. One rotor of the bank (spec 10_state R20) and the tables reset leaves (R35).
-/

namespace Sys2Proof.Machine

/-- One rotor: `shift[r]`, `fwd[r]`, `inv[r]`, `vr[r]` (10_state R20, R22, R24, R29). -/
structure Rotor where
  shift : Index
  fwd : Memory
  inv : Memory
  valid : Bool
  deriving DecidableEq, Repr

def Rotor.withShift (ρ : Rotor) (v : Index) : Rotor := { ρ with shift := v }
def Rotor.withTables (ρ : Rotor) (f g : Memory) : Rotor := { ρ with fwd := f, inv := g }
def Rotor.withValid (ρ : Rotor) (b : Bool) : Rotor := { ρ with valid := b }

/-- A rotor after reset with `PRESET` none: shift 0, no cell has a value, flag 0 (10_state R35). -/
def Rotor.blank : Rotor := { shift := 0, fwd := [], inv := [], valid := false }

/-- A rotor after reset with a `PRESET` key: the tables `LDROT` would have written, flag 1, shift 0
(10_state R35). -/
def Rotor.ofKey (k : List Byte) : Rotor :=
  { shift := 0, fwd := (loadRotorKey k [] []).fwd, inv := (loadRotorKey k [] []).inv, valid := true }

/-- Rotor `r` after reset (10_state R35). A `PRESET` has a key for every rotor (00_scope R12); for a rotor
it would lack, the rotor is blank (DESIGN CHOICE, log entry 12, safe: no `PRESET` the spec admits lacks one). -/
def rotorAtReset (pre : Option Preset) (r : Nat) : Rotor :=
  match pre with
  | none => Rotor.blank
  | some p =>
    match p.rotorKeys[r]? with
    | some k => Rotor.ofKey k
    | none => Rotor.blank

/-- The bank after reset: rotors 0 to `N-1` (10_state R21, R35). -/
def bankAtReset (p : Params) : List Rotor := (List.range p.nRotors).map (rotorAtReset p.preset)

/-- The reflector table after reset: what `LDREF` with `PRESET`'s key would have written, or no cell
with a value (10_state R35). -/
def reflAtReset (pre : Option Preset) : Memory :=
  match pre with
  | none => []
  | some p => (loadReflKey p.reflKey []).refl

/-- `vf` after reset: 1 if `PRESET` is given (10_state R35). -/
def reflValidAtReset (pre : Option Preset) : Bool := pre.isSome

end Sys2Proof.Machine
end

