-- ==== Sys2Proof/Machine/State.lean ====
section
/-!
DEFINITION. The state of one engine as plain data (spec 10_state R20, R32; ports 00_scope R9), the reasons a
step can stop, and the state after reset (10_state R35, 70_reset R180).
-/

namespace Sys2Proof.Machine

/-- Whether the engine is idle or in the middle of a generate command, waiting for a draw (10_state R32,
41_generate R116). `pos` is the command's position counter `i`, `used` its mask. -/
inductive Busy where
  | idle
  /-- `GENROT r` at position `pos` (41_generate R112). -/
  | genRotor (r : Nat) (pos : Index) (used : Mask)
  /-- `GENREF` at the unassigned position `pos` (41_generate R113). -/
  | genRefl (pos : Index) (used : Mask)
  deriving DecidableEq, Repr

/-- The state of one engine: what 10_state R20 lists, the generate command in progress (R32), what waits on
the four interfaces (00_scope R9), and the parameter `PRESET` (00_scope R12), which no step changes.
`NROTORS` is the length of `rotors`. -/
structure State where
  /-- The bank, rotor 0 first (10_state R21). -/
  rotors : List Rotor
  /-- `refl` (10_state R27). -/
  refl : Memory
  /-- `vf` (10_state R29). -/
  reflValid : Bool
  /-- Idle, or a generate command in progress (10_state R32). -/
  busy : Busy
  /-- `PRESET` (00_scope R12): a parameter. -/
  preset : Option Preset
  /-- Command port: bytes sent and not yet taken, the first to take first (30_encoding R70). Bytes that stand
  here while a generate command is in progress stay in order (DESIGN CHOICE, log entry 19, unsafe). -/
  cmdIn : List Byte
  /-- Response port: responses emitted and not yet taken by the host, the oldest first (30_encoding R80). -/
  respOut : List (List Byte)
  /-- Entropy port: answers given and not yet used, the first to use first (41_generate R110). -/
  entropyIn : List Index
  /-- Reset input: asserted or not (70_reset R180). -/
  resetIn : Bool
  deriving DecidableEq, Repr

/-- Why the machine stops with a fault. -/
inductive Fault where
  /-- `ENC`, `RDROT` or `RDREF` reads a cell that holds no value although the table's VALID flag is 1.
  No state reachable from reset does (10_state R25, R28, R36; 93 V4). Safe: log entry 4. -/
  | unwrittenCell
  deriving DecidableEq, Repr

/-- Why a step has no meaning. -/
inductive Refusal where
  /-- An instruction without a meaning yet, raised by `exec` alone; no arm raises it now. Safe. -/
  | notModelled (mnemonic : String)
  deriving DecidableEq, Repr

/-- The engine of parameters `p` right after reset: shifts 0, tables and flags by `PRESET`, idle, nothing
pending on any port (10_state R35, 70_reset R180). -/
def State.resetFor (p : Params) : State :=
  { rotors := bankAtReset p
    refl := reflAtReset p.preset
    reflValid := reflValidAtReset p.preset
    busy := .idle
    preset := p.preset
    cmdIn := []
    respOut := []
    entropyIn := []
    resetIn := false }

/-- The machine right after reset, at the parameters `Config.params` (log entries 1 and 2). -/
def State.reset : State := State.resetFor Config.params

end Sys2Proof.Machine
end

