-- ==== Sys2Proof/Machine/Ops.lean ====
section
/-!
DEFINITION. The named operations over the state: field updates, access to one rotor, and the two ways a
command ends, `raise` and `respond` (spec 00_scope R16, R17). The engine has no trap entry and no trap
return (60_exceptions R163, R164): an error is a response.
-/

namespace Sys2Proof.Machine

def State.withRotors (s : State) (v : List Rotor) : State := { s with rotors := v }
def State.withRefl (s : State) (v : Memory) : State := { s with refl := v }
def State.withReflValid (s : State) (v : Bool) : State := { s with reflValid := v }
def State.withBusy (s : State) (v : Busy) : State := { s with busy := v }
def State.withCmdIn (s : State) (v : List Byte) : State := { s with cmdIn := v }
def State.withRespOut (s : State) (v : List (List Byte)) : State := { s with respOut := v }
def State.withEntropyIn (s : State) (v : List Index) : State := { s with entropyIn := v }
def State.withResetIn (s : State) (v : Bool) : State := { s with resetIn := v }

/-- `NROTORS`, the number of rotors of this engine (00_scope R11). -/
def State.nRotors (s : State) : Nat := s.rotors.length

/-- Rotor `r` of the bank; `none` exactly when `r >= N` (30_encoding R73, R76). -/
def State.rotor (s : State) (r : Nat) : Option Rotor := s.rotors[r]?

/-- Rotor `r` becomes `ρ`; every other rotor stays. -/
def State.setRotor (s : State) (r : Nat) (ρ : Rotor) : State := s.withRotors (s.rotors.set r ρ)

/-- One response goes out on the response port (30_encoding R80). -/
def State.emit (s : State) (bytes : List Byte) : State := s.withRespOut (s.respOut ++ [bytes])

/-- `raise S`: the command ends with the one status byte; every write already made stays (00_scope R17). -/
def State.raise (s : State) (st : Status) : State := s.emit (errorResponse st)

/-- `respond OK, p`: the command ends with 0x00 and the payload (00_scope R17). -/
def State.respond (s : State) (p : List Byte) : State := s.emit (okResponse p)

/-- The reset input takes effect: the state of 10_state R35 for the same `N` and `PRESET`, nothing pending
on any port, whatever was in progress abandoned (70_reset R180, R181). -/
def State.applyReset (s : State) : State := State.resetFor { nRotors := s.nRotors, preset := s.preset }

end Sys2Proof.Machine
end

