-- ==== Sys2Proof/Machine/Flags.lean ====
section
/-!
DEFINITION. The VALID flags (spec 10_state R29): `vr[r]` of every rotor and `vf`.
-/

namespace Sys2Proof.Machine

/-- Every `vr[k]` and `vf` are 1: what `ENC` of a letter needs (43_cipher R140). -/
def State.tablesValid (s : State) : Bool := s.reflValid && s.rotors.all (fun ρ => ρ.valid)

/-- `vr[r] <- 0` (10_state R29), the first step of `LDROT r` and `GENROT r`. -/
def invalidateRotor (ρ : Rotor) : Rotor := ρ.withValid false

/-- The last steps of a rotor load or generate that ends `OK`: `shift[r] <- 0`, `vr[r] <- 1`
(42_keycodec R121, 41_generate R112). -/
def finishRotor (ρ : Rotor) : Rotor := (ρ.withShift 0).withValid true

end Sys2Proof.Machine
end

