-- ==== Sys2Proof/Machine/Operands.lean ====
section
/-!
DEFINITION. The rotor operand (spec 30_encoding R73, R76): the one place that selects a rotor and raises
`BadRotorSelect`. The character and the key are taken whole (R73); a key is read by `keyChar`.
-/

namespace Sys2Proof.Machine

/-- Run a command on the rotor its operand selects; `r >= N` raises `BadRotorSelect` before anything else
(30_encoding R76). -/
def withRotorOperand (r : Nat) (s : State) (act : Rotor → Host.Outcome State Fault Refusal) :
    Host.Outcome State Fault Refusal :=
  match s.rotor r with
  | none => .next (s.raise .badRotorSelect)
  | some ρ => act ρ

end Sys2Proof.Machine
end

