-- ==== Sys2Proof/Machine/Cipher.lean ====
section
/-!
DEFINITION. The cipher datapath and the shift commands (spec 43_cipher R140 to R150): `ENC`, `RSTSH`, `RDSH`.
-/

namespace Sys2Proof.Machine

/-- `Step()`: the odometer cascade (43_cipher R141). A rotor advances; if it wrapped to 0 the next one
does too; a carry out of the last rotor is dropped. -/
def cascade : List Rotor → List Rotor
  | [] => []
  | ρ :: rest =>
    let ρ' := ρ.withShift (nextIndex ρ.shift)
    if ρ'.shift = 0 then ρ' :: cascade rest else ρ' :: rest

/-- `ForwardPass(x)`, rotor 0 to `N-1` (43_cipher R142; `P_s` of R146, for the shifts in `bank`); `none` where a cell
holds no value. -/
def forwardPass : List Rotor → Index → Option Index
  | [], x => some x
  | ρ :: rest, x => (ρ.fwd.read (addShift x ρ.shift)).bind (forwardPass rest)

/-- One rotor of the backward pass (43_cipher R144). -/
def backwardOne (ρ : Rotor) (x : Index) : Option Index :=
  (ρ.inv.read x).map (fun y => subShift y ρ.shift)

/-- `BackwardPass(x)`, rotor `N-1` down to 0 (43_cipher R144; `Q_s` of R146: the inverse of `forwardPass` when the
rotors are `Rotor.Exact`). -/
def backwardPass : List Rotor → Index → Option Index
  | [], x => some x
  | ρ :: rest, x => (backwardPass rest x).bind (backwardOne ρ)

/-- Steps 4 to 6 of `ENC` with the shifts as they stand: forward, reflection (43_cipher R143), backward. The letter
map `E_s` of R146: an involution without fixed points when the rotors are `Rotor.Exact` and the reflector a
`Pairing`. -/
def substitute (bank : List Rotor) (refl : Memory) (x : Index) : Option Index :=
  ((forwardPass bank x).bind refl.read).bind (backwardPass bank)

/-- `ENC` of a letter with all tables valid: step, then substitute, then answer (43_cipher R140). -/
def encipher (c : Byte) (s : State) : Host.Outcome State Fault Refusal :=
  let s' := s.withRotors (cascade s.rotors)
  match substitute s'.rotors s'.refl (letterToIndex c) with
  | some x => .next (s'.respond [indexToLetter x.val])
  | none => .fault .unwrittenCell

/-- `ENC c` (43_cipher R140): the letter test, then the VALID test, then the datapath. -/
def execEnc (c : Byte) (s : State) : Host.Outcome State Fault Refusal :=
  if isLetter c then
    if s.tablesValid then encipher c s else .next (s.raise .tableInvalid)
  else .next (s.respond [c])

/-- `RSTSH r` (43_cipher R149). -/
def execRstsh (r : Nat) (s : State) : Host.Outcome State Fault Refusal :=
  withRotorOperand r s fun ρ => .next ((s.setRotor r (ρ.withShift 0)).respond [])

/-- `RDSH r` (43_cipher R150): the shift as a byte, not a letter. -/
def execRdsh (r : Nat) (s : State) : Host.Outcome State Fault Refusal :=
  withRotorOperand r s fun ρ => .next (s.respond [BitVec.ofNat 8 ρ.shift.val])

end Sys2Proof.Machine
end

