-- ==== Sys2Proof/Machine/Generate.lean ====
section
/-!
DEFINITION. Table generation (spec 41_generate R110 to R116): probing, one draw of each generator, using up
the answers on the entropy port, and the meanings of `GENROT` and `GENREF`.
-/

namespace Sys2Proof.Machine

/-- `Probe` with `n` values left to look at: the first unused value from `c` on, wrapping (41_generate
R111). -/
def probeFrom (used : Mask) : Nat → Index → Option Index
  | 0, _ => none
  | n + 1, c => if used.has c then probeFrom used n (nextIndex c) else some c

/-- `Probe(d, used)` (41_generate R111); `none` when no bit is clear, where the loop would never end
(log entry 10: no generate command meets it). -/
def probe (d : Index) (used : Mask) : Option Index := probeFrom used 26 d

/-- The value a draw of `d` offers at position `pos`: its probe, unless that equals `pos`, which is
rejected (41_generate R112, R113). -/
def candidate (pos : Index) (used : Mask) (d : Index) : Option Index :=
  match probe d used with
  | none => none
  | some v => if v = pos then none else some v

/-- `GENROT r` accepts `v` at `pos`: the two cells are written, and either the next position follows
or the command ends `OK` with shift 0 and flag 1 (41_generate R112). -/
def acceptRotor (r : Nat) (ρ : Rotor) (pos : Index) (used : Mask) (v : Index) (s : State) : State :=
  let ρ' := ρ.withTables (ρ.fwd.write pos v) (ρ.inv.write v pos)
  if pos.val = 25 then ((s.setRotor r (finishRotor ρ')).withBusy .idle).respond []
  else (s.setRotor r ρ').withBusy (.genRotor r (nextIndex pos) (used.mark v))

/-- The next position after `pos` that no earlier position paired (41_generate R113). -/
def nextUnpaired (pos : Index) (used : Mask) : Option Index :=
  allIndices.find? (fun i => decide (pos < i) && !used.has i)

/-- `GENREF` accepts `v` at `pos`: both cells of the pair are written and marked, and either the next
unassigned position follows or the command ends `OK` with flag 1 (41_generate R113). -/
def acceptRefl (pos : Index) (used : Mask) (v : Index) (s : State) : State :=
  let s' := s.withRefl ((s.refl.write pos v).write v pos)
  let used' := (used.mark pos).mark v
  match nextUnpaired pos used' with
  | some p => s'.withBusy (.genRefl p used')
  | none => ((s'.withReflValid true).withBusy .idle).respond []

/-- One draw answered with `d` (41_generate R112, R113): a rejected draw changes nothing. -/
def genDraw (d : Index) (s : State) : State :=
  match s.busy with
  | .idle => s
  | .genRotor r pos used =>
    match s.rotor r, candidate pos used d with
    | some ρ, some v => acceptRotor r ρ pos used v s
    | _, _ => s
  | .genRefl pos used =>
    match candidate pos used d with
    | some v => acceptRefl pos used v s
    | none => s

/-- Use up answers in order while a generate command is in progress; the ones it does not ask for stay
on the port (41_generate R110). When they run out first, the engine stays busy (R116). -/
def runDraws : List Index → State → State
  | [], s => s.withEntropyIn []
  | d :: ds, s =>
    match s.busy with
    | .idle => s.withEntropyIn (d :: ds)
    | _ => runDraws ds (genDraw d s)

/-- Go on with the generate command in progress, with the answers that wait on the entropy port. -/
def resumeGenerate (s : State) : State := runDraws s.entropyIn s

/-- `GENROT r` (41_generate R112): flag 0, empty mask, position 0, then draws. -/
def execGenrot (r : Nat) (s : State) : Host.Outcome State Fault Refusal :=
  withRotorOperand r s fun ρ =>
    .next (resumeGenerate ((s.setRotor r (invalidateRotor ρ)).withBusy (.genRotor r 0 Mask.empty)))

/-- `GENREF` (41_generate R113): flag 0, empty mask, position 0, then draws. -/
def execGenref (s : State) : Host.Outcome State Fault Refusal :=
  .next (resumeGenerate ((s.withReflValid false).withBusy (.genRefl 0 Mask.empty)))

end Sys2Proof.Machine
end

