-- ==== Sys2Proof/Machine/KeyCommands.lean ====
section
/-!
DEFINITION. The key commands (spec 42_keycodec R121 to R125): `LDROT`, `LDREF`, `RDROT`, `RDREF`.
-/

namespace Sys2Proof.Machine

/-- Rotor `r` after the loop of `LDROT`: the tables as the loop left them; on success shift 0 and flag 1,
on failure the shift unchanged and flag 0 (42_keycodec R121, R125). -/
def loadedRotor (ρ : Rotor) (load : RotorLoad) : Rotor :=
  let ρ' := (invalidateRotor ρ).withTables load.fwd load.inv
  match load.status with
  | .ok => finishRotor ρ'
  | _ => ρ'

/-- How a load ends: `OK` with no payload, or the error raised (42_keycodec R121, R122). -/
def endLoad (st : Status) (s : State) : State :=
  match st with
  | .ok => s.respond []
  | e => s.raise e

/-- `LDROT r, k` (42_keycodec R121). -/
def execLdrot (r : Nat) (k : List Byte) (s : State) : Host.Outcome State Fault Refusal :=
  withRotorOperand r s fun ρ =>
    let load := loadRotorKey k ρ.fwd ρ.inv
    .next (endLoad load.status (s.setRotor r (loadedRotor ρ load)))

/-- `LDREF k` (42_keycodec R122). -/
def execLdref (k : List Byte) (s : State) : Host.Outcome State Fault Refusal :=
  let load := loadReflKey k s.refl
  .next (endLoad load.status ((s.withRefl load.refl).withReflValid (decide (load.status = .ok))))

/-- Answer the 26 letters of a table that is valid, refuse one that is not (42_keycodec R123, R124). -/
def readBack (valid : Bool) (m : Memory) (s : State) : Host.Outcome State Fault Refusal :=
  match valid, serialize m with
  | true, some p => .next (s.respond p)
  | true, none => .fault .unwrittenCell
  | false, _ => .next (s.raise .tableInvalid)

/-- `RDROT r` (42_keycodec R123). -/
def execRdrot (r : Nat) (s : State) : Host.Outcome State Fault Refusal :=
  withRotorOperand r s fun ρ => readBack ρ.valid ρ.fwd s

/-- `RDREF` (42_keycodec R124). -/
def execRdref (s : State) : Host.Outcome State Fault Refusal := readBack s.reflValid s.refl s

end Sys2Proof.Machine
end

