-- ==== Sys2Proof/Syntax.lean ====
section
/-!
DEFINITION. The nine commands of the opcode map (spec 30_encoding R72), one constructor per row.
-/

namespace Sys2Proof

/-- A command and its operands (30_encoding R72, R73): `r` is the rotor select, a natural 0 to 15; `c`
the character byte; `k` the 26 key bytes, position 0 first. -/
inductive Instr where
  /-- `ENC c`, 43_cipher R140. -/
  | enc (c : Byte)
  /-- `LDROT r, k`, 42_keycodec R121. -/
  | ldrot (r : Nat) (k : List Byte)
  /-- `LDREF k`, 42_keycodec R122. -/
  | ldref (k : List Byte)
  /-- `RDROT r`, 42_keycodec R123. -/
  | rdrot (r : Nat)
  /-- `RDREF`, 42_keycodec R124. -/
  | rdref
  /-- `RDSH r`, 43_cipher R150. -/
  | rdsh (r : Nat)
  /-- `RSTSH r`, 43_cipher R149. -/
  | rstsh (r : Nat)
  /-- `GENROT r`, 41_generate R112. -/
  | genrot (r : Nat)
  /-- `GENREF`, 41_generate R113. -/
  | genref
  deriving DecidableEq, Repr

end Sys2Proof
end

