-- ==== Sys2Proof/Machine/Dispatch.lean ====
section
/-!
DEFINITION. One arm per command (spec 30_encoding R72).
-/

namespace Sys2Proof.Machine

def exec (i : Instr) (s : State) : Host.Outcome State Fault Refusal :=
  match i with
  | .enc c => Sys2Proof.Machine.execEnc c s
  | .ldrot r k => Sys2Proof.Machine.execLdrot r k s
  | .ldref k => Sys2Proof.Machine.execLdref k s
  | .rdrot r => Sys2Proof.Machine.execRdrot r s
  | .rdref => Sys2Proof.Machine.execRdref s
  | .rdsh r => Sys2Proof.Machine.execRdsh r s
  | .rstsh r => Sys2Proof.Machine.execRstsh r s
  | .genrot r => Sys2Proof.Machine.execGenrot r s
  | .genref => Sys2Proof.Machine.execGenref s

end Sys2Proof.Machine
end

