-- ==== Sys2Proof/WellFormed.lean ====
section
/-!
DEFINITION. Which commands have an encoding: the rotor select fits its 4-bit field (spec 30_encoding R73)
and a key has exactly 26 bytes (R71, 00_scope R14).
-/

namespace Sys2Proof

/-- The rotor select is a natural 0 to 15, the width of the field `R` (30_encoding R70, R73). -/
def rotorFits (r : Nat) : Bool := decide (r < 16)

/-- A key is 26 bytes (30_encoding R71). -/
def keyFits (k : List Byte) : Bool := k.length == 26

/-- The operands of a command are ones the encoding admits. -/
def Instr.wf : Instr → Bool
  | .enc _ => true
  | .ldrot r k => rotorFits r && keyFits k
  | .ldref k => keyFits k
  | .rdrot r => rotorFits r
  | .rdref => true
  | .rdsh r => rotorFits r
  | .rstsh r => rotorFits r
  | .genrot r => rotorFits r
  | .genref => true

end Sys2Proof
end

