-- ==== Sys2Proof/Decode.lean ====
section
/-!
DEFINITION. The command decoder and encoder (spec 30_encoding R70 to R77). Bytes come from the command port;
the length of a command comes from `OP` of its first byte alone (R74).
-/

namespace Sys2Proof

/-- `OP = h[7:4]` (30_encoding R70). -/
def opField (h : Byte) : Nat := (h.extractLsb' 4 4).toNat

/-- `R = h[3:0]` (30_encoding R70). -/
def rField (h : Byte) : Nat := (h.extractLsb' 0 4).toNat

/-- The length in bytes of the command a header opens, from `OP` and nothing else (30_encoding R74). -/
def commandLength (h : Byte) : Nat :=
  match opField h with
  | 1 => 2
  | 2 => 27
  | 3 => 27
  | _ => 1

/-- What the decoder makes of the bytes on the command port. -/
inductive Decoded where
  /-- The command's bytes are not all there yet: the engine waits (30_encoding R77). -/
  | incomplete
  /-- A header that is no legal one, its full length taken; `rest` follows it (30_encoding R75). -/
  | illegal (rest : List Byte)
  /-- A command, and the bytes after it. -/
  | command (i : Instr) (rest : List Byte)
  deriving DecidableEq, Repr

/-- A command whose header must have `R = 0` (30_encoding R72, R75). -/
def onlyRZero (h : Byte) (i : Instr) : Option Instr := if rField h = 0 then some i else none

/-- The command of a header `h` and its payload `p` (30_encoding R72, R73); `none` for a header that
is no legal one (R75). -/
def decodeHeader (h : Byte) (p : List Byte) : Option Instr :=
  match opField h with
  | 1 => onlyRZero h (.enc (p.headD 0))
  | 2 => some (.ldrot (rField h) p)
  | 3 => onlyRZero h (.ldref p)
  | 4 => some (.rdrot (rField h))
  | 5 => onlyRZero h .rdref
  | 6 => some (.rdsh (rField h))
  | 7 => some (.rstsh (rField h))
  | 8 => some (.genrot (rField h))
  | 9 => onlyRZero h .genref
  | _ => none

/-- The command of a header and its payload, or its refusal by name, with the bytes that follow. -/
def decodeTaken (h : Byte) (p rest : List Byte) : Decoded :=
  match decodeHeader h p with
  | some i => .command i rest
  | none => .illegal rest

/-- The next command on the port, total on any bytes: the full length of 30_encoding R74 is taken,
whatever the header (R75, R77). -/
def decode : List Byte → Decoded
  | [] => .incomplete
  | h :: tl =>
    if tl.length < commandLength h - 1 then .incomplete
    else decodeTaken h (tl.take (commandLength h - 1)) (tl.drop (commandLength h - 1))

/-- The header byte of an operation and a rotor select (30_encoding R70). -/
def headerByte (op r : Nat) : Byte := BitVec.ofNat 8 (16 * op + r)

/-- The bytes of a command, header first (30_encoding R71, R72). -/
def encode : Instr → List Byte
  | .enc c => [headerByte 1 0, c]
  | .ldrot r k => headerByte 2 r :: k
  | .ldref k => headerByte 3 0 :: k
  | .rdrot r => [headerByte 4 r]
  | .rdref => [headerByte 5 0]
  | .rdsh r => [headerByte 6 r]
  | .rstsh r => [headerByte 7 r]
  | .genrot r => [headerByte 8 r]
  | .genref => [headerByte 9 0]

/-- The first `n` bytes of a number, its least significant byte first. -/
def leBytes : Nat → Nat → List Byte
  | 0, _ => []
  | n + 1, w => BitVec.ofNat 8 (w % 256) :: leBytes n (w / 256)

/-- The bytes of a table word of `nbits` bits, the first byte of the command its least significant,
with operand bytes of zero up to the longest command, 27 bytes (30_encoding R71). -/
def tableBytes (nbits w : Nat) : List Byte := leBytes (nbits / 8) w ++ List.replicate (27 - nbits / 8) 0

/-- The command the decoder reads from a word of the opcode table. -/
def decodeTableWord (nbits w : Nat) : Option Instr :=
  match decode (tableBytes nbits w) with
  | .command i _ => some i
  | _ => none

/-- The bytes of exactly one command: a table word's bytes cut to the length its header gives
(30_encoding R74). -/
def tableCommand (nbits w : Nat) : List Byte :=
  match tableBytes nbits w with
  | [] => []
  | h :: tl => h :: tl.take (commandLength h - 1)

end Sys2Proof
end

