-- ==== Sys2Proof/Machine/Fetch.lean ====
section
/-!
DEFINITION. What the engine does next (spec 30_encoding R70, R74 to R77; 70_reset R180, R181), and the bytes a
table word puts on the command port.
-/

namespace Sys2Proof.Machine

/-- What the next step is. -/
inductive Event where
  /-- The reset input is asserted (70_reset R180). -/
  | reset
  /-- A generate command is in progress (41_generate R116). -/
  | resume
  /-- No whole command is on the port: the engine waits (30_encoding R77). -/
  | wait
  /-- An illegal header, its bytes taken (30_encoding R75). -/
  | illegal (rest : List Byte)
  /-- A command, its bytes taken. -/
  | run (i : Instr) (rest : List Byte)
  deriving DecidableEq, Repr

/-- The event of the bytes on the command port, for an idle engine (30_encoding R70, R75, R77). -/
def portEvent (bytes : List Byte) : Event :=
  match decode bytes with
  | .incomplete => .wait
  | .illegal rest => .illegal rest
  | .command i rest => .run i rest

/-- What happens next: reset comes first, at any time (70_reset R180, R181); a command in progress keeps
the engine from taking another (00_scope R8); then the command port. -/
def State.nextEvent (s : State) : Event :=
  match s.resetIn, s.busy with
  | true, _ => .reset
  | false, .idle => portEvent s.cmdIn
  | false, _ => .resume

/-- An illegal command: its bytes are taken, no other state changes, `IllegalCommand` (30_encoding R75). -/
def refuseIllegal (rest : List Byte) (s : State) : State := (s.withCmdIn rest).raise .illegalCommand

/-- The state with one command put in front of the command port's bytes, the engine idle and reset not
asserted, so that the next step takes exactly that command (log entry 13). -/
def State.placeCommand (s : State) (bytes : List Byte) : State :=
  ((s.withCmdIn (bytes ++ s.cmdIn)).withBusy .idle).withResetIn false

end Sys2Proof.Machine
end

