-- ==== Sys2Proof/Machine/Step.lean ====
section
/-!
DEFINITION. One step of the engine.
-/

namespace Sys2Proof.Machine

/-- One step: the reset, the rest of a generate command as far as the answers go, one whole command, or
waiting (00_scope R8, 30_encoding R70, 70_reset R180). -/
def step (s : State) : Host.Outcome State Fault Refusal :=
  match s.nextEvent with
  | .reset => .next s.applyReset
  | .resume => .next (resumeGenerate s)
  | .wait => .next s
  | .illegal rest => .next (refuseIllegal rest s)
  | .run i rest => exec i (s.withCmdIn rest)

/-- `s` with the command of a table word as the next one on the command port. -/
def State.withFetchWord (s : State) (nbits w : Nat) : State := s.placeCommand (tableCommand nbits w)

end Sys2Proof.Machine
end

