-- ==== Sys2Proof/Machine/Pseudo.lean ====
section
/-!
DEFINITION. Command sequences and the two pseudo-instructions (spec 30_encoding R78, R83, R84; 70_reset R185).
-/

namespace Sys2Proof.Machine

/-- How a run of commands stands (70_reset R185). -/
inductive RunResult where
  /-- The run is over: every command has ended, the last response is out, and this is the final state. -/
  | ended (t : State)
  /-- A command has not ended: it waits for answers or hangs (41_generate R116). The run has no end and no final
  state; `t` is how the engine stands, and the commands of `rest` have not begun (log entry 20). -/
  | unended (t : State) (rest : List Instr)
  | fault (f : Fault)
  | refused (f : Refusal)
  deriving DecidableEq, Repr

/-- Commands executed in arrival order, each after the one before has ended (20_memory R59, 30_encoding R78,
00_scope R8); the answers to the draws are those that wait on the entropy port (70_reset R185). -/
def runCommands : List Instr → State → RunResult
  | [], s => if s.busy = .idle then .ended s else .unended s []
  | i :: rest, s =>
    if s.busy = .idle then
      match exec i s with
      | .next t => runCommands rest t
      | .fault f => .fault f
      | .refused f => .refused f
    else .unended s (i :: rest)

/-- `n` steps of the engine, stopping at a fault or refusal. -/
def runSteps : Nat → State → Host.Outcome State Fault Refusal
  | 0, s => .next s
  | n + 1, s =>
    match step s with
    | .next t => runSteps n t
    | .fault f => .fault f
    | .refused f => .refused f

/-- The bytes of a command sequence (30_encoding R70, R82). -/
def assemble (prog : List Instr) : List Byte := prog.flatMap encode

/-- `RSTALL` for a bank of `n` rotors: `RSTSH 0` to `RSTSH n-1` (30_encoding R83). -/
def rstall (n : Nat) : List Instr := (List.range n).map Instr.rstsh

/-- `ENCODE "text"`: one `ENC` for each byte (30_encoding R84). -/
def encodeProgram (text : List Byte) : List Instr := text.map Instr.enc

/-- The payload of an `OK` response; `none` for an error response (30_encoding R80). -/
def okPayload : List Byte → Option (List Byte)
  | [] => none
  | st :: p => if st = Status.ok.code then some p else none

/-- The payload of the newest response, when it is `OK`. -/
def State.newestPayload (s : State) : Option (List Byte) := s.respOut.getLast?.bind okPayload

/-- The result of `ENCODE "text"`: the payload bytes in order and the state after, when every `ENC` ends
`OK` (30_encoding R84); none on a busy engine, which takes no `ENC` (41_generate R116). -/
def encodeText : List Byte → State → Option (List Byte × State)
  | [], s => some ([], s)
  | c :: rest, s =>
    if s.busy = .idle then
      match exec (.enc c) s with
      | .next t =>
        match t.newestPayload, encodeText rest t with
        | some p, some (q, u) => some (p ++ q, u)
        | _, _ => none
      | _ => none
    else none

end Sys2Proof.Machine
end

