-- ==== Sys2Proof/Machine/HostMoves.lean ====
section
/-!
DEFINITION. What the host can do to the engine, and nothing else (spec 70_reset R183, R184).
-/

namespace Sys2Proof.Machine

/-- The host's four moves (70_reset R183). An answer out of range is no move (41_generate R110, R184). -/
inductive HostMove where
  | send (bytes : List Byte)
  | takeResponse
  | answer (d : Index)
  | assertReset
  deriving DecidableEq, Repr

/-- The ports after a move: bytes and answers queue up behind what waits, the oldest response leaves,
the reset input is asserted until the engine has seen it (70_reset R180, R183).
Bytes sent while a generate command is in progress queue up as well, in order, and are taken once it has ended.
DESIGN CHOICE, log entry 19, unsafe: the spec says only that the busy engine takes none and leaves open what
becomes of them (92_eei_decisions section 3, 93 V9). -/
def State.hostMove (s : State) : HostMove → State
  | .send bytes => s.withCmdIn (s.cmdIn ++ bytes)
  | .takeResponse => s.withRespOut s.respOut.tail
  | .answer d => s.withEntropyIn (s.entropyIn ++ [d])
  | .assertReset => s.withResetIn true

end Sys2Proof.Machine
end

