-- ==== Sys2Proof/Safety.lean ====
section
/-!
DEFINITION. What holds of every reachable state (spec 10_state R25, R28, R36) and which states are reachable.
-/

namespace Sys2Proof.Machine

/-- `fwd` and `inv` are total and exact two-sided inverses of each other (10_state R25). -/
abbrev Rotor.Exact (ρ : Rotor) : Prop :=
  ∀ i : Index, (ρ.fwd.read i).bind ρ.inv.read = some i ∧ (ρ.inv.read i).bind ρ.fwd.read = some i

/-- A rotor's tables are in canonical form, and exact when its flag is 1 (10_state R25). -/
abbrev Rotor.Ok (ρ : Rotor) : Prop := ρ.fwd.wf ∧ ρ.inv.wf ∧ (ρ.valid = true → ρ.Exact)

/-- A total involution without fixed points (10_state R28). -/
abbrev Pairing (m : Memory) : Prop := ∀ i : Index, (m.read i).bind m.read = some i ∧ m.read i ≠ some i

/-- No symbol is mapped to itself (00_scope R19, "Derangement"). -/
abbrev Derangement (m : Memory) : Prop := ∀ i : Index, m.read i ≠ some i

/-- `GENROT` has filled the positions below `pos` with the values of `used`, each with its inverse cell and
none a fixed point (41_generate R112). -/
abbrev RotorProgress (ρ : Rotor) (pos : Index) (used : Mask) : Prop :=
  (∀ i : Index, i < pos →
    (ρ.fwd.read i).bind ρ.inv.read = some i ∧ ρ.fwd.read i ≠ some i ∧ (ρ.fwd.read i).any used.has = true) ∧
  (∀ v : Index, used.has v = true →
    (ρ.inv.read v).any (fun i => decide (i < pos)) = true ∧ (ρ.inv.read v).bind ρ.fwd.read = some v)

/-- `GENREF` has paired exactly the positions of `used`, all below `pos` among them and `pos` not
(41_generate R113). -/
abbrev ReflProgress (m : Memory) (pos : Index) (used : Mask) : Prop :=
  (∀ i : Index, used.has i = true →
    (m.read i).bind m.read = some i ∧ m.read i ≠ some i ∧ (m.read i).any used.has = true) ∧
  (∀ i : Index, i < pos → used.has i = true) ∧ used.has pos = false

/-- What a generate command in progress keeps true of its target: the flag is 0 (41_generate R116) and the
cells written so far are as its algorithm writes them. -/
def busyOk (s : State) : Bool :=
  match s.busy with
  | .idle => true
  | .genRotor r pos used =>
    match s.rotor r with
    | some ρ => !ρ.valid && decide (RotorProgress ρ pos used)
    | none => false
  | .genRefl pos used => !s.reflValid && decide (ReflProgress s.refl pos used)

/-- A `PRESET` the spec admits (00_scope R12): one key for each of `n` rotors, each key 26 bytes that the
load command accepts. -/
def presetOk (pre : Option Preset) (n : Nat) : Bool :=
  match pre with
  | none => true
  | some p =>
    p.rotorKeys.length == n &&
    p.rotorKeys.all (fun k => k.length == 26 && decide ((loadRotorKey k [] []).status = .ok)) &&
    p.reflKey.length == 26 && decide ((loadReflKey p.reflKey []).status = .ok)

/-- Parameters the spec admits (00_scope R11, R12). -/
abbrev paramsOk (p : Params) : Prop := p.nRotors ≤ Config.maxRotors ∧ presetOk p.preset p.nRotors = true

/-- The invariant of every reachable state: 10_state R36 (with R25 and R28), the canonical form of every
table, the bound of 00_scope R11, and what a generate command in progress keeps true. -/
abbrev State.Inv (s : State) : Prop :=
  s.nRotors ≤ Config.maxRotors ∧ (∀ ρ ∈ s.rotors, ρ.Ok) ∧
  s.refl.wf ∧ (s.reflValid = true → Pairing s.refl) ∧
  busyOk s = true ∧ presetOk s.preset s.nRotors = true

/-- The states an engine of parameters `p` can come to from reset, by steps of its own and moves of the host
(10_state R36, 70_reset R183). -/
inductive Reachable (p : Params) : State → Prop where
  | reset : Reachable p (State.resetFor p)
  | step {s t : State} : Reachable p s → step s = .next t → Reachable p t
  | host {s : State} (m : HostMove) : Reachable p s → Reachable p (s.hostMove m)

end Sys2Proof.Machine
end

