-- ==== Sys2Proof/Certificates/Slice0/Obligations.lean ====
section
/-!
DEFINITION. The statements for the provers, from the numbered rules of spec/. Each docstring names its rules.
-/

namespace Sys2Proof.Claims

open Sys2Proof.Machine

/-! Words of the statements, written from the rules and not from the model's own functions. -/

/-- The length of a command by `OP` alone (R74): 2 for 0x1, 27 for 0x2 and 0x3, else 1. -/
def lengthByOp (h : Byte) : Nat :=
  if h.toNat / 16 = 1 then 2 else if h.toNat / 16 = 2 ∨ h.toNat / 16 = 3 then 27 else 1

/-- The illegal headers (R75). -/
abbrev IllegalHeader (h : Byte) : Prop :=
  h.toNat / 16 = 0 ∨ 10 ≤ h.toNat / 16 ∨
  ((h.toNat / 16 = 1 ∨ h.toNat / 16 = 3 ∨ h.toNat / 16 = 5 ∨ h.toNat / 16 = 9) ∧ h.toNat % 16 ≠ 0)

/-- The headers of the commands with a rotor operand (R72). -/
abbrev RotorHeader (h : Byte) : Prop :=
  h.toNat / 16 = 2 ∨ h.toNat / 16 = 4 ∨ h.toNat / 16 = 6 ∨ h.toNat / 16 = 7 ∨ h.toNat / 16 = 8

/-- The engine is idle and reset is not asserted: it takes the next command (R70). -/
abbrev Ready (s : State) : Prop := s.resetIn = false ∧ s.busy = .idle

/-- `s` with one more response on the response port and nothing else changed. -/
def answered (s : State) (response : List Byte) : State := s.withRespOut (s.respOut ++ [response])

/-- The index of the key character at position `i`. -/
def keyIndex (k : List Byte) (i : Index) : Index := letterToIndex (k.getD i.val 0)

/-- The key character at position `i` is a letter. -/
abbrev KeyLetter (k : List Byte) (i : Index) : Prop := isLetter (k.getD i.val 0) = true

/-- A rotor key `LDROT` accepts: 26 letters, their indices pairwise different (R126 (4)). -/
abbrev RotorKey (k : List Byte) : Prop :=
  (∀ i : Index, KeyLetter k i) ∧ ∀ i j : Index, keyIndex k i = keyIndex k j → i = j

/-- A reflector key `LDREF` accepts: 26 letters that give an involution without fixed points (R126 (5)). -/
abbrev ReflectorKey (k : List Byte) : Prop :=
  (∀ i : Index, KeyLetter k i) ∧ ∀ i : Index, keyIndex k (keyIndex k i) = i ∧ keyIndex k i ≠ i

/-- Position `p` is the first at which a rotor key fails: all before are letters, pairwise different. -/
abbrev GoodBefore (k : List Byte) (p : Index) : Prop :=
  (∀ i : Index, i < p → KeyLetter k i) ∧ ∀ i j : Index, i < j → j < p → keyIndex k i ≠ keyIndex k j

/-- The 26 letters of a map of indices, position 0 first. -/
def lettersOf (f : Index → Index) : List Byte :=
  (List.finRange 26).map fun i => BitVec.ofNat 8 (0x41 + (f i).val)

/-- The number of letters of a text (R148). -/
def letterCount (text : List Byte) : Nat := (text.filter isLetter).length

/-- The shift vector as a number: `shift[0] + 26*shift[1] + ...` (R141). -/
def bankValue : List Rotor → Nat
  | [] => 0
  | ρ :: rest => ρ.shift.val + 26 * bankValue rest

/-- The shift of rotor `k` after one `Step`: it advances when every rotor below it stood at 25 (R141, R23). -/
def steppedShift (bank : List Rotor) (k : Nat) (ρ : Rotor) : Index :=
  if (bank.take k).all (fun σ => σ.shift == 25) then ρ.shift + 1 else ρ.shift

/-- The bank after one `Step`. -/
def steppedBank (bank : List Rotor) : List Rotor :=
  bank.mapIdx fun k ρ => ρ.withShift (steppedShift bank k ρ)

/-- Which status each command can end with (R161). -/
def canEnd : Instr → Status → Bool
  | _, .ok => true
  | .enc _, .tableInvalid => true
  | .ldrot _ _, .invalidCharacter => true
  | .ldrot _ _, .duplicateMapping => true
  | .ldrot _ _, .badRotorSelect => true
  | .ldref _, .invalidCharacter => true
  | .ldref _, .notInvolution => true
  | .rdrot _, .tableInvalid => true
  | .rdrot _, .badRotorSelect => true
  | .rdref, .tableInvalid => true
  | .rdsh _, .badRotorSelect => true
  | .rstsh _, .badRotorSelect => true
  | .genrot _, .badRotorSelect => true
  | _, _ => false

/-- A command that uses no draw. -/
def drawless : Instr → Bool
  | .genrot _ => false
  | .genref => false
  | _ => true

/-- A table generated by `GENROT` (R114). -/
abbrev GeneratedRotor (ρ : Rotor) : Prop :=
  ρ.Exact ∧ Derangement ρ.fwd ∧ ρ.shift = 0 ∧ ρ.valid = true

/-- The number of values a mask marks. -/
def markCount (used : Mask) : Nat := ((List.finRange 26).filter used.has).length

/-- The number of pairs of a reflector table, each counted at its lower end (R114). -/
def pairCount (m : Memory) : Nat :=
  ((List.finRange 26).filter fun i => (m.read i).any fun v => decide (i < v)).length

end Sys2Proof.Claims

open Sys2Proof Sys2Proof.Machine Sys2Proof.Claims

/-! ## Encoding and the command port -/

/-- R70 to R74: no bit of an encoding is dropped. -/
def Obligations.EncodedCommandDecodesToItself : Prop :=
  ∀ (i : Instr) (rest : List Byte), i.wf = true → decode (encode i ++ rest) = .command i rest

/-- R70 to R75: the decoder accepts nothing but the encodings of well-formed commands. -/
def Obligations.DecodedBytesAreTheEncoding : Prop :=
  ∀ (bytes : List Byte) (i : Instr) (rest : List Byte),
    decode bytes = .command i rest → i.wf = true ∧ bytes = encode i ++ rest

/-- R72: words written out from the opcode map, one per command. -/
def Obligations.SpecWordsDecode : Prop :=
  decode [0x10, 0x41] = .command (.enc 0x41) [] ∧
  decode (0x2F :: List.replicate 26 0x5A) = .command (.ldrot 15 (List.replicate 26 0x5A)) [] ∧
  decode (0x30 :: List.replicate 26 0x42) = .command (.ldref (List.replicate 26 0x42)) [] ∧
  decode [0x43] = .command (.rdrot 3) [] ∧
  decode [0x50] = .command .rdref [] ∧
  decode [0x61] = .command (.rdsh 1) [] ∧
  decode [0x7F] = .command (.rstsh 15) [] ∧
  decode [0x80] = .command (.genrot 0) [] ∧
  decode [0x90, 0x10] = .command .genref [0x10]

/-- R75: an illegal header takes its full length, changes no state and answers `IllegalCommand`; of the 256
headers 84 are legal, and each of them is the header of a command. -/
def Obligations.IllegalHeaderIsRefused : Prop :=
  (∀ (s : State) (h : Byte) (tl : List Byte), Ready s → s.cmdIn = h :: tl → IllegalHeader h →
    lengthByOp h ≤ tl.length + 1 →
    step s = .next (answered (s.withCmdIn (tl.drop (lengthByOp h - 1))) [0x06])) ∧
  (∀ (h : Byte) (tl : List Byte), ¬ IllegalHeader h → lengthByOp h ≤ tl.length + 1 →
    ∃ i, decode (h :: tl) = .command i (tl.drop (lengthByOp h - 1))) ∧
  ((List.range 256).filter fun n => decide (IllegalHeader (BitVec.ofNat 8 n))).length = 172

/-- R74, R77: the length of a command comes from `OP` alone; a command whose bytes are not all there is waited
for; otherwise exactly its length is taken, whatever it ends with. That the waiting engine answers the very same
state, and that the bytes of an unfinished command stay on the port meanwhile, is the model's (log entries 15
and 6). So is that the bytes behind a `GENROT` or `GENREF` that has not ended stay on the port of the busy
engine (third clause; log entry 19): R74 and R77 speak of commands that end. -/
def Obligations.FramingNeverDependsOnStatus : Prop :=
  (∀ s : State, Ready s → s.cmdIn = [] → step s = .next s) ∧
  (∀ (s : State) (h : Byte) (tl : List Byte), Ready s → s.cmdIn = h :: tl →
    tl.length + 1 < lengthByOp h → step s = .next s) ∧
  (∀ (s t : State) (h : Byte) (tl : List Byte), Ready s → s.cmdIn = h :: tl →
    lengthByOp h ≤ tl.length + 1 → step s = .next t → t.cmdIn = tl.drop (lengthByOp h - 1))

/-- R76: `r >= N` takes the command's full length, changes no state (no draw, no key looked at) and answers
`BadRotorSelect`. -/
def Obligations.RotorSelectOutOfRange : Prop :=
  ∀ (s : State) (h : Byte) (tl : List Byte), Ready s → s.cmdIn = h :: tl → RotorHeader h →
    s.rotors.length ≤ h.toNat % 16 → lengthByOp h ≤ tl.length + 1 →
    step s = .next (answered (s.withCmdIn (tl.drop (lengthByOp h - 1))) [0x05])

/-- A step runs the decoded command (R70): the engine idle, reset not asserted, the command's bytes taken from
the port, and nothing else around `exec`. That the bytes behind a generate command that has not ended stay on
the port is the model's choice (log entry 19). -/
def Obligations.StepRunsTheDecodedCommand : Prop :=
  ∀ (s : State) (i : Instr) (rest : List Byte), Ready s → decode s.cmdIn = .command i rest →
    step s = exec i (s.withCmdIn rest)

/-- R59, R78, R185: a stream of commands on the port runs in arrival order, one command a step, each seeing all
writes of the one before. When the run ends, the steps come to its final state; when a command has not ended,
they come to the busy engine with the bytes of the commands not begun still on the port, and further steps leave
it so (that those bytes are kept is the model's choice, log entry 19). Commands that use no draw always end. -/
def Obligations.CommandStreamRunsInOrder : Prop :=
  (∀ (prog : List Instr) (s : State), Ready s → (∀ i ∈ prog, i.wf = true) → s.cmdIn = assemble prog →
    (∀ t : State, runCommands prog (s.withCmdIn []) = .ended t → runSteps prog.length s = .next t) ∧
    (∀ (t : State) (rest : List Instr), runCommands prog (s.withCmdIn []) = .unended t rest →
      t.busy ≠ .idle ∧ t.entropyIn = [] ∧
      ∀ n : Nat, prog.length ≤ n → runSteps n s = .next (t.withCmdIn (assemble rest)))) ∧
  (∀ (prog : List Instr) (s : State), s.busy = .idle → (∀ i ∈ prog, drawless i = true) →
    ∀ (t : State) (rest : List Instr), runCommands prog s ≠ .unended t rest)

/-! ## Responses and statuses -/

/-- R80: one response per command; an error response is exactly one byte. A step emits none only while the engine
waits for a command's bytes or a generate command has not ended (R116, R159). That a waiting engine keeps the very
same state, with the bytes of an unfinished command on the port, is the model's (log entries 15 and 6). -/
def Obligations.OneResponsePerCommand : Prop :=
  ∀ s t : State, s.resetIn = false → step s = .next t →
    (t.respOut = s.respOut ∧ (t = s ∨ t.busy ≠ .idle)) ∨
    (t.busy = .idle ∧ ∃ (st : Status) (p : List Byte),
      t.respOut = s.respOut ++ [st.code :: p] ∧ (st ≠ .ok → p = []))

/-- R161: the statuses each command can end with. -/
def Obligations.StatusesOfEachCommand : Prop :=
  ∀ (i : Instr) (s t : State) (st : Status) (p : List Byte),
    exec i s = .next t → t.respOut = s.respOut ++ [st.code :: p] → canEnd i st = true

/-- R159 (3): a refusal changes no state at all. -/
def Obligations.RefusalChangesNothing : Prop :=
  ∀ (i : Instr) (s t : State) (st : Status), st = .tableInvalid ∨ st = .badRotorSelect →
    exec i s = .next t → t.respOut = s.respOut ++ [[st.code]] → t = answered s [st.code]

/-! ## Alphabet -/

/-- R100, R101, R102: the three alphabet functions on every argument; and R104 (1), (2), which the spec derives
from R100 to R103: the round trips between letters and indices. -/
def Obligations.LettersAndIndices : Prop :=
  (∀ c : Byte, isLetter c = true ↔
    (0x41 ≤ c.toNat ∧ c.toNat ≤ 0x5A) ∨ (0x61 ≤ c.toNat ∧ c.toNat ≤ 0x7A)) ∧
  ((List.range 256).filter fun n => isLetter (BitVec.ofNat 8 n)).length = 52 ∧
  (∀ c : Byte, (letterToIndex c).val =
    if 0x41 ≤ c.toNat ∧ c.toNat ≤ 0x5A then c.toNat - 0x41
    else if 0x61 ≤ c.toNat ∧ c.toNat ≤ 0x7A then c.toNat - 0x61 else 0) ∧
  (∀ i : Nat, i ≤ 25 → (indexToLetter i).toNat = 0x41 + i) ∧
  (∀ i : Nat, 26 ≤ i → indexToLetter i = Config.invalidLetter) ∧
  (∀ i : Index, isLetter (indexToLetter i.val) = true ∧ letterToIndex (indexToLetter i.val) = i) ∧
  (∀ c : Byte, isLetter c = true →
    indexToLetter (letterToIndex c).val = if c.toNat ≤ 0x5A then c else BitVec.ofNat 8 (c.toNat - 0x20))

/-! ## The cipher datapath -/

/-- R141: `Step` as a closed form, and as the number that goes up by one modulo `26^N`; only shifts change. -/
def Obligations.StepIsAnOdometer : Prop :=
  ∀ bank : List Rotor, cascade bank = steppedBank bank ∧
    bankValue (cascade bank) = (bankValue bank + 1) % 26 ^ bank.length

/-- R140: a non-letter is answered unchanged in any state, and nothing else changes. -/
def Obligations.EncPassesNonLettersThrough : Prop :=
  ∀ (c : Byte) (s : State), isLetter c = false → exec (.enc c) s = .next (answered s [0x00, c])

/-- R140, R29: a letter is refused when some VALID flag is 0; nothing is stepped. -/
def Obligations.EncRefusesInvalidTables : Prop :=
  ∀ (c : Byte) (s : State), isLetter c = true →
    (s.reflValid = false ∨ ∃ ρ ∈ s.rotors, ρ.valid = false) →
    exec (.enc c) s = .next (answered s [0x04])

/-- R140, R142, R143, R144: a letter with all flags 1 completes: the bank steps, then the index goes forward
through the rotors, through the reflector, and back. `F k`, `G k`, `P` are the maps the tables hold. -/
def Obligations.EncLetterResult : Prop :=
  ∀ (c : Byte) (s : State) (F G : Nat → Index → Index) (P : Index → Index),
    isLetter c = true → s.reflValid = true → (∀ ρ ∈ s.rotors, ρ.valid = true) →
    (∀ k ρ, s.rotors[k]? = some ρ →
      ∀ i, ρ.fwd.read i = some (F k i) ∧ ρ.inv.read i = some (G k i)) →
    (∀ i, s.refl.read i = some (P i)) →
    let sh := fun k => ((steppedBank s.rotors)[k]?.map fun ρ => ρ.shift).getD 0
    let y := (List.range s.rotors.length).foldl (fun x k => F k (x + sh k)) (letterToIndex c)
    let z := (List.range s.rotors.length).foldr (fun k x => G k x - sh k) (P y)
    exec (.enc c) s =
      .next (answered (s.withRotors (steppedBank s.rotors)) [0x00, BitVec.ofNat 8 (0x41 + z.val)])

/-- R140 corner case 3: a lower-case letter is enciphered exactly as its upper-case form. -/
def Obligations.EncFoldsCase : Prop :=
  ∀ (c : Byte) (s : State), 0x61 ≤ c.toNat → c.toNat ≤ 0x7A →
    exec (.enc c) s = exec (.enc (BitVec.ofNat 8 (c.toNat - 0x20))) s

/-- R146, which the spec derives from R142 to R144, R25 and R28: for one shift vector the backward pass is the
inverse of the forward pass, and the letter map of one `ENC` is an involution without fixed points. -/
def Obligations.LetterMapIsAPairing : Prop :=
  (∀ bank : List Rotor, (∀ ρ ∈ bank, ρ.Exact) → ∀ x : Index,
    (forwardPass bank x).bind (backwardPass bank) = some x ∧
    (backwardPass bank x).bind (forwardPass bank) = some x) ∧
  (∀ s : State, s.Inv → s.tablesValid = true → ∀ c : Byte, isLetter c = true →
    ∃ (d : Byte) (t u : State), isUpper d = true ∧ d ≠ upperCase c ∧
      exec (.enc c) s = .next t ∧ t.respOut = s.respOut ++ [[0x00, d]] ∧
      exec (.enc d) s = .next u ∧ u.respOut = s.respOut ++ [[0x00, upperCase c]])

/-- R147, "ENCODE m' from the same S and the same tables returns m with every letter in upper case", which the
spec derives: reciprocity. Enciphering the result from the same shift vector with the same tables gives the
message back, every letter in upper case. A command puts a shift back only to 0; any other value is reached only
by enciphering. -/
def Obligations.Reciprocity : Prop :=
  (∀ (text : List Byte) (s : State), s.Inv → s.tablesValid = true →
    ∃ (out : List Byte) (t : State), encodeText text s = some (out, t) ∧
      out.length = text.length ∧
      (∀ (n : Nat) (c d : Byte), text[n]? = some c → out[n]? = some d → isLetter d = isLetter c) ∧
      ∀ s' : State, s'.busy = .idle → s'.rotors = s.rotors → s'.refl = s.refl → s'.reflValid = s.reflValid →
        ∃ u : State, encodeText out s' = some (text.map upperCase, u) ∧ u.rotors = t.rotors) ∧
  (∀ (i : Instr) (s t : State) (k : Nat) (ρ ρ' : Rotor), exec i s = .next t → s.rotors[k]? = some ρ →
    t.rotors[k]? = some ρ' → ρ'.shift ≠ ρ.shift → ρ'.shift = 0 ∨ ∃ c, i = .enc c)

/-- R148, which the spec derives from R141: the odometer property. From shifts 0, after a text with `L` letters,
rotor `k` stands at `floor(L / 26^k) mod 26`. -/
def Obligations.OdometerProperty : Prop :=
  ∀ (text : List Byte) (s : State), s.Inv → s.tablesValid = true → (∀ ρ ∈ s.rotors, ρ.shift = 0) →
    ∃ (out : List Byte) (t : State), encodeText text s = some (out, t) ∧
      ∀ (k : Nat) (ρ : Rotor), t.rotors[k]? = some ρ → ρ.shift.val = letterCount text / 26 ^ k % 26

/-- R149: `RSTSH r` completes for every rotor of the bank, whatever its flag: shift 0, nothing else but the
response; and `BadRotorSelect` for any other `r`. -/
def Obligations.RstshResult : Prop :=
  (∀ (r : Nat) (s : State) (ρ : Rotor), s.rotors[r]? = some ρ →
    exec (.rstsh r) s = .next (answered (s.withRotors (s.rotors.set r (ρ.withShift 0))) [0x00])) ∧
  (∀ (r : Nat) (s : State), s.rotors.length ≤ r → exec (.rstsh r) s = .next (answered s [0x05]))

/-- R150: `RDSH r` completes for every rotor of the bank, whatever its flag: the shift as a byte, 0x00 to 0x19,
and no state but the response; and `BadRotorSelect` for any other `r`. -/
def Obligations.RdshResult : Prop :=
  (∀ (r : Nat) (s : State) (ρ : Rotor), s.rotors[r]? = some ρ →
    ∃ b : Byte, b.toNat = ρ.shift.val ∧ b.toNat ≤ 0x19 ∧ exec (.rdsh r) s = .next (answered s [0x00, b])) ∧
  (∀ (r : Nat) (s : State), s.rotors.length ≤ r → exec (.rdsh r) s = .next (answered s [0x05]))

/-- R83: `RSTALL` is `RSTSH 0` to `RSTSH N-1` in that order; on an idle engine it sets every shift to 0, gives
`N` `OK` responses and changes nothing else. -/
def Obligations.RstallResult : Prop :=
  (∀ n : Nat, rstall n = (List.range n).map Instr.rstsh) ∧
  (∀ s : State, s.busy = .idle → runCommands (rstall s.rotors.length) s =
    .ended ((s.withRotors (s.rotors.map fun ρ => ρ.withShift 0)).withRespOut
      (s.respOut ++ List.replicate s.rotors.length [0x00])))

/-! ## Keys -/

/-- R121: a good rotor key loads: forward and inverse cells by the key, shift 0, flag 1, `OK`; nothing else
changes. No derangement check. -/
def Obligations.LdrotResult : Prop :=
  ∀ (r : Nat) (k : List Byte) (s : State), r < s.rotors.length → RotorKey k →
    ∃ ρ' : Rotor, exec (.ldrot r k) s = .next (answered (s.withRotors (s.rotors.set r ρ')) [0x00]) ∧
      ρ'.shift = 0 ∧ ρ'.valid = true ∧
      ∀ i : Index, ρ'.fwd.read i = some (keyIndex k i) ∧ ρ'.inv.read (keyIndex k i) = some i

/-- R121, R125, R163: a bad rotor key fails at its first failing position `p`, the letter test before the
duplicate test; the cells before `p` are written, every other cell and the shift stay, the flag is 0. The cells
kept exactly are the model's choice of the two that R125 allows (log entry 16). -/
def Obligations.LdrotFailure : Prop :=
  ∀ (r : Nat) (k : List Byte) (s : State) (ρ : Rotor) (p : Index), s.rotors[r]? = some ρ →
    GoodBefore k p → (¬ KeyLetter k p ∨ ∃ i : Index, i < p ∧ keyIndex k i = keyIndex k p) →
    ∃ ρ' : Rotor,
      exec (.ldrot r k) s = .next (answered (s.withRotors (s.rotors.set r ρ'))
        [if KeyLetter k p then 0x02 else 0x01]) ∧
      ρ'.shift = ρ.shift ∧ ρ'.valid = false ∧
      (∀ i : Index, ρ'.fwd.read i = if i < p then some (keyIndex k i) else ρ.fwd.read i) ∧
      (∀ i : Index, i < p → ρ'.inv.read (keyIndex k i) = some i) ∧
      (∀ v : Index, (∀ i : Index, i < p → keyIndex k i ≠ v) → ρ'.inv.read v = ρ.inv.read v)

/-- R122: a good reflector key loads: every cell by the key, flag 1, `OK`; nothing else changes. -/
def Obligations.LdrefResult : Prop :=
  ∀ (k : List Byte) (s : State), ReflectorKey k →
    ∃ m : Memory, exec (.ldref k) s = .next (answered ((s.withRefl m).withReflValid true) [0x00]) ∧
      ∀ i : Index, m.read i = some (keyIndex k i)

/-- R122, R125: a key with a non-letter fails at the first one, with the cells before it written; 26 letters
that are no fixed-point-free involution fail with all cells written; the flag is 0. The cells kept exactly are
the model's choice of the two that R125 allows (log entry 16). -/
def Obligations.LdrefFailure : Prop :=
  (∀ (k : List Byte) (s : State) (p : Index), (∀ i : Index, i < p → KeyLetter k i) → ¬ KeyLetter k p →
    ∃ m : Memory, exec (.ldref k) s = .next (answered ((s.withRefl m).withReflValid false) [0x01]) ∧
      ∀ i : Index, m.read i = if i < p then some (keyIndex k i) else s.refl.read i) ∧
  (∀ (k : List Byte) (s : State), (∀ i : Index, KeyLetter k i) → ¬ ReflectorKey k →
    ∃ m : Memory, exec (.ldref k) s = .next (answered ((s.withRefl m).withReflValid false) [0x03]) ∧
      ∀ i : Index, m.read i = some (keyIndex k i))

/-- R123, R124: a valid table is read back as its 26 upper-case letters, position 0 first, and nothing but the
response changes; `f` is the map the table holds. -/
def Obligations.ReadBackResult : Prop :=
  (∀ (r : Nat) (s : State) (ρ : Rotor) (f : Index → Index), s.rotors[r]? = some ρ → ρ.valid = true →
    (∀ i, ρ.fwd.read i = some (f i)) → exec (.rdrot r) s = .next (answered s (0x00 :: lettersOf f))) ∧
  (∀ (s : State) (f : Index → Index), s.reflValid = true → (∀ i, s.refl.read i = some (f i)) →
    exec .rdref s = .next (answered s (0x00 :: lettersOf f))) ∧
  (∀ (r : Nat) (s : State) (ρ : Rotor), s.rotors[r]? = some ρ → ρ.valid = false →
    exec (.rdrot r) s = .next (answered s [0x04])) ∧
  (∀ s : State, s.reflValid = false → exec .rdref s = .next (answered s [0x04]))

/-- R126, which the spec derives from R121 to R124: the five laws of the key codec. -/
def Obligations.KeyCodecLaws : Prop :=
  (∀ (r : Nat) (k : List Byte) (s t : State), k.length = 26 → exec (.ldrot r k) s = .next t →
    t.respOut = s.respOut ++ [[0x00]] →
    exec (.rdrot r) t = .next (answered t (0x00 :: k.map upperCase))) ∧
  (∀ (r : Nat) (p : List Byte) (s t : State), s.Inv → exec (.rdrot r) s = .next t →
    t.respOut = s.respOut ++ [0x00 :: p] →
    ∃ (u : State) (ρ : Rotor), exec (.ldrot r p) t = .next u ∧ u.respOut = t.respOut ++ [[0x00]] ∧
      t.rotors[r]? = some ρ ∧ u.rotors[r]? = some (ρ.withShift 0)) ∧
  (∀ (k : List Byte) (s t : State), k.length = 26 → exec (.ldref k) s = .next t →
    t.respOut = s.respOut ++ [[0x00]] → exec .rdref t = .next (answered t (0x00 :: k.map upperCase))) ∧
  (∀ (p : List Byte) (s t : State), s.Inv → exec .rdref s = .next t →
    t.respOut = s.respOut ++ [0x00 :: p] →
    ∃ u : State, exec (.ldref p) t = .next u ∧ u.respOut = t.respOut ++ [[0x00]] ∧ u.refl = t.refl) ∧
  (∀ (r : Nat) (k : List Byte) (s : State), r < s.rotors.length →
    ((∃ t : State, exec (.ldrot r k) s = .next t ∧ t.respOut = s.respOut ++ [[0x00]]) ↔ RotorKey k)) ∧
  (∀ (k : List Byte) (s : State),
    ((∃ t : State, exec (.ldref k) s = .next t ∧ t.respOut = s.respOut ++ [[0x00]]) ↔ ReflectorKey k))

/-- R189, R29: after a failed load of a rotor or of the reflector every `ENC` of a letter is refused, at once and
after any run of commands that does not load or generate that table. -/
def Obligations.FailedLoadPoisonsTheTable : Prop :=
  (∀ (r : Nat) (k : List Byte) (s t : State) (c : Byte), r < s.rotors.length → ¬ RotorKey k →
    exec (.ldrot r k) s = .next t → isLetter c = true →
    exec (.enc c) t = .next (answered t [0x04]) ∧
    ∀ (prog : List Instr) (u : State), (∀ i ∈ prog, (∀ key, i ≠ .ldrot r key) ∧ i ≠ .genrot r) →
      runCommands prog t = .ended u → exec (.enc c) u = .next (answered u [0x04])) ∧
  (∀ (k : List Byte) (s t : State) (c : Byte), ¬ ReflectorKey k →
    exec (.ldref k) s = .next t → isLetter c = true →
    exec (.enc c) t = .next (answered t [0x04]) ∧
    ∀ (prog : List Instr) (u : State), (∀ i ∈ prog, (∀ key, i ≠ .ldref key) ∧ i ≠ .genref) →
      runCommands prog t = .ended u → exec (.enc c) u = .next (answered u [0x04]))

/-! ## Generation -/

/-- R111: a probe gives the first unused value at or after the draw, wrapping, when some value is unused. -/
def Obligations.ProbeFindsTheFirstUnused : Prop :=
  ∀ (d : Index) (used : Mask), (∃ v : Index, used.has v = false) →
    ∃ n : Index, probe d used = some (d + n) ∧ used.has (d + n) = false ∧
      ∀ m : Index, m < n → used.has (d + m) = true

/-- R112, R113: how a generate command begins, seen with no answer on the entropy port: the flag is 0, position
0, nothing used, no response. The busy value and the wait for answers are the model's (log entries 8 and 9), and
so is that bytes on the command port stay there (log entry 19). -/
def Obligations.GenerationBegins : Prop :=
  (∀ (r : Nat) (s : State) (ρ : Rotor), s.rotors[r]? = some ρ → s.entropyIn = [] →
    exec (.genrot r) s = .next ((s.withRotors (s.rotors.set r (ρ.withValid false))).withBusy (.genRotor r 0 0))) ∧
  (∀ s : State, s.entropyIn = [] → exec .genref s = .next ((s.withReflValid false).withBusy (.genRefl 0 0)))

/-- R112: one draw of `GENROT r` at position `pos`. A draw that probes to `pos` changes nothing; else the two
cells are written, and the next position follows, or after position 25 the command ends `OK`. The busy value is
the model's (log entry 9), and so is that bytes on the command port stay there (log entry 19). -/
def Obligations.OneDrawOfGenrot : Prop :=
  ∀ (r : Nat) (s : State) (ρ : Rotor) (pos : Index) (used : Mask) (d v : Index), s.resetIn = false →
    s.busy = .genRotor r pos used → s.rotors[r]? = some ρ → s.entropyIn = [d] → probe d used = some v →
    (v = pos → step s = .next (s.withEntropyIn [])) ∧
    (v ≠ pos → ∃ ρ' : Rotor,
      (∀ i : Index, ρ'.fwd.read i = if i = pos then some v else ρ.fwd.read i) ∧
      (∀ i : Index, ρ'.inv.read i = if i = v then some pos else ρ.inv.read i) ∧
      (pos < 25 → ρ'.shift = ρ.shift ∧ ρ'.valid = ρ.valid ∧
        ∃ used' : Mask, (∀ w : Index, used'.has w = true ↔ used.has w = true ∨ w = v) ∧
          step s = .next (((s.withRotors (s.rotors.set r ρ')).withBusy (.genRotor r (pos + 1) used')).withEntropyIn
            [])) ∧
      (pos = 25 → ρ'.shift = 0 ∧ ρ'.valid = true ∧
        step s = .next (answered (((s.withRotors (s.rotors.set r ρ')).withBusy .idle).withEntropyIn []) [0x00])))

/-- R113: one draw of `GENREF` at position `pos`. A draw that probes to `pos` changes nothing; else both cells
of the pair are written and marked, and the next position not marked follows, or the command ends `OK`. The busy
value is the model's (log entry 9), and so is that bytes on the command port stay there (log entry 19). -/
def Obligations.OneDrawOfGenref : Prop :=
  ∀ (s : State) (pos : Index) (used : Mask) (d v : Index), s.resetIn = false →
    s.busy = .genRefl pos used → s.entropyIn = [d] → probe d used = some v →
    (v = pos → step s = .next (s.withEntropyIn [])) ∧
    (v ≠ pos → ∃ (m : Memory) (used' : Mask),
      (∀ i : Index, m.read i = if i = pos then some v else if i = v then some pos else s.refl.read i) ∧
      (∀ w : Index, used'.has w = true ↔ used.has w = true ∨ w = pos ∨ w = v) ∧
      ((∃ p : Index, pos < p ∧ used'.has p = false ∧ (∀ i : Index, pos < i → i < p → used'.has i = true) ∧
          step s = .next (((s.withRefl m).withBusy (.genRefl p used')).withEntropyIn [])) ∨
        ((∀ i : Index, pos < i → used'.has i = true) ∧
          step s = .next (answered ((((s.withRefl m).withReflValid true).withBusy .idle).withEntropyIn [])
            [0x00]))))

/-- R112: every derangement can be generated: when the answers waiting are its values in order, `GENROT r` ends
`OK` with exactly its tables, shift 0 and flag 1, uses exactly those answers, and changes nothing else. That
bytes on the command port stay there while it is in progress is the model's choice (log entry 19). -/
def Obligations.GenrotResult : Prop :=
  ∀ (r : Nat) (s : State) (f : Index → Index) (more : List Index), r < s.rotors.length →
    Function.Injective f → (∀ i, f i ≠ i) → s.entropyIn = (List.finRange 26).map f ++ more →
    ∃ ρ' : Rotor,
      exec (.genrot r) s = .next (answered
        (((s.withRotors (s.rotors.set r ρ')).withBusy .idle).withEntropyIn more) [0x00]) ∧
      ρ'.shift = 0 ∧ ρ'.valid = true ∧
      ∀ i : Index, ρ'.fwd.read i = some (f i) ∧ ρ'.inv.read (f i) = some i

/-- R113: every pairing can be generated: when the answers waiting are the upper ends of its pairs, in the order
of their lower ends, `GENREF` ends `OK` with exactly that table and flag 1, and changes nothing else. That bytes
on the command port stay there while it is in progress is the model's choice (log entry 19). -/
def Obligations.GenrefResult : Prop :=
  ∀ (s : State) (f : Index → Index) (more : List Index), (∀ i, f (f i) = i ∧ f i ≠ i) →
    s.entropyIn = ((List.finRange 26).filter fun i => decide (i < f i)).map f ++ more →
    ∃ m : Memory,
      exec .genref s = .next (answered
        ((((s.withRefl m).withReflValid true).withBusy .idle).withEntropyIn more) [0x00]) ∧
      ∀ i : Index, m.read i = some (f i)

/-- R114, which the spec derives from R111 to R113: what a generate command that ends leaves, whatever the
draws: at once, or after any wait for draws from a state that keeps the invariant. -/
def Obligations.GeneratedTablesAreGood : Prop :=
  (∀ (r : Nat) (s t : State), r < s.rotors.length → exec (.genrot r) s = .next t → t.busy = .idle →
    ∃ ρ, t.rotors[r]? = some ρ ∧ GeneratedRotor ρ) ∧
  (∀ s t : State, exec .genref s = .next t → t.busy = .idle →
    Pairing t.refl ∧ pairCount t.refl = 13 ∧ t.reflValid = true) ∧
  (∀ (r : Nat) (pos : Index) (used : Mask) (s t : State), s.Inv → s.resetIn = false →
    s.busy = .genRotor r pos used → step s = .next t → t.busy = .idle →
    ∃ ρ, t.rotors[r]? = some ρ ∧ GeneratedRotor ρ) ∧
  (∀ (pos : Index) (used : Mask) (s t : State), s.Inv → s.resetIn = false →
    s.busy = .genRefl pos used → step s = .next t → t.busy = .idle →
    Pairing t.refl ∧ pairCount t.refl = 13 ∧ t.reflValid = true)

/-- R115, which the spec derives from R112 and R113, for a command that ends with the answers at hand: at least
26 draws for a rotor and 13 for the reflector, the rest of the answers untouched; two runs with the same draws
give the same tables. -/
def Obligations.DrawsDecideTheTable : Prop :=
  (∀ (r : Nat) (s t : State), r < s.rotors.length → exec (.genrot r) s = .next t → t.busy = .idle →
    ∃ draws, s.entropyIn = draws ++ t.entropyIn ∧ 26 ≤ draws.length) ∧
  (∀ s t : State, exec .genref s = .next t → t.busy = .idle →
    ∃ draws, s.entropyIn = draws ++ t.entropyIn ∧ 13 ≤ draws.length) ∧
  (∀ (r : Nat) (s s' t t' : State), r < s.rotors.length → r < s'.rotors.length →
    s.entropyIn = s'.entropyIn → exec (.genrot r) s = .next t → exec (.genrot r) s' = .next t' →
    t.busy = .idle →
    t'.busy = .idle ∧ t'.entropyIn = t.entropyIn ∧ ∃ ρ ρ', t.rotors[r]? = some ρ ∧ t'.rotors[r]? = some ρ' ∧
      ∀ i, ρ.fwd.read i = ρ'.fwd.read i ∧ ρ.inv.read i = ρ'.inv.read i) ∧
  (∀ s s' t t' : State, s.entropyIn = s'.entropyIn → exec .genref s = .next t →
    exec .genref s' = .next t' → t.busy = .idle →
    t'.busy = .idle ∧ t'.entropyIn = t.entropyIn ∧ ∀ i, t.refl.read i = t'.refl.read i)

/-- R115, which the spec derives from R112 and R113, for a command that goes on in a later step (log entries 8
and 9). At position `pos` a `GENROT` still takes at least `26 - pos` draws to end, and has come at most one
position further per draw while it has not; `GENREF` takes at least one draw for every two positions not yet
paired. Two commands that stand at the same point with the same cells written and get the same draws end alike,
with the same tables. -/
def Obligations.DrawsDecideAResumedTable : Prop :=
  (∀ (r : Nat) (pos : Index) (used : Mask) (s t : State), s.resetIn = false → s.busy = .genRotor r pos used →
    step s = .next t →
    ∃ draws, s.entropyIn = draws ++ t.entropyIn ∧ (t.busy = .idle → 26 ≤ draws.length + pos.val) ∧
      ∀ pos' used', t.busy = .genRotor r pos' used' → pos'.val ≤ pos.val + draws.length) ∧
  (∀ (pos : Index) (used : Mask) (s t : State), s.Inv → s.resetIn = false → s.busy = .genRefl pos used →
    step s = .next t →
    ∃ draws, s.entropyIn = draws ++ t.entropyIn ∧ (t.busy = .idle → 26 ≤ 2 * draws.length + markCount used) ∧
      ∀ pos' used', t.busy = .genRefl pos' used' → markCount used' ≤ markCount used + 2 * draws.length) ∧
  (∀ (r r' : Nat) (pos : Index) (used : Mask) (s s' t t' : State) (σ σ' : Rotor), s.Inv → s'.Inv →
    s.resetIn = false → s'.resetIn = false → s.busy = .genRotor r pos used → s'.busy = .genRotor r' pos used →
    s.rotors[r]? = some σ → s'.rotors[r']? = some σ' → (∀ i, i < pos → σ.fwd.read i = σ'.fwd.read i) →
    s.entropyIn = s'.entropyIn → step s = .next t → step s' = .next t' → t.busy = .idle →
    t'.busy = .idle ∧ t'.entropyIn = t.entropyIn ∧ ∃ ρ ρ', t.rotors[r]? = some ρ ∧ t'.rotors[r']? = some ρ' ∧
      ∀ i, ρ.fwd.read i = ρ'.fwd.read i ∧ ρ.inv.read i = ρ'.inv.read i) ∧
  (∀ (pos : Index) (used : Mask) (s s' t t' : State), s.Inv → s'.Inv → s.resetIn = false → s'.resetIn = false →
    s.busy = .genRefl pos used → s'.busy = .genRefl pos used →
    (∀ i, used.has i = true → s.refl.read i = s'.refl.read i) →
    s.entropyIn = s'.entropyIn → step s = .next t → step s' = .next t' → t.busy = .idle →
    t'.busy = .idle ∧ t'.entropyIn = t.entropyIn ∧ ∀ i, t.refl.read i = t'.refl.read i)

/-- R110, "Draws are consumed in the order asked, one at a time": for a generate command in progress the step on
answers `d :: ds` is the step on `d` alone and then, if the command has not ended, the step on `ds`, else `ds`
stays on the port. And a generate command with answers at hand is its beginning and then the step on them. So it
makes no difference how the answers are spread over steps (that they may be is the model's, log entry 8). -/
def Obligations.DrawsOneAtATime : Prop :=
  (∀ (s t : State) (d : Index) (ds : List Index), s.resetIn = false → s.busy ≠ .idle → s.entropyIn = d :: ds →
    step (s.withEntropyIn [d]) = .next t →
    (t.busy ≠ .idle → step s = step (t.withEntropyIn ds)) ∧
    (t.busy = .idle → step s = .next (t.withEntropyIn ds))) ∧
  (∀ (r : Nat) (s t : State), s.resetIn = false → r < s.rotors.length →
    exec (.genrot r) (s.withEntropyIn []) = .next t →
    t.busy ≠ .idle ∧ exec (.genrot r) s = step (t.withEntropyIn s.entropyIn)) ∧
  (∀ s t : State, s.resetIn = false → exec .genref (s.withEntropyIn []) = .next t →
    t.busy ≠ .idle ∧ exec .genref s = step (t.withEntropyIn s.entropyIn))

/-- R116: a generate command need not end (the busy value is the model's, log entry 9; that bytes on the command
port stay there, log entry 19). Draws that probe to the position itself change nothing, however many; and at
position 25 of `GENROT` with 25 the one unused value every draw is such a draw. -/
def Obligations.GenerationCanHang : Prop :=
  (∀ (s : State) (pos : Index) (used : Mask), s.resetIn = false →
    ((∃ r, s.busy = .genRotor r pos used) ∨ s.busy = .genRefl pos used) →
    (∀ d ∈ s.entropyIn, probe d used = some pos) → step s = .next (s.withEntropyIn [])) ∧
  (∀ (s : State) (r : Nat) (used : Mask), s.resetIn = false → s.busy = .genRotor r 25 used →
    (∀ v : Index, used.has v = decide (v ≠ 25)) → step s = .next (s.withEntropyIn []))

/-- R116, R8: a generate command that has not ended takes no further command (that bytes offered meanwhile stay
on the port is the model's choice, log entry 19) and emits no response; its target's flag is 0. -/
def Obligations.BusyEngineTakesNoCommand : Prop :=
  ∀ s t : State, s.resetIn = false → s.busy ≠ .idle → step s = .next t →
    t.cmdIn = s.cmdIn ∧ (t.busy ≠ .idle → t.respOut = s.respOut) ∧
    (s.Inv → t.busy ≠ .idle →
      (∀ r pos used, t.busy = .genRotor r pos used → ∀ ρ, t.rotors[r]? = some ρ → ρ.valid = false) ∧
      (∀ pos used, t.busy = .genRefl pos used → t.reflValid = false))

/-! ## Reset and the invariant -/

/-- R35: what reset leaves, for every `N` and every `PRESET` the spec admits. -/
def Obligations.ResetValues : Prop :=
  ∀ p : Params, paramsOk p →
    (State.resetFor p).rotors.length = p.nRotors ∧ (∀ ρ ∈ (State.resetFor p).rotors, ρ.shift = 0) ∧
    (State.resetFor p).busy = .idle ∧
    (p.preset = none →
      (∀ ρ ∈ (State.resetFor p).rotors, ρ.valid = false ∧ ∀ i, ρ.fwd.read i = none ∧ ρ.inv.read i = none) ∧
      (State.resetFor p).reflValid = false ∧ ∀ i, (State.resetFor p).refl.read i = none) ∧
    (∀ q : Preset, p.preset = some q →
      (∀ (r : Nat) (k : List Byte), q.rotorKeys[r]? = some k →
        ∃ t : State, exec (.ldrot r k) (State.resetFor { nRotors := p.nRotors, preset := none }) = .next t ∧
          t.rotors[r]? = (State.resetFor p).rotors[r]?) ∧
      (∃ t : State, exec (.ldref q.reflKey) (State.resetFor { nRotors := p.nRotors, preset := none }) = .next t ∧
        t.refl = (State.resetFor p).refl) ∧
      (∀ ρ ∈ (State.resetFor p).rotors, ρ.valid = true) ∧ (State.resetFor p).reflValid = true)

/-- R180, R181: reset takes effect in any state, also in the middle of a generate command or of a command's
bytes: the reset state of the same `N` and `PRESET`, with nothing on any port and no response. That a response
not yet taken is dropped too is the model's reading of "nothing pending on any port" (log entry 14). -/
def Obligations.ResetEndsEverything : Prop :=
  ∀ s : State, s.resetIn = true →
    step s = .next (State.resetFor { nRotors := s.rotors.length, preset := s.preset }) ∧
    ∀ p : Params, (State.resetFor p).cmdIn = [] ∧ (State.resetFor p).respOut = [] ∧
      (State.resetFor p).entropyIn = [] ∧ (State.resetFor p).resetIn = false

/-- R36 at reset, for every parameters the spec admits. -/
def Obligations.ResetMeetsTheInvariant : Prop := ∀ p : Params, paramsOk p → (State.resetFor p).Inv

/-- R36 at the model's own reset state (its `N` and `PRESET` are the model's choice, log entries 1 and 2). -/
def Obligations.ModelResetMeetsTheInvariant : Prop := State.reset.Inv

/-- R36, R25, R28: every step keeps the invariant. -/
def Obligations.StepKeepsTheInvariant : Prop := ∀ s t : State, s.Inv → step s = .next t → t.Inv

/-- R183, R184: no move of the host breaks the invariant, and none touches anything but a port. -/
def Obligations.HostMovesTouchOnlyPorts : Prop :=
  ∀ (s : State) (m : HostMove),
    (s.Inv → (s.hostMove m).Inv) ∧ (s.hostMove m).rotors = s.rotors ∧ (s.hostMove m).refl = s.refl ∧
    (s.hostMove m).reflValid = s.reflValid ∧ (s.hostMove m).busy = s.busy ∧
    (s.hostMove m).preset = s.preset

/-- R36, R104 (3), R54: from every state that keeps the invariant every command answers a next state: no cell
without a value is read. -/
def Obligations.EveryCommandIsAnswered : Prop :=
  ∀ (i : Instr) (s : State), s.Inv → ∃ t : State, exec i s = .next t

/-- R36, which the spec derives from R23, R25, R28 and R35: every reachable state keeps the invariant, and the
engine never stops in one (R185: it never halts). -/
def Obligations.ReachableStatesAreSafe : Prop :=
  ∀ (p : Params) (s : State), paramsOk p → Reachable p s → s.Inv ∧ s.rotors.length = p.nRotors ∧
    s.preset = p.preset ∧ ∃ t : State, step s = .next t

/-- R11, R12, R34: no step changes the number of rotors or `PRESET`. -/
def Obligations.ParametersAreFixed : Prop :=
  ∀ s t : State, step s = .next t → t.rotors.length = s.rotors.length ∧ t.preset = s.preset

/-! ## What each command changes and what it leaves -/

/-- R23: the complete list of writers of a shift register, with the value each writes. -/
def Obligations.WritersOfShift : Prop :=
  ∀ (s t : State) (k : Nat) (ρ ρ' : Rotor), step s = .next t → s.rotors[k]? = some ρ →
    t.rotors[k]? = some ρ' → ρ'.shift ≠ ρ.shift →
    (s.resetIn = true ∧ ρ'.shift = 0) ∨
    (∃ pos used, s.busy = .genRotor k pos used ∧ t.busy = .idle ∧ ρ'.shift = 0) ∨
    (Ready s ∧ ∃ i rest, decode s.cmdIn = .command i rest ∧
      ((∃ c, i = .enc c ∧ isLetter c = true ∧ s.tablesValid = true ∧ ρ'.shift = ρ.shift + 1 ∧
          ∀ j σ, j < k → s.rotors[j]? = some σ → σ.shift = 25) ∨
       (((∃ key, i = .ldrot k key) ∨ i = .genrot k ∨ i = .rstsh k) ∧ ρ'.shift = 0 ∧
          t.respOut = s.respOut ++ [[0x00]])))

/-- R34, R51, R29, R20: only `LDROT k` and `GENROT k` write a table or the flag of rotor `k`; only `LDREF` and
`GENREF` write the reflector's table or flag. Of steps: besides these commands only reset, and for its own
target a generate command that goes on, with whatever answers wait. -/
def Obligations.WritersOfTables : Prop :=
  (∀ (s t : State), step s = .next t →
    (∀ (k : Nat) (ρ ρ' : Rotor), s.rotors[k]? = some ρ → t.rotors[k]? = some ρ' →
      ρ'.fwd ≠ ρ.fwd ∨ ρ'.inv ≠ ρ.inv ∨ ρ'.valid ≠ ρ.valid →
      s.resetIn = true ∨ (s.resetIn = false ∧ ∃ pos used, s.busy = .genRotor k pos used) ∨
      (Ready s ∧ ∃ i rest, decode s.cmdIn = .command i rest ∧ ((∃ key, i = .ldrot k key) ∨ i = .genrot k))) ∧
    (t.refl ≠ s.refl ∨ t.reflValid ≠ s.reflValid →
      s.resetIn = true ∨ (s.resetIn = false ∧ ∃ pos used, s.busy = .genRefl pos used) ∨
      (Ready s ∧ ∃ i rest, decode s.cmdIn = .command i rest ∧ ((∃ key, i = .ldref key) ∨ i = .genref)))) ∧
  ∀ (i : Instr) (s t : State), exec i s = .next t →
    (∀ k ρ ρ', s.rotors[k]? = some ρ → t.rotors[k]? = some ρ' →
      ρ'.fwd ≠ ρ.fwd ∨ ρ'.inv ≠ ρ.inv ∨ ρ'.valid ≠ ρ.valid → (∃ key, i = .ldrot k key) ∨ i = .genrot k) ∧
    (t.refl ≠ s.refl ∨ t.reflValid ≠ s.reflValid → (∃ key, i = .ldref key) ∨ i = .genref)

/-- Frame of `ENC`: shift registers and the response port only; for a non-letter or a refused letter the
response port only (R34, R56, R140). -/
def Obligations.FrameOfEnc : Prop :=
  ∀ (c : Byte) (s t : State), exec (.enc c) s = .next t →
    t = (s.withRotors t.rotors).withRespOut t.respOut ∧
    (∀ (k : Nat) (ρ : Rotor), s.rotors[k]? = some ρ → ∃ v, t.rotors[k]? = some (Rotor.withShift ρ v)) ∧
    (isLetter c = false ∨ s.tablesValid = false → t.rotors = s.rotors)

/-- R56: the read commands change nothing but the response port and may be repeated with the same answer; `ENC`
of a letter that is answered advances shift 0 when there is a rotor; `ENC` of a non-letter changes nothing. -/
def Obligations.ReadsHaveNoSideEffect : Prop :=
  (∀ (i : Instr) (s t : State), ((∃ r, i = .rdrot r) ∨ i = .rdref ∨ ∃ r, i = .rdsh r) →
    exec i s = .next t → ∃ b, t = answered s b ∧ exec i t = .next (answered t b)) ∧
  (∀ (c : Byte) (s t : State) (ρ : Rotor), isLetter c = true → s.tablesValid = true →
    s.rotors[0]? = some ρ → exec (.enc c) s = .next t →
    ∃ ρ', t.rotors[0]? = some ρ' ∧ ρ'.shift = ρ.shift + 1) ∧
  (∀ (c : Byte) (s t : State), isLetter c = false → exec (.enc c) s = .next t →
    t = s.withRespOut t.respOut)

/-- Frame of the commands on one rotor, `LDROT r`, `RSTSH r`, `GENROT r`: every other rotor, the reflector and
its flag, the command port, the reset input and `PRESET` stay; only `GENROT` uses draws, from the front, and
only it can leave the engine busy; `RSTSH` leaves tables and flag (R23, R34, R51). That the command port stays
when `GENROT` leaves the engine busy is the model's choice (log entry 19); no rule cited speaks of the port. -/
def Obligations.FrameOfRotorCommands : Prop :=
  ∀ (r : Nat) (i : Instr) (s t : State),
    ((∃ k, i = .ldrot r k) ∨ i = .rstsh r ∨ i = .genrot r) → exec i s = .next t →
    t.refl = s.refl ∧ t.reflValid = s.reflValid ∧ t.cmdIn = s.cmdIn ∧ t.resetIn = s.resetIn ∧
    t.preset = s.preset ∧ t.rotors.length = s.rotors.length ∧
    (∀ j, j ≠ r → t.rotors[j]? = s.rotors[j]?) ∧
    (i ≠ .genrot r → t.entropyIn = s.entropyIn ∧ t.busy = s.busy) ∧
    (∃ draws, s.entropyIn = draws ++ t.entropyIn) ∧
    (i = .rstsh r → ∀ ρ ρ', s.rotors[r]? = some ρ → t.rotors[r]? = some ρ' →
      ρ'.fwd = ρ.fwd ∧ ρ'.inv = ρ.inv ∧ ρ'.valid = ρ.valid)

/-- Frame of the commands on the reflector, `LDREF` and `GENREF`: every rotor with its shift, tables and flag,
the command port, the reset input and `PRESET` stay; only `GENREF` uses draws, from the front (R51, R188). That
the command port stays when `GENREF` leaves the engine busy is the model's choice (log entry 19); no rule cited
speaks of the port. -/
def Obligations.FrameOfReflectorCommands : Prop :=
  ∀ (i : Instr) (s t : State), ((∃ k, i = .ldref k) ∨ i = .genref) → exec i s = .next t →
    t.rotors = s.rotors ∧ t.cmdIn = s.cmdIn ∧ t.resetIn = s.resetIn ∧ t.preset = s.preset ∧
    (i ≠ .genref → t.entropyIn = s.entropyIn ∧ t.busy = s.busy) ∧
    (∃ draws, s.entropyIn = draws ++ t.entropyIn)

/-- Frame of a generate command that goes on, with whatever answers wait: `GENROT r` leaves every other rotor
with its shift, tables and flag, and the reflector with its flag; `GENREF` leaves every rotor; both leave the
command port (log entry 19), the reset input and `PRESET`, and use draws from the front (R51, R34, R188). -/
def Obligations.FrameOfResumedGeneration : Prop :=
  ∀ s t : State, s.resetIn = false → s.busy ≠ .idle → step s = .next t →
    t.cmdIn = s.cmdIn ∧ t.resetIn = s.resetIn ∧ t.preset = s.preset ∧ t.rotors.length = s.rotors.length ∧
    (∃ draws, s.entropyIn = draws ++ t.entropyIn) ∧
    (∀ r pos used, s.busy = .genRotor r pos used →
      t.refl = s.refl ∧ t.reflValid = s.reflValid ∧ ∀ j, j ≠ r → t.rotors[j]? = s.rotors[j]?) ∧
    (∀ pos used, s.busy = .genRefl pos used → t.rotors = s.rotors)
end

