-- ==== Sys2Proof/Laws/Alphabet.lean ====
section
/-!
SUPPORT. The laws of the alphabet functions and of the sums modulo 26 (spec 40_alphabet R104, 43_cipher R145).
-/

namespace Sys2Proof.Machine

theorem addShift_eq (x sh : Index) : addShift x sh = x + sh := by
  ext; simp [addShift, Fin.val_add]

theorem subShift_eq (x sh : Index) : subShift x sh = x - sh := by
  ext; simp [subShift, Fin.sub_def, Fin.ofNat]; omega

theorem nextIndex_eq (v : Index) : nextIndex v = v + 1 := by
  ext; simp [nextIndex, Fin.val_add]

/-- The backward shift undoes the forward shift (43_cipher R144). -/
@[simp] theorem subShift_addShift (x sh : Index) : subShift (addShift x sh) sh = x := by
  simp [subShift_eq, addShift_eq]

@[simp] theorem addShift_subShift (x sh : Index) : addShift (subShift x sh) sh = x := by
  simp [subShift_eq, addShift_eq]

theorem isUpper_iff (c : Byte) : isUpper c = true ↔ 0x41 ≤ c.toNat ∧ c.toNat ≤ 0x5A := by
  simp [isUpper]

theorem isLower_iff (c : Byte) : isLower c = true ↔ 0x61 ≤ c.toNat ∧ c.toNat ≤ 0x7A := by
  simp [isLower]

theorem isLetter_iff (c : Byte) : isLetter c = true ↔ isUpper c = true ∨ isLower c = true := by
  simp [isLetter]

/-- The code of an index's letter. -/
theorem indexToLetter_toNat (i : Index) : (indexToLetter i.val).toNat = 0x41 + i.val := by
  have := i.isLt
  simp only [indexToLetter, if_pos (show i.val ≤ 25 by omega), BitVec.toNat_ofNat]
  omega

theorem indexToLetter_isUpper (i : Index) : isUpper (indexToLetter i.val) = true := by
  have := i.isLt
  rw [isUpper_iff, indexToLetter_toNat]; omega

theorem indexToLetter_isLetter (i : Index) : isLetter (indexToLetter i.val) = true :=
  (isLetter_iff _).mpr (Or.inl (indexToLetter_isUpper i))

theorem letterToIndex_upper_val {c : Byte} (h : isUpper c = true) :
    (letterToIndex c).val = c.toNat - 0x41 := by
  have := (isUpper_iff c).mp h
  simp [letterToIndex, h, Fin.ofNat]; omega

theorem letterToIndex_lower_val {c : Byte} (h : isLower c = true) :
    (letterToIndex c).val = c.toNat - 0x61 := by
  have := (isLower_iff c).mp h
  have hu : isUpper c = false := by
    rw [Bool.eq_false_iff]; intro hu; have := (isUpper_iff c).mp hu; omega
  simp [letterToIndex, h, hu, Fin.ofNat]; omega

/-- An index is recovered from its letter (40_alphabet R104). -/
@[simp] theorem letterToIndex_indexToLetter (i : Index) : letterToIndex (indexToLetter i.val) = i := by
  ext
  rw [letterToIndex_upper_val (indexToLetter_isUpper i), indexToLetter_toNat]; omega

/-- A letter's index gives the letter in upper case (40_alphabet R104). -/
theorem indexToLetter_letterToIndex {c : Byte} (h : isLetter c = true) :
    indexToLetter (letterToIndex c).val = upperCase c := by
  apply BitVec.eq_of_toNat_eq
  rw [indexToLetter_toNat]
  rcases (isLetter_iff c).mp h with h | h
  · have hu := (isUpper_iff c).mp h
    have hl : isLower c = false := by
      rw [Bool.eq_false_iff]; intro hl; have := (isLower_iff c).mp hl; omega
    rw [letterToIndex_upper_val h]; simp [upperCase, hl]; omega
  · have hl := (isLower_iff c).mp h
    rw [letterToIndex_lower_val h]; simp [upperCase, h]; omega

theorem upperCase_of_not_letter {c : Byte} (h : isLetter c = false) : upperCase c = c := by
  have : isLower c = false := by
    rw [Bool.eq_false_iff]; intro hl; simp [isLetter, hl] at h
  simp [upperCase, this]

/-- The upper-case form of a letter is a letter with the same index. -/
theorem letterToIndex_upperCase {c : Byte} (h : isLetter c = true) :
    letterToIndex (upperCase c) = letterToIndex c := by
  rw [← indexToLetter_letterToIndex h, letterToIndex_indexToLetter]

@[simp] theorem mem_allIndices (i : Index) : i ∈ allIndices := List.mem_finRange i

@[simp] theorem length_allIndices : allIndices.length = 26 := by simp [allIndices]

end Sys2Proof.Machine
end

