-- ==== Sys2Proof/Laws/Memory.lean ====
section
/-!
SUPPORT. The laws of a table's memory and of the used-value mask: read after write, canonical form kept, equal
reads of canonical tables are equal tables.
-/

namespace Sys2Proof.Machine

@[simp] theorem Memory.read_nil (a : Index) : Memory.read [] a = none := rfl

theorem Memory.read_cons (b w : Index) (m : Memory) (a : Index) :
    Memory.read ((b, w) :: m) a = if a = b then some w else Memory.read m a := rfl

/-- A cell reads as the last value written to it, and a write leaves every other cell alone. -/
theorem Memory.read_write (m : Memory) (a v c : Index) :
    (m.write a v).read c = if c = a then some v else m.read c := by
  induction m with
  | nil => rfl
  | cons p m ih =>
    obtain ⟨b, w⟩ := p
    unfold Memory.write
    split
    · simp [Memory.read_cons]
    · split
      · next h => subst h; simp only [Memory.read_cons]; split <;> simp_all
      · next h => simp only [Memory.read_cons, ih]; grind

@[simp] theorem Memory.read_write_same (m : Memory) (a v : Index) : (m.write a v).read a = some v := by
  simp [Memory.read_write]

theorem Memory.read_write_other (m : Memory) {a c : Index} (v : Index) (h : c ≠ a) :
    (m.write a v).read c = m.read c := by
  simp [Memory.read_write, h]

/-- The addresses of a written table are the old ones and the one written. -/
theorem Memory.mem_write {m : Memory} {a v : Index} {p : Index × Index} (h : p ∈ m.write a v) :
    p = (a, v) ∨ p ∈ m := by
  induction m with
  | nil => exact Or.inl (by simpa [Memory.write] using h)
  | cons q m ih =>
    unfold Memory.write at h
    split at h
    · simpa using h
    · split at h
      · rcases List.mem_cons.mp h with h | h <;> simp [h]
      · rcases List.mem_cons.mp h with h | h
        · simp [h]
        · rcases ih h with h | h <;> simp [h]

theorem Memory.wf_nil : Memory.wf [] := List.Pairwise.nil

/-- A write keeps the canonical form. -/
theorem Memory.wf_write {m : Memory} (hm : m.wf) (a v : Index) : (m.write a v).wf := by
  induction m with
  | nil => simp [Memory.write, Memory.wf]
  | cons p m ih =>
    obtain ⟨b, w⟩ := p
    have hb := (List.pairwise_cons.mp hm).1
    have hm' := (List.pairwise_cons.mp hm).2
    unfold Memory.write
    split
    · next h =>
      refine List.pairwise_cons.mpr ⟨fun q hq => ?_, hm⟩
      rcases List.mem_cons.mp hq with rfl | hq
      · exact h
      · exact lt_trans h (hb q hq)
    · split
      · next h => subst h; exact List.pairwise_cons.mpr ⟨hb, hm'⟩
      · next h1 h2 =>
        refine List.pairwise_cons.mpr ⟨fun q hq => ?_, ih hm'⟩
        rcases Memory.mem_write hq with rfl | hq
        · exact lt_of_le_of_ne (not_lt.mp h1) (Ne.symm h2)
        · exact hb q hq

/-- A canonical table holds nothing below its first address. -/
theorem Memory.read_eq_none_of_lt {m : Memory} {a : Index} (h : ∀ p ∈ m, a < p.1) : m.read a = none := by
  induction m with
  | nil => rfl
  | cons p m ih =>
    have hp : a < p.1 := h p (by simp)
    rw [show p = (p.1, p.2) from rfl, Memory.read_cons, if_neg (ne_of_lt hp)]
    exact ih fun q hq => h q (by simp [hq])

/-- Canonical tables that read alike are equal data. -/
theorem Memory.ext_read {m n : Memory} (hm : m.wf) (hn : n.wf) (h : ∀ a, m.read a = n.read a) : m = n := by
  induction m generalizing n with
  | nil =>
    cases n with
    | nil => rfl
    | cons q n => obtain ⟨b, w⟩ := q; simpa [Memory.read_cons] using h b
  | cons p m ih =>
    cases n with
    | nil => obtain ⟨b, w⟩ := p; simpa [Memory.read_cons] using h b
    | cons q n =>
      obtain ⟨b, w⟩ := p
      obtain ⟨c, x⟩ := q
      have hm1 := (List.pairwise_cons.mp hm).1
      have hn1 := (List.pairwise_cons.mp hn).1
      have hbc : b = c := by
        rcases lt_trichotomy b c with hlt | heq | hgt
        · have := h b
          rw [Memory.read_cons, if_pos rfl, Memory.read_cons, if_neg (ne_of_lt hlt),
            Memory.read_eq_none_of_lt fun p hp => lt_trans hlt (hn1 p hp)] at this
          simp at this
        · exact heq
        · have := h c
          rw [Memory.read_cons, if_neg (ne_of_lt hgt), Memory.read_cons, if_pos rfl,
            Memory.read_eq_none_of_lt fun p hp => lt_trans hgt (hm1 p hp)] at this
          simp at this
      subst hbc
      have hw : w = x := by simpa [Memory.read_cons] using h b
      subst hw
      rw [ih (List.pairwise_cons.mp hm).2 (List.pairwise_cons.mp hn).2 fun a => ?_]
      by_cases hab : a = b
      · subst hab
        rw [Memory.read_eq_none_of_lt hm1, Memory.read_eq_none_of_lt hn1]
      · simpa [Memory.read_cons, hab] using h a

@[simp] theorem Mask.has_empty (v : Index) : Mask.empty.has v = false := by
  simp [Mask.has, Mask.empty]

/-- A bit is set after a mark if it is the one marked or was set before. -/
@[simp] theorem Mask.has_mark (m : Mask) (v w : Index) : (m.mark v).has w = (decide (w = v) || m.has w) := by
  have hv := v.isLt
  rw [Mask.has, Mask.mark, BitVec.getLsbD_or, BitVec.getLsbD_twoPow, Bool.or_comm, Mask.has]
  simp only [hv, decide_true, Bool.true_and, Fin.ext_iff, eq_comm]

end Sys2Proof.Machine
end

