-- ==== Sys2Proof/Laws/State.lean ====
section
/-!
SUPPORT. One lemma per field of State (and of Rotor) per update: no later proof unfolds a record update.
-/

namespace Sys2Proof.Machine

@[simp] theorem State.withRotors_rotors (s : State) (v : List Rotor) : (s.withRotors v).rotors = v := rfl
@[simp] theorem State.withRotors_refl (s : State) (v : List Rotor) : (s.withRotors v).refl = s.refl := rfl
@[simp] theorem State.withRotors_reflValid (s : State) (v : List Rotor) : (s.withRotors v).reflValid = s.reflValid := rfl
@[simp] theorem State.withRotors_busy (s : State) (v : List Rotor) : (s.withRotors v).busy = s.busy := rfl
@[simp] theorem State.withRotors_preset (s : State) (v : List Rotor) : (s.withRotors v).preset = s.preset := rfl
@[simp] theorem State.withRotors_cmdIn (s : State) (v : List Rotor) : (s.withRotors v).cmdIn = s.cmdIn := rfl
@[simp] theorem State.withRotors_respOut (s : State) (v : List Rotor) : (s.withRotors v).respOut = s.respOut := rfl
@[simp] theorem State.withRotors_entropyIn (s : State) (v : List Rotor) : (s.withRotors v).entropyIn = s.entropyIn := rfl
@[simp] theorem State.withRotors_resetIn (s : State) (v : List Rotor) : (s.withRotors v).resetIn = s.resetIn := rfl

@[simp] theorem State.withRefl_rotors (s : State) (v : Memory) : (s.withRefl v).rotors = s.rotors := rfl
@[simp] theorem State.withRefl_refl (s : State) (v : Memory) : (s.withRefl v).refl = v := rfl
@[simp] theorem State.withRefl_reflValid (s : State) (v : Memory) : (s.withRefl v).reflValid = s.reflValid := rfl
@[simp] theorem State.withRefl_busy (s : State) (v : Memory) : (s.withRefl v).busy = s.busy := rfl
@[simp] theorem State.withRefl_preset (s : State) (v : Memory) : (s.withRefl v).preset = s.preset := rfl
@[simp] theorem State.withRefl_cmdIn (s : State) (v : Memory) : (s.withRefl v).cmdIn = s.cmdIn := rfl
@[simp] theorem State.withRefl_respOut (s : State) (v : Memory) : (s.withRefl v).respOut = s.respOut := rfl
@[simp] theorem State.withRefl_entropyIn (s : State) (v : Memory) : (s.withRefl v).entropyIn = s.entropyIn := rfl
@[simp] theorem State.withRefl_resetIn (s : State) (v : Memory) : (s.withRefl v).resetIn = s.resetIn := rfl

@[simp] theorem State.withReflValid_rotors (s : State) (v : Bool) : (s.withReflValid v).rotors = s.rotors := rfl
@[simp] theorem State.withReflValid_refl (s : State) (v : Bool) : (s.withReflValid v).refl = s.refl := rfl
@[simp] theorem State.withReflValid_reflValid (s : State) (v : Bool) : (s.withReflValid v).reflValid = v := rfl
@[simp] theorem State.withReflValid_busy (s : State) (v : Bool) : (s.withReflValid v).busy = s.busy := rfl
@[simp] theorem State.withReflValid_preset (s : State) (v : Bool) : (s.withReflValid v).preset = s.preset := rfl
@[simp] theorem State.withReflValid_cmdIn (s : State) (v : Bool) : (s.withReflValid v).cmdIn = s.cmdIn := rfl
@[simp] theorem State.withReflValid_respOut (s : State) (v : Bool) : (s.withReflValid v).respOut = s.respOut := rfl
@[simp] theorem State.withReflValid_entropyIn (s : State) (v : Bool) : (s.withReflValid v).entropyIn = s.entropyIn := rfl
@[simp] theorem State.withReflValid_resetIn (s : State) (v : Bool) : (s.withReflValid v).resetIn = s.resetIn := rfl

@[simp] theorem State.withBusy_rotors (s : State) (v : Busy) : (s.withBusy v).rotors = s.rotors := rfl
@[simp] theorem State.withBusy_refl (s : State) (v : Busy) : (s.withBusy v).refl = s.refl := rfl
@[simp] theorem State.withBusy_reflValid (s : State) (v : Busy) : (s.withBusy v).reflValid = s.reflValid := rfl
@[simp] theorem State.withBusy_busy (s : State) (v : Busy) : (s.withBusy v).busy = v := rfl
@[simp] theorem State.withBusy_preset (s : State) (v : Busy) : (s.withBusy v).preset = s.preset := rfl
@[simp] theorem State.withBusy_cmdIn (s : State) (v : Busy) : (s.withBusy v).cmdIn = s.cmdIn := rfl
@[simp] theorem State.withBusy_respOut (s : State) (v : Busy) : (s.withBusy v).respOut = s.respOut := rfl
@[simp] theorem State.withBusy_entropyIn (s : State) (v : Busy) : (s.withBusy v).entropyIn = s.entropyIn := rfl
@[simp] theorem State.withBusy_resetIn (s : State) (v : Busy) : (s.withBusy v).resetIn = s.resetIn := rfl

@[simp] theorem State.withCmdIn_rotors (s : State) (v : List Byte) : (s.withCmdIn v).rotors = s.rotors := rfl
@[simp] theorem State.withCmdIn_refl (s : State) (v : List Byte) : (s.withCmdIn v).refl = s.refl := rfl
@[simp] theorem State.withCmdIn_reflValid (s : State) (v : List Byte) : (s.withCmdIn v).reflValid = s.reflValid := rfl
@[simp] theorem State.withCmdIn_busy (s : State) (v : List Byte) : (s.withCmdIn v).busy = s.busy := rfl
@[simp] theorem State.withCmdIn_preset (s : State) (v : List Byte) : (s.withCmdIn v).preset = s.preset := rfl
@[simp] theorem State.withCmdIn_cmdIn (s : State) (v : List Byte) : (s.withCmdIn v).cmdIn = v := rfl
@[simp] theorem State.withCmdIn_respOut (s : State) (v : List Byte) : (s.withCmdIn v).respOut = s.respOut := rfl
@[simp] theorem State.withCmdIn_entropyIn (s : State) (v : List Byte) : (s.withCmdIn v).entropyIn = s.entropyIn := rfl
@[simp] theorem State.withCmdIn_resetIn (s : State) (v : List Byte) : (s.withCmdIn v).resetIn = s.resetIn := rfl

@[simp] theorem State.withRespOut_rotors (s : State) (v : List (List Byte)) : (s.withRespOut v).rotors = s.rotors := rfl
@[simp] theorem State.withRespOut_refl (s : State) (v : List (List Byte)) : (s.withRespOut v).refl = s.refl := rfl
@[simp] theorem State.withRespOut_reflValid (s : State) (v : List (List Byte)) : (s.withRespOut v).reflValid = s.reflValid := rfl
@[simp] theorem State.withRespOut_busy (s : State) (v : List (List Byte)) : (s.withRespOut v).busy = s.busy := rfl
@[simp] theorem State.withRespOut_preset (s : State) (v : List (List Byte)) : (s.withRespOut v).preset = s.preset := rfl
@[simp] theorem State.withRespOut_cmdIn (s : State) (v : List (List Byte)) : (s.withRespOut v).cmdIn = s.cmdIn := rfl
@[simp] theorem State.withRespOut_respOut (s : State) (v : List (List Byte)) : (s.withRespOut v).respOut = v := rfl
@[simp] theorem State.withRespOut_entropyIn (s : State) (v : List (List Byte)) : (s.withRespOut v).entropyIn = s.entropyIn := rfl
@[simp] theorem State.withRespOut_resetIn (s : State) (v : List (List Byte)) : (s.withRespOut v).resetIn = s.resetIn := rfl

@[simp] theorem State.withEntropyIn_rotors (s : State) (v : List Index) : (s.withEntropyIn v).rotors = s.rotors := rfl
@[simp] theorem State.withEntropyIn_refl (s : State) (v : List Index) : (s.withEntropyIn v).refl = s.refl := rfl
@[simp] theorem State.withEntropyIn_reflValid (s : State) (v : List Index) : (s.withEntropyIn v).reflValid = s.reflValid := rfl
@[simp] theorem State.withEntropyIn_busy (s : State) (v : List Index) : (s.withEntropyIn v).busy = s.busy := rfl
@[simp] theorem State.withEntropyIn_preset (s : State) (v : List Index) : (s.withEntropyIn v).preset = s.preset := rfl
@[simp] theorem State.withEntropyIn_cmdIn (s : State) (v : List Index) : (s.withEntropyIn v).cmdIn = s.cmdIn := rfl
@[simp] theorem State.withEntropyIn_respOut (s : State) (v : List Index) : (s.withEntropyIn v).respOut = s.respOut := rfl
@[simp] theorem State.withEntropyIn_entropyIn (s : State) (v : List Index) : (s.withEntropyIn v).entropyIn = v := rfl
@[simp] theorem State.withEntropyIn_resetIn (s : State) (v : List Index) : (s.withEntropyIn v).resetIn = s.resetIn := rfl

@[simp] theorem State.withResetIn_rotors (s : State) (v : Bool) : (s.withResetIn v).rotors = s.rotors := rfl
@[simp] theorem State.withResetIn_refl (s : State) (v : Bool) : (s.withResetIn v).refl = s.refl := rfl
@[simp] theorem State.withResetIn_reflValid (s : State) (v : Bool) : (s.withResetIn v).reflValid = s.reflValid := rfl
@[simp] theorem State.withResetIn_busy (s : State) (v : Bool) : (s.withResetIn v).busy = s.busy := rfl
@[simp] theorem State.withResetIn_preset (s : State) (v : Bool) : (s.withResetIn v).preset = s.preset := rfl
@[simp] theorem State.withResetIn_cmdIn (s : State) (v : Bool) : (s.withResetIn v).cmdIn = s.cmdIn := rfl
@[simp] theorem State.withResetIn_respOut (s : State) (v : Bool) : (s.withResetIn v).respOut = s.respOut := rfl
@[simp] theorem State.withResetIn_entropyIn (s : State) (v : Bool) : (s.withResetIn v).entropyIn = s.entropyIn := rfl
@[simp] theorem State.withResetIn_resetIn (s : State) (v : Bool) : (s.withResetIn v).resetIn = v := rfl

@[simp] theorem State.setRotor_rotors (s : State) (r : Nat) (ρ : Rotor) : (s.setRotor r ρ).rotors = s.rotors.set r ρ := rfl
@[simp] theorem State.setRotor_refl (s : State) (r : Nat) (ρ : Rotor) : (s.setRotor r ρ).refl = s.refl := rfl
@[simp] theorem State.setRotor_reflValid (s : State) (r : Nat) (ρ : Rotor) : (s.setRotor r ρ).reflValid = s.reflValid := rfl
@[simp] theorem State.setRotor_busy (s : State) (r : Nat) (ρ : Rotor) : (s.setRotor r ρ).busy = s.busy := rfl
@[simp] theorem State.setRotor_preset (s : State) (r : Nat) (ρ : Rotor) : (s.setRotor r ρ).preset = s.preset := rfl
@[simp] theorem State.setRotor_cmdIn (s : State) (r : Nat) (ρ : Rotor) : (s.setRotor r ρ).cmdIn = s.cmdIn := rfl
@[simp] theorem State.setRotor_respOut (s : State) (r : Nat) (ρ : Rotor) : (s.setRotor r ρ).respOut = s.respOut := rfl
@[simp] theorem State.setRotor_entropyIn (s : State) (r : Nat) (ρ : Rotor) : (s.setRotor r ρ).entropyIn = s.entropyIn := rfl
@[simp] theorem State.setRotor_resetIn (s : State) (r : Nat) (ρ : Rotor) : (s.setRotor r ρ).resetIn = s.resetIn := rfl

@[simp] theorem State.emit_rotors (s : State) (b : List Byte) : (s.emit b).rotors = s.rotors := rfl
@[simp] theorem State.emit_refl (s : State) (b : List Byte) : (s.emit b).refl = s.refl := rfl
@[simp] theorem State.emit_reflValid (s : State) (b : List Byte) : (s.emit b).reflValid = s.reflValid := rfl
@[simp] theorem State.emit_busy (s : State) (b : List Byte) : (s.emit b).busy = s.busy := rfl
@[simp] theorem State.emit_preset (s : State) (b : List Byte) : (s.emit b).preset = s.preset := rfl
@[simp] theorem State.emit_cmdIn (s : State) (b : List Byte) : (s.emit b).cmdIn = s.cmdIn := rfl
@[simp] theorem State.emit_respOut (s : State) (b : List Byte) : (s.emit b).respOut = s.respOut ++ [b] := rfl
@[simp] theorem State.emit_entropyIn (s : State) (b : List Byte) : (s.emit b).entropyIn = s.entropyIn := rfl
@[simp] theorem State.emit_resetIn (s : State) (b : List Byte) : (s.emit b).resetIn = s.resetIn := rfl

@[simp] theorem State.raise_rotors (s : State) (st : Status) : (s.raise st).rotors = s.rotors := rfl
@[simp] theorem State.raise_refl (s : State) (st : Status) : (s.raise st).refl = s.refl := rfl
@[simp] theorem State.raise_reflValid (s : State) (st : Status) : (s.raise st).reflValid = s.reflValid := rfl
@[simp] theorem State.raise_busy (s : State) (st : Status) : (s.raise st).busy = s.busy := rfl
@[simp] theorem State.raise_preset (s : State) (st : Status) : (s.raise st).preset = s.preset := rfl
@[simp] theorem State.raise_cmdIn (s : State) (st : Status) : (s.raise st).cmdIn = s.cmdIn := rfl
@[simp] theorem State.raise_respOut (s : State) (st : Status) : (s.raise st).respOut = s.respOut ++ [errorResponse st] := rfl
@[simp] theorem State.raise_entropyIn (s : State) (st : Status) : (s.raise st).entropyIn = s.entropyIn := rfl
@[simp] theorem State.raise_resetIn (s : State) (st : Status) : (s.raise st).resetIn = s.resetIn := rfl

@[simp] theorem State.respond_rotors (s : State) (p : List Byte) : (s.respond p).rotors = s.rotors := rfl
@[simp] theorem State.respond_refl (s : State) (p : List Byte) : (s.respond p).refl = s.refl := rfl
@[simp] theorem State.respond_reflValid (s : State) (p : List Byte) : (s.respond p).reflValid = s.reflValid := rfl
@[simp] theorem State.respond_busy (s : State) (p : List Byte) : (s.respond p).busy = s.busy := rfl
@[simp] theorem State.respond_preset (s : State) (p : List Byte) : (s.respond p).preset = s.preset := rfl
@[simp] theorem State.respond_cmdIn (s : State) (p : List Byte) : (s.respond p).cmdIn = s.cmdIn := rfl
@[simp] theorem State.respond_respOut (s : State) (p : List Byte) : (s.respond p).respOut = s.respOut ++ [okResponse p] := rfl
@[simp] theorem State.respond_entropyIn (s : State) (p : List Byte) : (s.respond p).entropyIn = s.entropyIn := rfl
@[simp] theorem State.respond_resetIn (s : State) (p : List Byte) : (s.respond p).resetIn = s.resetIn := rfl

@[simp] theorem Rotor.withShift_shift (ρ : Rotor) (v : Index) : (ρ.withShift v).shift = v := rfl
@[simp] theorem Rotor.withShift_fwd (ρ : Rotor) (v : Index) : (ρ.withShift v).fwd = ρ.fwd := rfl
@[simp] theorem Rotor.withShift_inv (ρ : Rotor) (v : Index) : (ρ.withShift v).inv = ρ.inv := rfl
@[simp] theorem Rotor.withShift_valid (ρ : Rotor) (v : Index) : (ρ.withShift v).valid = ρ.valid := rfl

@[simp] theorem Rotor.withTables_shift (ρ : Rotor) (f g : Memory) : (ρ.withTables f g).shift = ρ.shift := rfl
@[simp] theorem Rotor.withTables_fwd (ρ : Rotor) (f g : Memory) : (ρ.withTables f g).fwd = f := rfl
@[simp] theorem Rotor.withTables_inv (ρ : Rotor) (f g : Memory) : (ρ.withTables f g).inv = g := rfl
@[simp] theorem Rotor.withTables_valid (ρ : Rotor) (f g : Memory) : (ρ.withTables f g).valid = ρ.valid := rfl

@[simp] theorem Rotor.withValid_shift (ρ : Rotor) (b : Bool) : (ρ.withValid b).shift = ρ.shift := rfl
@[simp] theorem Rotor.withValid_fwd (ρ : Rotor) (b : Bool) : (ρ.withValid b).fwd = ρ.fwd := rfl
@[simp] theorem Rotor.withValid_inv (ρ : Rotor) (b : Bool) : (ρ.withValid b).inv = ρ.inv := rfl
@[simp] theorem Rotor.withValid_valid (ρ : Rotor) (b : Bool) : (ρ.withValid b).valid = b := rfl

@[simp] theorem invalidateRotor_shift (ρ : Rotor) : (invalidateRotor ρ).shift = ρ.shift := rfl
@[simp] theorem invalidateRotor_fwd (ρ : Rotor) : (invalidateRotor ρ).fwd = ρ.fwd := rfl
@[simp] theorem invalidateRotor_inv (ρ : Rotor) : (invalidateRotor ρ).inv = ρ.inv := rfl
@[simp] theorem invalidateRotor_valid (ρ : Rotor) : (invalidateRotor ρ).valid = false := rfl

@[simp] theorem finishRotor_shift (ρ : Rotor) : (finishRotor ρ).shift = 0 := rfl
@[simp] theorem finishRotor_fwd (ρ : Rotor) : (finishRotor ρ).fwd = ρ.fwd := rfl
@[simp] theorem finishRotor_inv (ρ : Rotor) : (finishRotor ρ).inv = ρ.inv := rfl
@[simp] theorem finishRotor_valid (ρ : Rotor) : (finishRotor ρ).valid = true := rfl

@[simp] theorem State.rotor_eq (s : State) (r : Nat) : s.rotor r = s.rotors[r]? := rfl
@[simp] theorem State.nRotors_eq (s : State) : s.nRotors = s.rotors.length := rfl

/-- Two states with the same fields are the same state. -/
theorem State.ext_fields {s t : State} (h1 : s.rotors = t.rotors) (h2 : s.refl = t.refl)
    (h3 : s.reflValid = t.reflValid) (h4 : s.busy = t.busy) (h5 : s.preset = t.preset)
    (h6 : s.cmdIn = t.cmdIn) (h7 : s.respOut = t.respOut) (h8 : s.entropyIn = t.entropyIn)
    (h9 : s.resetIn = t.resetIn) : s = t := by
  cases s; cases t; simp_all

end Sys2Proof.Machine
end

