-- ==== Sys2Proof/Laws/Cipher.lean ====
section
/-!
SUPPORT. What the cascade and the two passes do (spec 43_cipher R141 to R146).
-/

namespace Sys2Proof.Machine

@[simp] theorem length_cascade (bank : List Rotor) : (cascade bank).length = bank.length := by
  induction bank with
  | nil => rfl
  | cons ρ bank ih => unfold cascade; dsimp only; split <;> simp [ih]

/-- The cascade changes nothing of a rotor but its shift (43_cipher R141). -/
theorem cascade_getElem? (bank : List Rotor) (k : Nat) :
    ∃ v : Index → Index, (cascade bank)[k]? = bank[k]?.map fun ρ => ρ.withShift (v ρ.shift) := by
  induction bank generalizing k with
  | nil => exact ⟨id, by simp [cascade]⟩
  | cons ρ bank ih =>
    unfold cascade; dsimp only
    cases k with
    | zero => exact ⟨nextIndex, by split <;> simp⟩
    | succ k =>
      split
      · simpa using ih k
      · exact ⟨id, by cases h : bank[k]? <;> simp [h, Rotor.withShift]⟩

/-- A property of tables and flag alone passes through the cascade. -/
theorem forall_cascade {P : Rotor → Prop} (hP : ∀ ρ v, P ρ → P (ρ.withShift v)) {bank : List Rotor}
    (h : ∀ ρ ∈ bank, P ρ) : ∀ ρ ∈ cascade bank, P ρ := by
  intro ρ hρ
  obtain ⟨k, hk⟩ := List.mem_iff_getElem?.mp hρ
  obtain ⟨v, hv⟩ := cascade_getElem? bank k
  rw [hk] at hv
  cases hb : bank[k]? with
  | none => rw [hb] at hv; cases hv
  | some σ =>
    rw [hb] at hv
    cases hv
    exact hP σ _ (h σ (List.mem_iff_getElem?.mpr ⟨k, hb⟩))

/-- An exact rotor's cells all hold values that invert each other. -/
theorem Rotor.Exact.fwd {ρ : Rotor} (h : ρ.Exact) (i : Index) :
    ∃ v, ρ.fwd.read i = some v ∧ ρ.inv.read v = some i := by
  have := (h i).1
  cases hv : ρ.fwd.read i with
  | none => rw [hv] at this; cases this
  | some v => rw [hv] at this; exact ⟨v, rfl, this⟩

theorem Rotor.Exact.inv {ρ : Rotor} (h : ρ.Exact) (i : Index) :
    ∃ v, ρ.inv.read i = some v ∧ ρ.fwd.read v = some i := by
  have := (h i).2
  cases hv : ρ.inv.read i with
  | none => rw [hv] at this; cases this
  | some v => rw [hv] at this; exact ⟨v, rfl, this⟩

/-- A reflector table that is a pairing holds in every cell a partner. -/
theorem Pairing.read {m : Memory} (h : Pairing m) (i : Index) :
    ∃ v, m.read i = some v ∧ m.read v = some i ∧ v ≠ i := by
  have := h i
  cases hv : m.read i with
  | none => rw [hv] at this; cases this.1
  | some v =>
    rw [hv] at this
    exact ⟨v, rfl, this.1, fun e => this.2 (by rw [e])⟩

/-- The backward operation of a rotor undoes its forward operation (43_cipher R144). -/
theorem backwardOne_forward {ρ : Rotor} {x y : Index} (h : ρ.Exact)
    (hy : ρ.fwd.read (addShift x ρ.shift) = some y) : backwardOne ρ y = some x := by
  obtain ⟨v, hv, hi⟩ := h.fwd (addShift x ρ.shift)
  rw [hy] at hv; cases hv
  simp [backwardOne, hi]

/-- The forward pass of exact rotors answers a value the backward pass takes back (43_cipher R146). -/
theorem forwardPass_spec {bank : List Rotor} (h : ∀ ρ ∈ bank, ρ.Exact) (x : Index) :
    ∃ y, forwardPass bank x = some y ∧ backwardPass bank y = some x := by
  induction bank generalizing x with
  | nil => exact ⟨x, rfl, rfl⟩
  | cons ρ bank ih =>
    obtain ⟨v, hv, -⟩ := (h ρ (by simp)).fwd (addShift x ρ.shift)
    obtain ⟨y, hy, hb⟩ := ih (fun σ hσ => h σ (by simp [hσ])) v
    exact ⟨y, by simp [forwardPass, hv, hy], by
      simp [backwardPass, hb, backwardOne_forward (h ρ (by simp)) hv]⟩

/-- The backward pass of exact rotors answers a value the forward pass takes back. -/
theorem backwardPass_spec {bank : List Rotor} (h : ∀ ρ ∈ bank, ρ.Exact) (x : Index) :
    ∃ y, backwardPass bank x = some y ∧ forwardPass bank y = some x := by
  induction bank generalizing x with
  | nil => exact ⟨x, rfl, rfl⟩
  | cons ρ bank ih =>
    obtain ⟨y, hy, hf⟩ := ih (fun σ hσ => h σ (by simp [hσ])) x
    obtain ⟨v, hv, hi⟩ := (h ρ (by simp)).inv y
    refine ⟨subShift v ρ.shift, by simp [backwardPass, hy, backwardOne, hv], ?_⟩
    simp [forwardPass, hi, hf]

/-- With exact rotors and a pairing reflector the substitution is a pairing of indices (43_cipher R146). -/
theorem substitute_spec {bank : List Rotor} {m : Memory} (h : ∀ ρ ∈ bank, ρ.Exact) (hm : Pairing m)
    (x : Index) : ∃ z, substitute bank m x = some z ∧ substitute bank m z = some x ∧ z ≠ x := by
  obtain ⟨y, hy, hyb⟩ := forwardPass_spec h x
  obtain ⟨w, hw, hwb, hne⟩ := hm.read y
  obtain ⟨z, hz, hzf⟩ := backwardPass_spec h w
  refine ⟨z, by simp [substitute, hy, hw, hz], by simp [substitute, hzf, hwb, hyb], ?_⟩
  rintro rfl
  rw [hy] at hzf; cases hzf
  exact hne rfl

/-- The flags all 1, as statements about each. -/
theorem tablesValid_iff (s : State) :
    s.tablesValid = true ↔ s.reflValid = true ∧ ∀ ρ ∈ s.rotors, ρ.valid = true := by
  simp [State.tablesValid]

/-- Everything `ENC` can do when it answers a next state (43_cipher R140). -/
theorem execEnc_cases {c : Byte} {s t : State} (h : execEnc c s = .next t) :
    (isLetter c = false ∧ t = s.respond [c]) ∨
    (isLetter c = true ∧ s.tablesValid = false ∧ t = s.raise .tableInvalid) ∨
    (isLetter c = true ∧ s.tablesValid = true ∧ ∃ x,
      substitute (cascade s.rotors) s.refl (letterToIndex c) = some x ∧
      t = (s.withRotors (cascade s.rotors)).respond [indexToLetter x.val]) := by
  unfold execEnc at h
  split at h
  · next hl =>
    split at h
    · next hv =>
      simp only [encipher, State.withRotors_rotors, State.withRotors_refl] at h
      split at h
      · next x hx => cases h; exact Or.inr (Or.inr ⟨hl, hv, x, hx, rfl⟩)
      · cases h
    · next hv => cases h; exact Or.inr (Or.inl ⟨hl, by simpa using hv, rfl⟩)
  · next hl => cases h; exact Or.inl ⟨by simpa using hl, rfl⟩

/-- `ENC` of a letter when the substitution has a result. -/
theorem execEnc_letter {c : Byte} {s : State} {x : Index} (hl : isLetter c = true)
    (hv : s.tablesValid = true) (hx : substitute (cascade s.rotors) s.refl (letterToIndex c) = some x) :
    execEnc c s = .next ((s.withRotors (cascade s.rotors)).respond [indexToLetter x.val]) := by
  simp [execEnc, hl, hv, encipher, hx]

end Sys2Proof.Machine
end

