-- ==== Sys2Proof/Laws/Codec.lean ====
section
/-!
SUPPORT. What the loops of the key codec can do, each said once (spec 42_keycodec R121 to R125).
-/

namespace Sys2Proof.Machine

/-- The positions before `p` in the order of `allIndices` are the ones below `p`. -/
theorem mem_before {l1 l2 : List Index} {p : Index} (h : allIndices = l1 ++ p :: l2) (i : Index) :
    i ∈ l1 ↔ i < p := by
  have hs : allIndices.Pairwise (· < ·) := List.pairwise_lt_finRange 26
  rw [h, List.pairwise_append] at hs
  obtain ⟨-, h2, h3⟩ := hs
  constructor
  · exact fun hi => h3 i hi p (by simp)
  · intro hi
    have hm : i ∈ l1 ++ p :: l2 := h ▸ mem_allIndices i
    rcases List.mem_append.mp hm with hm | hm
    · exact hm
    · rcases List.mem_cons.mp hm with rfl | hm
      · exact absurd hi (lt_irrefl _)
      · exact absurd (lt_trans hi ((List.pairwise_cons.mp h2).1 i hm)) (lt_irrefl _)

/-- The index of the key character at a position. -/
abbrev keyIdx (k : List Byte) (i : Index) : Index := letterToIndex (keyChar k i)

/-- The key characters at the positions of `P` are letters with pairwise different indices. -/
structure GoodOn (k : List Byte) (P : List Index) : Prop where
  letter : ∀ i ∈ P, isLetter (keyChar k i) = true
  inj : ∀ i ∈ P, ∀ j ∈ P, keyIdx k i = keyIdx k j → i = j

/-- The tables `f`, `g` are `f0`, `g0` with the cells of the positions of `P` written by the key. -/
structure WrittenOn (k : List Byte) (P : List Index) (f0 g0 f g : Memory) : Prop where
  fwd : ∀ i, f.read i = if i ∈ P then some (keyIdx k i) else f0.read i
  inv : ∀ i ∈ P, g.read (keyIdx k i) = some i
  rest : ∀ v, (∀ i ∈ P, keyIdx k i ≠ v) → g.read v = g0.read v

theorem GoodOn.nil (k : List Byte) : GoodOn k [] := ⟨by simp, by simp⟩

theorem WrittenOn.nil (k : List Byte) (f g : Memory) : WrittenOn k [] f g f g := ⟨by simp, by simp, by simp⟩

theorem GoodOn.snoc {k : List Byte} {P : List Index} {i : Index} (h : GoodOn k P)
    (hl : isLetter (keyChar k i) = true) (hd : ∀ j ∈ P, keyIdx k j ≠ keyIdx k i) : GoodOn k (P ++ [i]) where
  letter j hj := by
    rcases List.mem_append.mp hj with hj | hj
    · exact h.letter j hj
    · rw [List.mem_singleton.mp hj]; exact hl
  inj a ha b hb e := by
    rcases List.mem_append.mp ha with ha | ha <;> rcases List.mem_append.mp hb with hb | hb
    · exact h.inj a ha b hb e
    · rw [List.mem_singleton.mp hb] at e; exact absurd e (hd a ha)
    · rw [List.mem_singleton.mp ha] at e; exact absurd e.symm (hd b hb)
    · rw [List.mem_singleton.mp ha, List.mem_singleton.mp hb]

theorem WrittenOn.snoc {k : List Byte} {P : List Index} {f0 g0 f g : Memory} {i : Index}
    (h : WrittenOn k P f0 g0 f g) (hd : ∀ j ∈ P, keyIdx k j ≠ keyIdx k i) :
    WrittenOn k (P ++ [i]) f0 g0 (f.write i (keyIdx k i)) (g.write (keyIdx k i) i) where
  fwd j := by
    rw [Memory.read_write, h.fwd]
    by_cases hji : j = i <;> simp [hji]
  inv j hj := by
    rw [Memory.read_write]
    rcases List.mem_append.mp hj with hj | hj
    · rw [if_neg (hd j hj), h.inv j hj]
    · rw [List.mem_singleton.mp hj, if_pos rfl]
  rest v hv := by
    rw [Memory.read_write, if_neg fun e => hv i (by simp) e.symm]
    exact h.rest v fun j hj => hv j (by simp [hj])

/-- Everything the loop of `LDROT` can do: it writes all positions, or stops at the first that fails. -/
theorem loadRotorLoop_spec (k : List Byte) (f0 g0 : Memory) (l : List Index) :
    ∀ (P : List Index) (used : Mask) (f g : Memory), GoodOn k P → WrittenOn k P f0 g0 f g →
    (∀ v, used.has v = true ↔ ∃ i ∈ P, keyIdx k i = v) →
    ((loadRotorLoop k l used f g).status = .ok ∧ GoodOn k (P ++ l) ∧
      WrittenOn k (P ++ l) f0 g0 (loadRotorLoop k l used f g).fwd (loadRotorLoop k l used f g).inv) ∨
    ∃ l1 p l2, l = l1 ++ p :: l2 ∧ GoodOn k (P ++ l1) ∧
      WrittenOn k (P ++ l1) f0 g0 (loadRotorLoop k l used f g).fwd (loadRotorLoop k l used f g).inv ∧
      (((loadRotorLoop k l used f g).status = .invalidCharacter ∧ isLetter (keyChar k p) = false) ∨
       ((loadRotorLoop k l used f g).status = .duplicateMapping ∧ isLetter (keyChar k p) = true ∧
        ∃ i ∈ P ++ l1, keyIdx k i = keyIdx k p)) := by
  induction l with
  | nil => exact fun P used f g hg hw _ => Or.inl ⟨rfl, by simpa using hg, by simpa [loadRotorLoop] using hw⟩
  | cons i l ih =>
    intro P used f g hg hw hu
    by_cases hl : isLetter (keyChar k i) = true
    · by_cases hd : used.has (keyIdx k i) = true
      · refine Or.inr ⟨[], i, l, rfl, by simpa using hg, ?_, Or.inr ⟨?_, hl, ?_⟩⟩
        · simpa [loadRotorLoop, hl, hd] using hw
        · simp [loadRotorLoop, hl, hd]
        · simpa using (hu _).mp hd
      · have hd' : ∀ j ∈ P, keyIdx k j ≠ keyIdx k i := fun j hj e => hd ((hu _).mpr ⟨j, hj, e⟩)
        have hstep : loadRotorLoop k (i :: l) used f g = loadRotorLoop k l (used.mark (keyIdx k i))
            (f.write i (keyIdx k i)) (g.write (keyIdx k i) i) := by
          simp [loadRotorLoop, hl, hd]
        have hu' : ∀ v, (used.mark (keyIdx k i)).has v = true ↔ ∃ j ∈ P ++ [i], keyIdx k j = v := by
          intro v
          simp only [Mask.has_mark, Bool.or_eq_true, decide_eq_true_eq, hu, List.mem_append,
            List.mem_singleton]
          constructor
          · rintro (rfl | ⟨j, hj, rfl⟩)
            · exact ⟨i, Or.inr rfl, rfl⟩
            · exact ⟨j, Or.inl hj, rfl⟩
          · rintro ⟨j, hj | rfl, rfl⟩
            · exact Or.inr ⟨j, hj, rfl⟩
            · exact Or.inl rfl
        rw [hstep]
        rcases ih (P ++ [i]) _ _ _ (hg.snoc hl hd') (hw.snoc hd') hu' with h | ⟨l1, p, l2, e, h⟩
        · exact Or.inl (by simpa using h)
        · exact Or.inr ⟨i :: l1, p, l2, by simp [e], by simpa using h⟩
    · refine Or.inr ⟨[], i, l, rfl, by simpa using hg, ?_, Or.inl ⟨?_, by simpa using hl⟩⟩
      · simpa [loadRotorLoop, hl] using hw
      · simp [loadRotorLoop, hl]

/-- A rotor key with no failing position: 26 letters, pairwise different indices (42_keycodec R126). -/
structure RotorKeyGood (k : List Byte) : Prop where
  letter : ∀ i, isLetter (keyChar k i) = true
  inj : ∀ i j, keyIdx k i = keyIdx k j → i = j

/-- `p` is the first failing position of a rotor key, of status `st` (42_keycodec R121). -/
structure RotorKeyFails (k : List Byte) (p : Index) (st : Status) : Prop where
  letter : ∀ i, i < p → isLetter (keyChar k i) = true
  inj : ∀ i j, i < p → j < p → keyIdx k i = keyIdx k j → i = j
  why : (st = .invalidCharacter ∧ isLetter (keyChar k p) = false) ∨
    (st = .duplicateMapping ∧ isLetter (keyChar k p) = true ∧ ∃ i, i < p ∧ keyIdx k i = keyIdx k p)

/-- Everything a rotor load can do to its tables (42_keycodec R121, R125). -/
theorem loadRotorKey_spec (k : List Byte) (f g : Memory) :
    ((loadRotorKey k f g).status = .ok ∧ RotorKeyGood k ∧
      ∀ i, (loadRotorKey k f g).fwd.read i = some (keyIdx k i) ∧
        (loadRotorKey k f g).inv.read (keyIdx k i) = some i) ∨
    ∃ p, RotorKeyFails k p (loadRotorKey k f g).status ∧
      (∀ i, (loadRotorKey k f g).fwd.read i = if i < p then some (keyIdx k i) else f.read i) ∧
      (∀ i, i < p → (loadRotorKey k f g).inv.read (keyIdx k i) = some i) ∧
      (∀ v, (∀ i, i < p → keyIdx k i ≠ v) → (loadRotorKey k f g).inv.read v = g.read v) := by
  rcases loadRotorLoop_spec k f g allIndices [] Mask.empty f g (.nil k) (.nil k f g) (by simp) with
    ⟨hs, hg, hw⟩ | ⟨l1, p, l2, e, hg, hw, hs⟩
  · refine Or.inl ⟨hs, ⟨fun i => hg.letter i (by simp), fun i j => hg.inj i (by simp) j (by simp)⟩,
      fun i => ⟨?_, ?_⟩⟩
    · simpa [loadRotorKey] using hw.fwd i
    · exact hw.inv i (by simp)
  · have hm := mem_before e
    refine Or.inr ⟨p, ⟨fun i hi => hg.letter i (by simpa using (hm i).mpr hi),
      fun i j hi hj => hg.inj i (by simpa using (hm i).mpr hi) j (by simpa using (hm j).mpr hj), ?_⟩,
      fun i => ?_, fun i hi => hw.inv i (by simpa using (hm i).mpr hi), fun v hv => ?_⟩
    · rcases hs with hs | ⟨h1, h2, i, hi, he⟩
      · exact Or.inl hs
      · exact Or.inr ⟨h1, h2, i, (hm i).mp (by simpa using hi), he⟩
    · have := hw.fwd i
      simpa [loadRotorKey, hm] using this
    · exact hw.rest v fun i hi => hv i ((hm i).mp (by simpa using hi))

/-- A load that fails does not end `OK`. -/
theorem RotorKeyFails.not_good {k : List Byte} {p : Index} {st : Status} (h : RotorKeyFails k p st) :
    ¬ RotorKeyGood k := by
  intro hg
  rcases h.why with ⟨-, h⟩ | ⟨-, -, i, hi, e⟩
  · rw [hg.letter p] at h; cases h
  · exact absurd (hg.inj i p e) (ne_of_lt hi)

theorem RotorKeyFails.ne_ok {k : List Byte} {p : Index} {st : Status} (h : RotorKeyFails k p st) : st ≠ .ok := by
  rcases h.why with ⟨rfl, -⟩ | ⟨rfl, -⟩ <;> simp

/-- A rotor load ends `OK` exactly for a good key (42_keycodec R126). -/
theorem loadRotorKey_ok_iff (k : List Byte) (f g : Memory) :
    (loadRotorKey k f g).status = .ok ↔ RotorKeyGood k := by
  rcases loadRotorKey_spec k f g with ⟨hs, hg, -⟩ | ⟨p, hf, -⟩
  · simp [hs, hg]
  · simp [hf.ne_ok, hf.not_good]

/-- What a good key leaves in the tables. -/
theorem loadRotorKey_good {k : List Byte} (h : RotorKeyGood k) (f g : Memory) (i : Index) :
    (loadRotorKey k f g).fwd.read i = some (keyIdx k i) ∧
      (loadRotorKey k f g).inv.read (keyIdx k i) = some i := by
  rcases loadRotorKey_spec k f g with ⟨-, -, h'⟩ | ⟨p, hf, -⟩
  · exact h' i
  · exact absurd h hf.not_good

theorem loadRotorLoop_wf (k : List Byte) (l : List Index) :
    ∀ (used : Mask) (f g : Memory), f.wf → g.wf →
      (loadRotorLoop k l used f g).fwd.wf ∧ (loadRotorLoop k l used f g).inv.wf := by
  induction l with
  | nil => exact fun _ f g hf hg => ⟨hf, hg⟩
  | cons i l ih =>
    intro used f g hf hg
    unfold loadRotorLoop
    split
    · dsimp only
      split
      · exact ⟨hf, hg⟩
      · exact ih _ _ _ (Memory.wf_write hf _ _) (Memory.wf_write hg _ _)
    · exact ⟨hf, hg⟩

/-- A rotor load keeps the canonical form of both tables. -/
theorem loadRotorKey_wf (k : List Byte) {f g : Memory} (hf : f.wf) (hg : g.wf) :
    (loadRotorKey k f g).fwd.wf ∧ (loadRotorKey k f g).inv.wf := loadRotorLoop_wf k _ _ f g hf hg

/-- Everything pass 1 of `LDREF` can do. -/
theorem writeReflLoop_spec (k : List Byte) (m0 : Memory) (l : List Index) :
    ∀ (P : List Index) (m : Memory), (∀ i ∈ P, isLetter (keyChar k i) = true) →
    (∀ i, m.read i = if i ∈ P then some (keyIdx k i) else m0.read i) →
    ((writeReflLoop k l m).status = .ok ∧ (∀ i ∈ P ++ l, isLetter (keyChar k i) = true) ∧
      ∀ i, (writeReflLoop k l m).refl.read i = if i ∈ P ++ l then some (keyIdx k i) else m0.read i) ∨
    ∃ l1 p l2, l = l1 ++ p :: l2 ∧ (writeReflLoop k l m).status = .invalidCharacter ∧
      (∀ i ∈ P ++ l1, isLetter (keyChar k i) = true) ∧ isLetter (keyChar k p) = false ∧
      ∀ i, (writeReflLoop k l m).refl.read i = if i ∈ P ++ l1 then some (keyIdx k i) else m0.read i := by
  induction l with
  | nil => exact fun P m hl hm => Or.inl ⟨rfl, by simpa using hl, by simpa [writeReflLoop] using hm⟩
  | cons i l ih =>
    intro P m hl hm
    by_cases hi : isLetter (keyChar k i) = true
    · have hstep : writeReflLoop k (i :: l) m = writeReflLoop k l (m.write i (keyIdx k i)) := by
        simp [writeReflLoop, hi]
      have hl' : ∀ j ∈ P ++ [i], isLetter (keyChar k j) = true := by
        intro j hj
        rcases List.mem_append.mp hj with hj | hj
        · exact hl j hj
        · rw [List.mem_singleton.mp hj]; exact hi
      have hm' : ∀ j, (m.write i (keyIdx k i)).read j =
          if j ∈ P ++ [i] then some (keyIdx k j) else m0.read j := by
        intro j
        rw [Memory.read_write, hm]
        by_cases hji : j = i <;> simp [hji]
      rw [hstep]
      rcases ih (P ++ [i]) _ hl' hm' with h | ⟨l1, p, l2, e, h⟩
      · exact Or.inl (by simpa using h)
      · exact Or.inr ⟨i :: l1, p, l2, by simp [e], by simpa using h⟩
    · refine Or.inr ⟨[], i, l, rfl, ?_, by simpa using hl, by simpa using hi, ?_⟩
      · simp [writeReflLoop, hi]
      · simpa [writeReflLoop, hi] using hm

theorem writeReflLoop_wf (k : List Byte) (l : List Index) :
    ∀ m : Memory, m.wf → (writeReflLoop k l m).refl.wf := by
  induction l with
  | nil => exact fun m hm => hm
  | cons i l ih =>
    intro m hm
    unfold writeReflLoop
    split
    · exact ih _ (Memory.wf_write hm _ _)
    · exact hm

/-- A reflector key `LDREF` accepts (42_keycodec R126). -/
structure ReflKeyGood (k : List Byte) : Prop where
  letter : ∀ i, isLetter (keyChar k i) = true
  pair : ∀ i, keyIdx k (keyIdx k i) = i ∧ keyIdx k i ≠ i

/-- Everything a reflector load can do to its table (42_keycodec R122, R125). -/
theorem loadReflKey_spec (k : List Byte) (m : Memory) :
    ((∀ i, isLetter (keyChar k i) = true) ∧ (∀ i, (loadReflKey k m).refl.read i = some (keyIdx k i)) ∧
      (((loadReflKey k m).status = .ok ∧ ReflKeyGood k) ∨
       ((loadReflKey k m).status = .notInvolution ∧ ¬ ReflKeyGood k))) ∨
    ∃ p, (loadReflKey k m).status = .invalidCharacter ∧ (∀ i, i < p → isLetter (keyChar k i) = true) ∧
      isLetter (keyChar k p) = false ∧
      ∀ i, (loadReflKey k m).refl.read i = if i < p then some (keyIdx k i) else m.read i := by
  rcases writeReflLoop_spec k m allIndices [] m (by simp) (by simp) with
    ⟨hs, hl, hr⟩ | ⟨l1, p, l2, e, hs, hl, hp, hr⟩
  · left
    have hl' : ∀ i, isLetter (keyChar k i) = true := fun i => hl i (by simp)
    have hr' : ∀ i, (writeReflLoop k allIndices m).refl.read i = some (keyIdx k i) := fun i => by
      simpa using hr i
    refine ⟨hl', by simpa [loadReflKey, hs] using hr', ?_⟩
    have hall : allIndices.all (pairsAt (writeReflLoop k allIndices m).refl) = true ↔ ReflKeyGood k := by
      simp only [List.all_eq_true, mem_allIndices, true_implies, pairsAt, hr', Option.bind_some,
        Bool.and_eq_true, decide_eq_true_eq, Option.some.injEq, ne_eq]
      exact ⟨fun h => ⟨hl', h⟩, fun h => h.pair⟩
    by_cases hg : ReflKeyGood k
    · exact Or.inl ⟨by simp [loadReflKey, hs, hall.mpr hg], hg⟩
    · refine Or.inr ⟨?_, hg⟩
      have := mt hall.mp hg
      simp [loadReflKey, hs, this]
  · right
    have hm := mem_before e
    refine ⟨p, by simp [loadReflKey, hs], fun i hi => hl i (by simpa using (hm i).mpr hi), hp, fun i => ?_⟩
    have := hr i
    simpa [loadReflKey, hs, hm] using this

/-- A reflector load ends `OK` exactly for a good key (42_keycodec R126). -/
theorem loadReflKey_ok_iff (k : List Byte) (m : Memory) : (loadReflKey k m).status = .ok ↔ ReflKeyGood k := by
  rcases loadReflKey_spec k m with ⟨-, -, ⟨hs, hg⟩ | ⟨hs, hg⟩⟩ | ⟨p, hs, -, hp, -⟩
  · simp [hs, hg]
  · simp [hs, hg]
  · simp only [hs, reduceCtorEq, false_iff]
    intro hg; rw [hg.letter p] at hp; cases hp

theorem loadReflKey_refl (k : List Byte) (m : Memory) :
    (loadReflKey k m).refl = (writeReflLoop k allIndices m).refl := by
  unfold loadReflKey; dsimp only; split <;> rfl

/-- A reflector load keeps the canonical form. -/
theorem loadReflKey_wf (k : List Byte) {m : Memory} (hm : m.wf) : (loadReflKey k m).refl.wf := by
  rw [loadReflKey_refl]; exact writeReflLoop_wf k _ m hm

theorem serializeFrom_eq {m : Memory} {f : Index → Index} (h : ∀ i, m.read i = some (f i)) (l : List Index) :
    serializeFrom m l = some (l.map fun i => indexToLetter (f i).val) := by
  induction l with
  | nil => rfl
  | cons i l ih => simp [serializeFrom, h, ih]

/-- A table whose every cell holds a value serializes to its letters (42_keycodec R123). -/
theorem serialize_eq {m : Memory} {f : Index → Index} (h : ∀ i, m.read i = some (f i)) :
    serialize m = some (allIndices.map fun i => indexToLetter (f i).val) := serializeFrom_eq h _

theorem read_of_serializeFrom {m : Memory} {l : List Index} {p : List Byte} (h : serializeFrom m l = some p) :
    ∀ i ∈ l, ∃ v, m.read i = some v := by
  induction l generalizing p with
  | nil => simp
  | cons i l ih =>
    unfold serializeFrom at h
    split at h
    · next v q hv hq =>
      intro j hj
      rcases List.mem_cons.mp hj with rfl | hj
      · exact ⟨v, hv⟩
      · exact ih hq j hj
    · cases h

/-- A table that serializes holds a value in every cell. -/
theorem read_of_serialize {m : Memory} {p : List Byte} (h : serialize m = some p) (i : Index) :
    ∃ v, m.read i = some v := read_of_serializeFrom h i (by simp)

end Sys2Proof.Machine
end

