-- ==== Sys2Proof/Laws/Decode.lean ====
section
/-!
SUPPORT. The laws of the header fields and of the decoder's parts (spec 30_encoding R70 to R75).
-/

namespace Sys2Proof

theorem opField_eq (h : Byte) : opField h = h.toNat / 16 := by
  have := h.isLt
  simp [opField, Nat.shiftRight_eq_div_pow]; omega

theorem rField_eq (h : Byte) : rField h = h.toNat % 16 := by
  simp [rField]

theorem rField_lt (h : Byte) : rField h < 16 := by rw [rField_eq]; omega

theorem opField_headerByte {op r : Nat} (ho : op < 16) (hr : r < 16) : opField (headerByte op r) = op := by
  rw [opField_eq, headerByte, BitVec.toNat_ofNat]; omega

theorem rField_headerByte {op r : Nat} (hr : r < 16) : rField (headerByte op r) = r := by
  rw [rField_eq, headerByte, BitVec.toNat_ofNat]; omega

/-- A header is the header byte of its two fields. -/
theorem headerByte_fields (h : Byte) : headerByte (opField h) (rField h) = h := by
  apply BitVec.eq_of_toNat_eq
  have := h.isLt
  rw [headerByte, BitVec.toNat_ofNat, opField_eq, rField_eq]; omega

theorem headerByte_of_op {h : Byte} {op : Nat} (ho : opField h = op) : headerByte op (rField h) = h := by
  rw [← ho, headerByte_fields]

theorem commandLength_pos (h : Byte) : 1 ≤ commandLength h := by
  unfold commandLength; split <;> omega

/-- The length by the value of `OP` (30_encoding R74). -/
theorem commandLength_eq (h : Byte) :
    commandLength h = if opField h = 1 then 2 else if opField h = 2 ∨ opField h = 3 then 27 else 1 := by
  unfold commandLength; split <;> simp_all

theorem onlyRZero_eq_some {h : Byte} {i j : Instr} : onlyRZero h i = some j ↔ rField h = 0 ∧ i = j := by
  unfold onlyRZero; split <;> simp_all

/-- The decoder takes a command exactly when its full length is there. -/
theorem decode_cons (h : Byte) (tl : List Byte) :
    decode (h :: tl) = if tl.length + 1 < commandLength h then .incomplete
      else decodeTaken h (tl.take (commandLength h - 1)) (tl.drop (commandLength h - 1)) := by
  have := commandLength_pos h
  simp only [decode]
  congr 1
  simp only [eq_iff_iff]; omega

theorem decodeTaken_eq_command {h : Byte} {p rest rest' : List Byte} {i : Instr} :
    decodeTaken h p rest = .command i rest' ↔ decodeHeader h p = some i ∧ rest = rest' := by
  unfold decodeTaken; split <;> simp_all

theorem decodeTaken_ne_incomplete (h : Byte) (p rest : List Byte) : decodeTaken h p rest ≠ .incomplete := by
  unfold decodeTaken; split <;> simp

/-- What a header and a payload of the right length decode to is well-formed, and encodes back to them. -/
theorem encode_of_decodeHeader {h : Byte} {p : List Byte} {i : Instr} (hp : p.length = commandLength h - 1)
    (hd : decodeHeader h p = some i) : i.wf = true ∧ encode i = h :: p := by
  have hr := rField_lt h
  have hl := commandLength_eq h
  unfold decodeHeader at hd
  split at hd
  all_goals first
    | (obtain ⟨hz, rfl⟩ := onlyRZero_eq_some.mp hd)
    | (cases hd)
  all_goals rename_i ho
  all_goals simp only [ho] at hl
  all_goals simp at hl
  all_goals rw [hl] at hp
  all_goals have hb := headerByte_of_op ho
  · match p, hp with
    | [c], _ => simp [Instr.wf, encode, ← hz, hb]
  · simp [Instr.wf, encode, hb, rotorFits, keyFits, hr]; omega
  · rw [hz] at hb; simp [Instr.wf, encode, hb, keyFits]; omega
  all_goals simp at hp; subst hp
  all_goals try rw [hz] at hb
  all_goals simp [Instr.wf, encode, hb, rotorFits, hr]

/-- The bytes of a well-formed command: a header and a payload of the length the header gives, which
decode to the command. -/
theorem encode_shape (i : Instr) (hw : i.wf = true) :
    ∃ h p, encode i = h :: p ∧ p.length + 1 = commandLength h ∧ decodeHeader h p = some i := by
  cases i <;> simp only [Instr.wf, Bool.and_eq_true, rotorFits, keyFits, decide_eq_true_eq, beq_iff_eq] at hw <;>
    refine ⟨_, _, rfl, ?_, ?_⟩ <;>
    simp_all [commandLength, decodeHeader, opField_headerByte, rField_headerByte, onlyRZero]

end Sys2Proof
end

