-- ==== Sys2Proof/Laws/Generate.lean ====
section
/-!
SUPPORT. What a probe, a draw and a run of draws can do, and what the generators keep true of their tables
(spec 41_generate R111 to R116).
-/

namespace Sys2Proof.Machine

theorem probeFrom_unused {used : Mask} {n : Nat} {c v : Index} (h : probeFrom used n c = some v) :
    used.has v = false := by
  induction n generalizing c with
  | zero => cases h
  | succ n ih =>
    unfold probeFrom at h
    split at h
    · exact ih h
    · next hc => cases h; simpa using hc

/-- A probe answers an unused value (41_generate R111). -/
theorem probe_unused {used : Mask} {d v : Index} (h : probe d used = some v) : used.has v = false :=
  probeFrom_unused h

/-- An unused draw is answered unchanged (41_generate R111). -/
theorem probe_of_unused {used : Mask} {d : Index} (h : used.has d = false) : probe d used = some d := by
  simp [probe, probeFrom, h]

/-- A probe that looks at `n` values, one of them unused, finds the first. -/
theorem probeFrom_spec {used : Mask} {n : Nat} {c : Index}
    (h : ∃ m, m < n ∧ used.has (c + Fin.ofNat 26 m) = false) :
    ∃ m, m < n ∧ probeFrom used n c = some (c + Fin.ofNat 26 m) ∧
      used.has (c + Fin.ofNat 26 m) = false ∧ ∀ j, j < m → used.has (c + Fin.ofNat 26 j) = true := by
  induction n generalizing c with
  | zero => obtain ⟨m, hm, -⟩ := h; omega
  | succ n ih =>
    have hshift : ∀ m, c + Fin.ofNat 26 (m + 1) = nextIndex c + Fin.ofNat 26 m := by
      intro m; rw [nextIndex_eq]; ext; simp [Fin.val_add]; omega
    by_cases hc : used.has c = true
    · obtain ⟨m, hm, hu⟩ := h
      cases m with
      | zero => simp [hc] at hu
      | succ m =>
        rw [hshift] at hu
        obtain ⟨m', hm', hp, hu', hall⟩ := ih ⟨m, by omega, hu⟩
        refine ⟨m' + 1, by omega, ?_, by rw [hshift]; exact hu', ?_⟩
        · rw [hshift]; simpa [probeFrom, hc] using hp
        · intro j hj
          cases j with
          | zero => simpa using hc
          | succ j => rw [hshift]; exact hall j (by omega)
    · exact ⟨0, by omega, by simp [probeFrom, hc], by simpa using hc, fun j hj => absurd hj (by omega)⟩

/-- What a draw offers is unused and is not the position itself (41_generate R112, R113). -/
theorem candidate_spec {pos : Index} {used : Mask} {d v : Index} (h : candidate pos used d = some v) :
    used.has v = false ∧ v ≠ pos := by
  unfold candidate at h
  split at h
  · cases h
  · next w hw =>
    split at h
    · cases h
    · next hne => cases h; exact ⟨probe_unused hw, hne⟩

/-- A draw that probes to the position itself offers nothing. -/
theorem candidate_rejected {pos : Index} {used : Mask} {d : Index} (h : probe d used = some pos) :
    candidate pos used d = none := by
  simp [candidate, h]

/-- An unused draw other than the position is offered unchanged. -/
theorem candidate_of_unused {pos : Index} {used : Mask} {d : Index} (h : used.has d = false) (hne : d ≠ pos) :
    candidate pos used d = some d := by
  simp [candidate, probe_of_unused h, hne]

/-- Everything one draw can do (41_generate R112, R113). -/
theorem genDraw_cases (d : Index) (s : State) :
    genDraw d s = s ∨
    (∃ r pos used ρ v, s.busy = .genRotor r pos used ∧ s.rotors[r]? = some ρ ∧
      candidate pos used d = some v ∧ genDraw d s = acceptRotor r ρ pos used v s) ∨
    (∃ pos used v, s.busy = .genRefl pos used ∧ candidate pos used d = some v ∧
      genDraw d s = acceptRefl pos used v s) := by
  unfold genDraw
  split
  · exact Or.inl rfl
  · next r pos used hb =>
    split
    · next ρ v hr hv => exact Or.inr (Or.inl ⟨r, pos, used, ρ, v, hb, hr, hv, rfl⟩)
    · exact Or.inl rfl
  · next pos used hb =>
    split
    · next v hv => exact Or.inr (Or.inr ⟨pos, used, v, hb, hv, rfl⟩)
    · exact Or.inl rfl

theorem runDraws_idle {s : State} (h : s.busy = .idle) (l : List Index) : runDraws l s = s.withEntropyIn l := by
  cases l with
  | nil => rfl
  | cons d l => simp [runDraws, h]

theorem runDraws_cons {s : State} (h : s.busy ≠ .idle) (d : Index) (l : List Index) :
    runDraws (d :: l) s = runDraws l (genDraw d s) := by
  cases hb : s.busy with
  | idle => exact absurd hb h
  | genRotor r pos used => simp [runDraws, hb]
  | genRefl pos used => simp [runDraws, hb]

/-- What every draw made while busy keeps, and the entropy port does not matter to, a run of draws keeps. -/
theorem runDraws_keeps {P : State → Prop} (hd : ∀ d s, s.busy ≠ .idle → P s → P (genDraw d s))
    (he : ∀ s l, P s → P (s.withEntropyIn l)) (l : List Index) (s : State) (h : P s) : P (runDraws l s) := by
  induction l generalizing s with
  | nil => exact he s [] h
  | cons d l ih =>
    by_cases hb : s.busy = .idle
    · rw [runDraws_idle hb]; exact he s _ h
    · rw [runDraws_cons hb]; exact ih _ (hd d s hb h)

/-- A run of draws uses answers from the front only. -/
theorem runDraws_suffix (l : List Index) (s : State) : ∃ used, l = used ++ (runDraws l s).entropyIn := by
  induction l generalizing s with
  | nil => exact ⟨[], rfl⟩
  | cons d l ih =>
    by_cases hb : s.busy = .idle
    · exact ⟨[], by rw [runDraws_idle hb]; rfl⟩
    · obtain ⟨u, hu⟩ := ih (genDraw d s)
      exact ⟨d :: u, by rw [runDraws_cons hb, List.cons_append, ← hu]⟩

/-- A draw does not look at the entropy port. -/
theorem genDraw_withEntropyIn (d : Index) (s : State) (x : List Index) :
    genDraw d (s.withEntropyIn x) = (genDraw d s).withEntropyIn x := by
  unfold genDraw
  simp only [State.withEntropyIn_busy, State.rotor_eq, State.withEntropyIn_rotors]
  split
  · rfl
  · split
    · unfold acceptRotor; dsimp only; split <;> rfl
    · rfl
  · split
    · unfold acceptRefl; dsimp only [State.withEntropyIn_refl]; split <;> rfl
    · rfl

/-- A run of draws uses the answers it is given, whatever stands on the entropy port. -/
theorem runDraws_withEntropyIn (l x : List Index) (s : State) : runDraws l (s.withEntropyIn x) = runDraws l s := by
  induction l generalizing s with
  | nil => rfl
  | cons d l ih =>
    by_cases hb : s.busy = .idle
    · rw [runDraws_idle hb, runDraws_idle (s := s.withEntropyIn x) hb]; rfl
    · rw [runDraws_cons hb, runDraws_cons (s := s.withEntropyIn x) hb, genDraw_withEntropyIn, ih]

/-- When the engine is still busy after a run of draws, all of them are used. -/
theorem runDraws_busy {l : List Index} {s : State} (h : (runDraws l s).busy ≠ .idle) :
    (runDraws l s).entropyIn = [] := by
  induction l generalizing s with
  | nil => rfl
  | cons d l ih =>
    by_cases hb : s.busy = .idle
    · rw [runDraws_idle hb] at h; exact absurd hb h
    · rw [runDraws_cons hb] at h ⊢; exact ih h

/-! ### The fields a draw does not touch -/

theorem acceptRotor_fields (r : Nat) (ρ : Rotor) (pos : Index) (used : Mask) (v : Index) (s : State) :
    (acceptRotor r ρ pos used v s).refl = s.refl ∧ (acceptRotor r ρ pos used v s).reflValid = s.reflValid ∧
    (acceptRotor r ρ pos used v s).preset = s.preset ∧ (acceptRotor r ρ pos used v s).cmdIn = s.cmdIn ∧
    (acceptRotor r ρ pos used v s).resetIn = s.resetIn ∧
    (acceptRotor r ρ pos used v s).entropyIn = s.entropyIn := by
  unfold acceptRotor; dsimp only; split <;> simp

theorem acceptRefl_fields (pos : Index) (used : Mask) (v : Index) (s : State) :
    (acceptRefl pos used v s).rotors = s.rotors ∧ (acceptRefl pos used v s).preset = s.preset ∧
    (acceptRefl pos used v s).cmdIn = s.cmdIn ∧ (acceptRefl pos used v s).resetIn = s.resetIn ∧
    (acceptRefl pos used v s).entropyIn = s.entropyIn := by
  unfold acceptRefl; dsimp only; split <;> simp

/-! ### What the rotor generator keeps -/

/-- The positions below `n` are filled with exactly the values of `used`, none with a fixed point. -/
structure RotorFilled (ρ : Rotor) (n : Nat) (used : Mask) : Prop where
  pos : ∀ i : Index, i.val < n →
    ∃ v, ρ.fwd.read i = some v ∧ ρ.inv.read v = some i ∧ v ≠ i ∧ used.has v = true
  val : ∀ v : Index, used.has v = true → ∃ i : Index, i.val < n ∧ ρ.fwd.read i = some v ∧ ρ.inv.read v = some i

theorem rotorProgress_iff (ρ : Rotor) (pos : Index) (used : Mask) :
    RotorProgress ρ pos used ↔ RotorFilled ρ pos.val used := by
  constructor
  · rintro ⟨h1, h2⟩
    refine ⟨fun i hi => ?_, fun v hv => ?_⟩
    · obtain ⟨ha, hb, hc⟩ := h1 i (Fin.lt_def.mpr hi)
      cases hv : ρ.fwd.read i with
      | none => rw [hv] at ha; cases ha
      | some v =>
        rw [hv] at ha hb hc
        exact ⟨v, rfl, ha, fun e => hb (by rw [e]), hc⟩
    · obtain ⟨ha, hb⟩ := h2 v hv
      cases hi : ρ.inv.read v with
      | none => rw [hi] at ha; cases ha
      | some i =>
        rw [hi] at ha hb
        exact ⟨i, Fin.lt_def.mp (by simpa using ha), hb, rfl⟩
  · rintro ⟨h1, h2⟩
    refine ⟨fun i hi => ?_, fun v hv => ?_⟩
    · obtain ⟨v, hf, hi', hne, hu⟩ := h1 i (Fin.lt_def.mp hi)
      simp [hf, hi', hne, hu]
    · obtain ⟨i, hi, hf, hi'⟩ := h2 v hv
      have hip : i < pos := hi
      simp [hf, hi', hip]

theorem RotorFilled.start (ρ : Rotor) : RotorFilled ρ 0 Mask.empty :=
  ⟨fun i hi => absurd hi (by omega), fun v hv => by simp at hv⟩

/-- Accepting an unused value other than the position fills one position more (41_generate R112). -/
theorem RotorFilled.accept {ρ : Rotor} {pos v : Index} {used : Mask} (h : RotorFilled ρ pos.val used)
    (hv : used.has v = false) (hne : v ≠ pos) :
    RotorFilled (ρ.withTables (ρ.fwd.write pos v) (ρ.inv.write v pos)) (pos.val + 1) (used.mark v) := by
  refine ⟨fun i hi => ?_, fun w hw => ?_⟩
  · by_cases hip : i = pos
    · subst hip; exact ⟨v, by simp, by simp, hne, by simp⟩
    · obtain ⟨w, hf, hi', hwi, hu⟩ := h.pos i (by have := Fin.val_ne_of_ne hip; omega)
      have hwv : w ≠ v := fun e => by rw [e, hv] at hu; cases hu
      exact ⟨w, by simp [Memory.read_write, hip, hf], by simp [Memory.read_write, hwv, hi'], hwi, by simp [hu]⟩
  · by_cases hwv : w = v
    · subst hwv; exact ⟨pos, by omega, by simp, by simp⟩
    · have hw' : used.has w = true := by simpa [hwv] using hw
      obtain ⟨i, hi, hf, hi'⟩ := h.val w hw'
      have hip : i ≠ pos := fun e => by rw [e] at hi; omega
      exact ⟨i, by omega, by simp [Memory.read_write, hip, hf], by simp [Memory.read_write, hwv, hi']⟩

/-- All 26 positions filled: the tables are exact and a derangement (41_generate R114). -/
theorem RotorFilled.full {ρ : Rotor} {used : Mask} (h : RotorFilled ρ 26 used) :
    ρ.Exact ∧ Derangement ρ.fwd := by
  choose f hf using fun i : Index => h.pos i i.isLt
  have hinj : Function.Injective f := by
    intro i j e
    have h1 := (hf i).2.1
    rw [e, (hf j).2.1] at h1
    exact (Option.some.inj h1).symm
  have hsurj := Finite.surjective_of_injective hinj
  refine ⟨fun i => ⟨by rw [(hf i).1]; exact (hf i).2.1, ?_⟩, fun i e => ?_⟩
  · obtain ⟨j, rfl⟩ := hsurj i
    rw [(hf j).2.1]; exact (hf j).1
  · rw [(hf i).1] at e; exact (hf i).2.2.1 (Option.some.inj e)

/-! ### What the reflector generator keeps -/

/-- The positions of `used` are paired among themselves, none with itself. -/
structure ReflFilled (m : Memory) (used : Mask) : Prop where
  pair : ∀ i : Index, used.has i = true →
    ∃ v, m.read i = some v ∧ m.read v = some i ∧ v ≠ i ∧ used.has v = true

theorem reflProgress_iff (m : Memory) (pos : Index) (used : Mask) :
    ReflProgress m pos used ↔
      ReflFilled m used ∧ (∀ i : Index, i < pos → used.has i = true) ∧ used.has pos = false := by
  constructor
  · rintro ⟨h1, h2, h3⟩
    refine ⟨⟨fun i hi => ?_⟩, h2, h3⟩
    obtain ⟨ha, hb, hc⟩ := h1 i hi
    cases hv : m.read i with
    | none => rw [hv] at ha; cases ha
    | some v =>
      rw [hv] at ha hb hc
      exact ⟨v, rfl, ha, fun e => hb (by rw [e]), hc⟩
  · rintro ⟨h1, h2, h3⟩
    refine ⟨fun i hi => ?_, h2, h3⟩
    obtain ⟨v, ha, hb, hc, hd⟩ := h1.pair i hi
    simp [ha, hb, hc, hd]

theorem ReflFilled.start (m : Memory) : ReflFilled m Mask.empty := ⟨fun i hi => by simp at hi⟩

/-- Accepting an unused partner pairs two positions more (41_generate R113). -/
theorem ReflFilled.accept {m : Memory} {pos v : Index} {used : Mask} (h : ReflFilled m used)
    (hp : used.has pos = false) (hv : used.has v = false) (hne : v ≠ pos) :
    ReflFilled ((m.write pos v).write v pos) ((used.mark pos).mark v) := by
  refine ⟨fun i hi => ?_⟩
  by_cases h1 : i = v
  · subst h1; exact ⟨pos, by simp, by simp [Memory.read_write, hne.symm], hne.symm, by simp⟩
  · by_cases h2 : i = pos
    · subst h2; exact ⟨v, by simp [Memory.read_write, h1], by simp, hne, by simp⟩
    · have hi' : used.has i = true := by simpa [h1, h2] using hi
      obtain ⟨w, ha, hb, hc, hd⟩ := h.pair i hi'
      have hwv : w ≠ v := fun e => by rw [e, hv] at hd; cases hd
      have hwp : w ≠ pos := fun e => by rw [e, hp] at hd; cases hd
      exact ⟨w, by simp [Memory.read_write, h1, h2, ha], by simp [Memory.read_write, hwv, hwp, hb], hc,
        by simp [hd]⟩

/-- All positions paired: the table is a pairing (41_generate R114). -/
theorem ReflFilled.full {m : Memory} {used : Mask} (h : ReflFilled m used) (ha : ∀ i, used.has i = true) :
    Pairing m := by
  intro i
  obtain ⟨v, h1, h2, h3, -⟩ := h.pair i (ha i)
  simp [h1, h2, h3]

/-- The next unassigned position: the first above `pos`, or none is left (41_generate R113). -/
theorem nextUnpaired_cases (pos : Index) (used : Mask) (h : ∀ i : Index, i ≤ pos → used.has i = true) :
    (∃ p, nextUnpaired pos used = some p ∧ used.has p = false ∧ ∀ i : Index, i < p → used.has i = true) ∨
    (nextUnpaired pos used = none ∧ ∀ i, used.has i = true) := by
  cases hn : nextUnpaired pos used with
  | none =>
    refine Or.inr ⟨rfl, fun i => ?_⟩
    rw [nextUnpaired, List.find?_eq_none] at hn
    have := hn i (by simp)
    by_cases hi : i ≤ pos
    · exact h i hi
    · simpa [not_le.mp hi] using this
  | some p =>
    rw [nextUnpaired, List.find?_eq_some_iff_append] at hn
    obtain ⟨hp, as, bs, e, has⟩ := hn
    simp only [Bool.and_eq_true, decide_eq_true_eq, Bool.not_eq_true'] at hp
    refine Or.inl ⟨p, rfl, hp.2, fun i hi => ?_⟩
    by_cases hip : i ≤ pos
    · exact h i hip
    · have hs : allIndices.Pairwise (· < ·) := List.pairwise_lt_finRange 26
      rw [e, List.pairwise_append] at hs
      have hm : i ∈ as ++ p :: bs := e ▸ mem_allIndices i
      have : i ∈ as := by
        rcases List.mem_append.mp hm with hm | hm
        · exact hm
        · rcases List.mem_cons.mp hm with rfl | hm
          · exact absurd hi (lt_irrefl _)
          · exact absurd (lt_trans hi ((List.pairwise_cons.mp hs.2.1).1 i hm)) (lt_irrefl _)
      simpa [not_le.mp hip] using has i this

end Sys2Proof.Machine
end

