-- ==== Sys2Proof/Laws/Ops.lean ====
section
/-!
SUPPORT. What the shared operations of the commands can do, each said once.
-/

namespace Sys2Proof.Machine

/-- The rotor operand: either out of range, and then `BadRotorSelect` and nothing else, or the command on
the selected rotor (30_encoding R76). -/
theorem withRotorOperand_cases {r : Nat} {s t : State} {act : Rotor → Host.Outcome State Fault Refusal}
    (h : withRotorOperand r s act = .next t) :
    (s.rotors[r]? = none ∧ t = s.raise .badRotorSelect) ∨ ∃ ρ, s.rotors[r]? = some ρ ∧ act ρ = .next t := by
  unfold withRotorOperand at h
  split at h
  · next hr => cases h; exact Or.inl ⟨hr, rfl⟩
  · next ρ hr => exact Or.inr ⟨ρ, hr, h⟩

theorem withRotorOperand_some {r : Nat} {s : State} {ρ : Rotor} (h : s.rotors[r]? = some ρ)
    (act : Rotor → Host.Outcome State Fault Refusal) : withRotorOperand r s act = act ρ := by
  simp [withRotorOperand, h]

theorem withRotorOperand_none {r : Nat} {s : State} (h : s.rotors[r]? = none)
    (act : Rotor → Host.Outcome State Fault Refusal) :
    withRotorOperand r s act = .next (s.raise .badRotorSelect) := by
  simp [withRotorOperand, h]

/-- Reading a table back: the letters when the flag is 1, else `TableInvalid`; no other effect
(42_keycodec R123, R124). -/
theorem readBack_cases {valid : Bool} {m : Memory} {s t : State} (h : readBack valid m s = .next t) :
    (valid = true ∧ ∃ p, serialize m = some p ∧ t = s.respond p) ∨
    (valid = false ∧ t = s.raise .tableInvalid) := by
  unfold readBack at h
  split at h
  · next p hp => cases h; exact Or.inl ⟨rfl, p, hp, rfl⟩
  · cases h
  · cases h; exact Or.inr ⟨rfl, rfl⟩

theorem readBack_valid {m : Memory} {p : List Byte} (h : serialize m = some p) (s : State) :
    readBack true m s = .next (s.respond p) := by simp only [readBack, h]

theorem readBack_invalid (m : Memory) (s : State) : readBack false m s = .next (s.raise .tableInvalid) := rfl

@[simp] theorem endLoad_ok (s : State) : endLoad .ok s = s.respond [] := rfl

theorem endLoad_error {st : Status} (h : st ≠ .ok) (s : State) : endLoad st s = s.raise st := by
  cases st <;> simp_all [endLoad]

/-- The end of a load adds one response of one byte, its status, and nothing else. -/
theorem endLoad_eq (st : Status) (s : State) : endLoad st s = s.emit [st.code] := by
  cases st <;> rfl

/-- The rotor after a load: new tables; flag 1 and shift 0 when it ended `OK`, else flag 0 and the shift as
it was (42_keycodec R121). -/
theorem loadedRotor_eq (ρ : Rotor) (l : RotorLoad) :
    loadedRotor ρ l = { shift := if l.status = .ok then 0 else ρ.shift, fwd := l.fwd, inv := l.inv,
                        valid := decide (l.status = .ok) } := by
  unfold loadedRotor; dsimp only; split <;> simp_all [invalidateRotor, finishRotor, Rotor.withTables,
    Rotor.withValid, Rotor.withShift]

theorem execLdrot_some {r : Nat} {s : State} {ρ : Rotor} (h : s.rotors[r]? = some ρ) (k : List Byte) :
    execLdrot r k s = .next ((s.setRotor r (loadedRotor ρ (loadRotorKey k ρ.fwd ρ.inv))).emit
      [(loadRotorKey k ρ.fwd ρ.inv).status.code]) := by
  rw [execLdrot, withRotorOperand_some h]; simp only [endLoad_eq]

theorem execLdref_eq (k : List Byte) (s : State) :
    execLdref k s = .next (((s.withRefl (loadReflKey k s.refl).refl).withReflValid
      (decide ((loadReflKey k s.refl).status = .ok))).emit [(loadReflKey k s.refl).status.code]) := by
  simp only [execLdref, endLoad_eq]

/-- The status byte tells the status. -/
theorem Status.code_inj {a b : Status} (h : a.code = b.code) : a = b := by
  cases a <;> cases b <;> first | rfl | (revert h; decide)

end Sys2Proof.Machine
end

