-- ==== Sys2Proof/Laws/Invariant.lean ====
section
/-!
SUPPORT. Lemmas about the invariant of the reachable states (spec 10_state R36): what it depends on, and that a
draw keeps it.
-/

namespace Sys2Proof.Machine

/-- The invariant says nothing of the ports. -/
theorem State.Inv.congr {s t : State} (h : s.Inv) (h1 : t.rotors = s.rotors) (h2 : t.refl = s.refl)
    (h3 : t.reflValid = s.reflValid) (h4 : t.busy = s.busy) (h5 : t.preset = s.preset) : t.Inv := by
  cases s; cases t
  simp only at h1 h2 h3 h4 h5
  subst h1 h2 h3 h4 h5
  exact h

/-- What an idle engine needs for the invariant. -/
theorem State.Inv.of_idle {s : State} (hb : s.busy = .idle) (h1 : s.rotors.length ≤ Config.maxRotors)
    (h2 : ∀ ρ ∈ s.rotors, ρ.Ok) (h3 : s.refl.wf) (h4 : s.reflValid = true → Pairing s.refl)
    (h5 : presetOk s.preset s.rotors.length = true) : s.Inv :=
  ⟨h1, h2, h3, h4, by simp [busyOk, hb], h5⟩

/-- A rotor put into a bank of good rotors, itself good, leaves good rotors. -/
theorem forall_mem_set {bank : List Rotor} {P : Rotor → Prop} (h : ∀ ρ ∈ bank, P ρ) {r : Nat} {σ : Rotor}
    (hσ : P σ) : ∀ ρ ∈ bank.set r σ, P ρ := by
  intro ρ hρ
  rcases List.mem_or_eq_of_mem_set hρ with hρ | rfl
  · exact h ρ hρ
  · exact hσ

theorem mem_of_getElem? {bank : List Rotor} {r : Nat} {ρ : Rotor} (h : bank[r]? = some ρ) : ρ ∈ bank :=
  List.mem_of_getElem? h

/-- With every flag 1, the invariant makes every rotor exact and the reflector a pairing. -/
theorem State.Inv.tables {s : State} (h : s.Inv) (hv : s.tablesValid = true) :
    (∀ ρ ∈ s.rotors, ρ.Exact) ∧ Pairing s.refl := by
  obtain ⟨hr, hall⟩ := (tablesValid_iff s).mp hv
  exact ⟨fun ρ hρ => (h.2.1 ρ hρ).2.2 (hall ρ hρ), h.2.2.2.1 hr⟩

/-- One draw keeps the invariant (41_generate R114, 10_state R36). -/
theorem genDraw_inv {s : State} (d : Index) (h : s.Inv) : (genDraw d s).Inv := by
  obtain ⟨h1, h2, h3, h4, h5, h6⟩ := h
  rcases genDraw_cases d s with e | ⟨r, pos, used, ρ, v, hb, hr, hc, e⟩ | ⟨pos, used, v, hb, hc, e⟩
  · rw [e]; exact ⟨h1, h2, h3, h4, h5, h6⟩
  · rw [e]
    obtain ⟨hu, hne⟩ := candidate_spec hc
    simp only [busyOk, hb, State.rotor_eq, hr, Bool.and_eq_true, Bool.not_eq_true',
      decide_eq_true_eq] at h5
    have hfill := ((rotorProgress_iff ρ pos used).mp h5.2).accept hu hne
    have hρ := h2 ρ (mem_of_getElem? hr)
    have hwf1 := Memory.wf_write hρ.1 pos v
    have hwf2 := Memory.wf_write hρ.2.1 v pos
    have hlt : r < s.rotors.length := (List.getElem?_eq_some_iff.mp hr).1
    unfold acceptRotor
    dsimp only
    split
    · next hpos =>
      rw [hpos] at hfill
      refine State.Inv.of_idle (by simp) (by simpa using h1) ?_ (by simpa using h3) (by simpa using h4)
        (by simpa using h6)
      simp only [State.respond_rotors, State.withBusy_rotors, State.setRotor_rotors]
      refine forall_mem_set h2 ⟨by simpa using hwf1, by simpa using hwf2, fun _ => ?_⟩
      have := hfill.full.1
      exact this
    · next hpos =>
      have hnext : (nextIndex pos).val = pos.val + 1 := by
        have := pos.isLt
        rw [nextIndex_eq, Fin.val_add_one_of_lt' (by omega)]
      refine ⟨by simpa using h1, ?_, by simpa using h3, by simpa using h4, ?_, by simpa using h6⟩
      · simp only [State.withBusy_rotors, State.setRotor_rotors]
        refine forall_mem_set h2 ⟨by simpa using hwf1, by simpa using hwf2, fun hv => ?_⟩
        rw [Rotor.withTables_valid, h5.1] at hv; cases hv
      · rw [← hnext] at hfill
        have := (rotorProgress_iff _ _ _).mpr hfill
        simp only [busyOk, State.withBusy_busy, State.rotor_eq, State.withBusy_rotors, State.setRotor_rotors,
          List.getElem?_set_self hlt, Rotor.withTables_valid, h5.1, Bool.not_false, Bool.true_and]
        exact decide_eq_true this
  · rw [e]
    obtain ⟨hu, hne⟩ := candidate_spec hc
    simp only [busyOk, hb, Bool.and_eq_true, Bool.not_eq_true', decide_eq_true_eq] at h5
    obtain ⟨hfill, hlow, hpos⟩ := (reflProgress_iff _ _ _).mp h5.2
    have hfill' := hfill.accept hpos hu hne
    have hwf := Memory.wf_write (Memory.wf_write h3 pos v) v pos
    have hlow' : ∀ i : Index, i ≤ pos → ((used.mark pos).mark v).has i = true := by
      intro i hi
      rcases lt_or_eq_of_le hi with hi | rfl
      · simp [hlow i hi]
      · simp
    unfold acceptRefl
    dsimp only
    rcases nextUnpaired_cases pos _ hlow' with ⟨p, hp, hpu, hpl⟩ | ⟨hp, hall⟩
    · rw [hp]
      refine ⟨by simpa using h1, by simpa using h2, by simpa using hwf, fun hv => ?_, ?_, by simpa using h6⟩
      · rw [State.withBusy_reflValid, State.withRefl_reflValid, h5.1] at hv; cases hv
      · have := (reflProgress_iff _ _ _).mpr ⟨hfill', hpl, hpu⟩
        simp only [busyOk, State.withBusy_busy, State.withBusy_reflValid, State.withRefl_reflValid, h5.1,
          State.withBusy_refl, State.withRefl_refl, Bool.not_false, Bool.true_and]
        exact decide_eq_true this
    · rw [hp]
      refine State.Inv.of_idle (by simp) (by simpa using h1) (by simpa using h2) (by simpa using hwf)
        (fun _ => ?_) (by simpa using h6)
      simpa using hfill'.full hall

/-- A run of draws keeps the invariant. -/
theorem runDraws_inv {s : State} (l : List Index) (h : s.Inv) : (runDraws l s).Inv :=
  runDraws_keeps (P := State.Inv) (fun d _ _ => genDraw_inv d) (fun _ _ h => h.congr rfl rfl rfl rfl rfl) l s h

end Sys2Proof.Machine
end

