-- ==== Sys2Proof/Laws/PerInstr.lean ====
section
/-!
SUPPORT. Statements made of every instruction as syntax, one lemma per constructor.
-/

/-- The encoding of a well-formed command is as long as its own header says (spec 30_encoding R71, R74). -/
def Sys2Proof.Laws.EncodingShape.Statement (i : Sys2Proof.Instr) : Prop :=
  i.wf = true → ∃ h tl, Sys2Proof.encode i = h :: tl ∧ tl.length + 1 = Sys2Proof.commandLength h

namespace Sys2Proof.Laws

theorem encodingShape_of_encode (i : Instr) : EncodingShape.Statement i := by
  intro hw
  obtain ⟨h, tl, he, hl, -⟩ := encode_shape i hw
  exact ⟨h, tl, he, hl⟩

theorem EncodingShape.enc (c : Byte) : EncodingShape.Statement (.enc c) := encodingShape_of_encode _

theorem EncodingShape.ldrot (r : Nat) (k : List Byte) : EncodingShape.Statement (.ldrot r k) := encodingShape_of_encode _

theorem EncodingShape.ldref (k : List Byte) : EncodingShape.Statement (.ldref k) := encodingShape_of_encode _

theorem EncodingShape.rdrot (r : Nat) : EncodingShape.Statement (.rdrot r) := encodingShape_of_encode _

theorem EncodingShape.rdref : EncodingShape.Statement .rdref := encodingShape_of_encode _

theorem EncodingShape.rdsh (r : Nat) : EncodingShape.Statement (.rdsh r) := encodingShape_of_encode _

theorem EncodingShape.rstsh (r : Nat) : EncodingShape.Statement (.rstsh r) := encodingShape_of_encode _

theorem EncodingShape.genrot (r : Nat) : EncodingShape.Statement (.genrot r) := encodingShape_of_encode _

theorem EncodingShape.genref : EncodingShape.Statement .genref := encodingShape_of_encode _

end Sys2Proof.Laws
end

