-- ==== Sys2Proof/Laws/Pseudo.lean ====
section
/-!
SUPPORT. What a run of commands can do at its next command (spec 70_reset R185).
-/

namespace Sys2Proof.Machine

/-- A busy engine takes no command: the run has not ended. -/
theorem runCommands_busy {s : State} (hb : s.busy ≠ .idle) (prog : List Instr) :
    runCommands prog s = .unended s prog := by
  cases prog <;> simp [runCommands, hb]

theorem runCommands_nil {s : State} (hb : s.busy = .idle) : runCommands [] s = .ended s := by
  simp [runCommands, hb]

/-- An idle engine runs the next command, and the others from the state it leaves. -/
theorem runCommands_cons {s : State} (hb : s.busy = .idle) (i : Instr) (rest : List Instr) :
    runCommands (i :: rest) s = match exec i s with
      | .next t => runCommands rest t
      | .fault f => .fault f
      | .refused f => .refused f := by
  cases he : exec i s <;> simp [runCommands, hb, he]

/-- A run that has ended began on an idle engine. -/
theorem idle_of_runCommands_ended {prog : List Instr} {s t : State} (h : runCommands prog s = .ended t) :
    s.busy = .idle := by
  by_contra hb
  rw [runCommands_busy hb] at h; cases h

/-- The first command of a run that has ended. -/
theorem runCommands_cons_ended {i : Instr} {rest : List Instr} {s u : State}
    (h : runCommands (i :: rest) s = .ended u) : ∃ t, exec i s = .next t ∧ runCommands rest t = .ended u := by
  rw [runCommands_cons (idle_of_runCommands_ended h)] at h
  cases he : exec i s with
  | next t => rw [he] at h; exact ⟨t, rfl, h⟩
  | fault f => rw [he] at h; cases h
  | refused f => rw [he] at h; cases h

end Sys2Proof.Machine
end

