-- ==== Sys2Proof/Laws/Runs.lean ====
section
/-!
SUPPORT. What a run of draws does to the whole state, from a generate command in progress (spec 41_generate R112,
R113, R116).
-/

namespace Sys2Proof.Machine

/-- From `GENROT r` in progress in `s` to `t`: what stays, and either the command goes on with no response,
or it has ended with one. -/
structure RotorRun (r : Nat) (s t : State) : Prop where
  refl : t.refl = s.refl
  reflValid : t.reflValid = s.reflValid
  other : ∀ j, j ≠ r → t.rotors[j]? = s.rotors[j]?
  cmdIn : t.cmdIn = s.cmdIn
  preset : t.preset = s.preset
  resetIn : t.resetIn = s.resetIn
  length : t.rotors.length = s.rotors.length
  outcome :
    ((∃ pos used, t.busy = .genRotor r pos used) ∧ t.respOut = s.respOut ∧
      ∀ ρ ρ' : Rotor, s.rotors[r]? = some ρ → t.rotors[r]? = some ρ' → ρ'.shift = ρ.shift) ∨
    (t.busy = .idle ∧ t.respOut = s.respOut ++ [[0x00]] ∧
      ∃ ρ : Rotor, t.rotors[r]? = some ρ ∧ ρ.shift = 0 ∧ ρ.valid = true)

theorem RotorRun.start {r : Nat} {s : State} {pos : Index} {used : Mask} (h : s.busy = .genRotor r pos used) :
    RotorRun r s s :=
  ⟨rfl, rfl, fun _ _ => rfl, rfl, rfl, rfl, rfl,
    Or.inl ⟨⟨pos, used, h⟩, rfl, fun ρ ρ' a b => by rw [a] at b; cases b; rfl⟩⟩

theorem RotorRun.withEntropyIn {r : Nat} {s t : State} (h : RotorRun r s t) (l : List Index) :
    RotorRun r s (t.withEntropyIn l) :=
  ⟨h.1, h.2, h.3, h.4, h.5, h.6, h.7, h.8⟩

theorem RotorRun.accept {r : Nat} {pos : Index} {used : Mask} {ρ : Rotor} {v : Index} {s : State}
    (hr : s.rotors[r]? = some ρ) : RotorRun r s (acceptRotor r ρ pos used v s) := by
  have hlt : r < s.rotors.length := (List.getElem?_eq_some_iff.mp hr).1
  unfold acceptRotor
  dsimp only
  split
  · refine ⟨by simp, by simp, fun j hj => by simp [List.getElem?_set_ne hj.symm], by simp, by simp, by simp,
      by simp, Or.inr ⟨by simp, by simp; rfl, ?_⟩⟩
    refine ⟨finishRotor (ρ.withTables (ρ.fwd.write pos v) (ρ.inv.write v pos)), ?_, by simp⟩
    simp [List.getElem?_set_self hlt]
  · refine ⟨by simp, by simp, fun j hj => by simp [List.getElem?_set_ne hj.symm], by simp, by simp, by simp,
      by simp, Or.inl ⟨⟨_, _, by simp; exact ⟨rfl, rfl⟩⟩, by simp, ?_⟩⟩
    intro σ σ' h1 h2
    rw [hr] at h1; cases h1
    simp [List.getElem?_set_self hlt] at h2
    subst h2; simp

theorem RotorRun.trans {r : Nat} {s t u : State} (h : RotorRun r s t) (hb : t.busy ≠ .idle)
    (k : RotorRun r t u) : RotorRun r s u := by
  refine ⟨k.refl.trans h.refl, k.reflValid.trans h.reflValid, fun j hj => (k.other j hj).trans (h.other j hj),
    k.cmdIn.trans h.cmdIn, k.preset.trans h.preset, k.resetIn.trans h.resetIn, k.length.trans h.length, ?_⟩
  rcases h.outcome with ⟨-, h2, h3⟩ | ⟨h1, _⟩
  · rcases k.outcome with ⟨k1, k2, k3⟩ | ⟨k1, k2, k3⟩
    · refine Or.inl ⟨k1, k2.trans h2, fun ρ ρ' a b => ?_⟩
      have hlt : r < t.rotors.length := by rw [h.length]; exact (List.getElem?_eq_some_iff.mp a).1
      exact (k3 _ ρ' (List.getElem?_eq_getElem hlt) b).trans (h3 ρ _ a (List.getElem?_eq_getElem hlt))
    · exact Or.inr ⟨k1, by rw [k2, h2], k3⟩
  · exact absurd h1 hb

/-- Every run of draws from `GENROT r` in progress. -/
theorem runDraws_rotor (l : List Index) {r : Nat} {s : State} {pos : Index} {used : Mask}
    (h : s.busy = .genRotor r pos used) : RotorRun r s (runDraws l s) := by
  induction l generalizing s pos used with
  | nil => exact (RotorRun.start h).withEntropyIn []
  | cons d l ih =>
    rw [runDraws_cons (by simp [h])]
    rcases genDraw_cases d s with e | ⟨r', pos', used', ρ, v, hb, hr, hc, e⟩ | ⟨pos', used', v, hb, hc, e⟩
    · rw [e]; exact ih h
    · rw [h] at hb; cases hb
      rw [e]
      have ha := RotorRun.accept (pos := pos) (used := used) (v := v) hr
      by_cases hbz : (acceptRotor r ρ pos used v s).busy = .idle
      · rw [runDraws_idle hbz]; exact ha.withEntropyIn _
      · rcases ha.outcome with ⟨⟨p, us, h1⟩, _⟩ | ⟨h1, _⟩
        · exact ha.trans hbz (ih h1)
        · exact absurd h1 hbz
    · rw [h] at hb; cases hb

/-- From `GENREF` in progress in `s` to `t`: what stays, and either the command goes on with no response, or
it has ended with one. -/
structure ReflRun (s t : State) : Prop where
  rotors : t.rotors = s.rotors
  cmdIn : t.cmdIn = s.cmdIn
  preset : t.preset = s.preset
  resetIn : t.resetIn = s.resetIn
  outcome :
    ((∃ pos used, t.busy = .genRefl pos used) ∧ t.respOut = s.respOut) ∨
    (t.busy = .idle ∧ t.respOut = s.respOut ++ [[0x00]] ∧ t.reflValid = true)

theorem ReflRun.withEntropyIn {s t : State} (h : ReflRun s t) (l : List Index) :
    ReflRun s (t.withEntropyIn l) :=
  ⟨h.1, h.2, h.3, h.4, h.5⟩

theorem ReflRun.accept (pos : Index) (used : Mask) (v : Index) (s : State) :
    ReflRun s (acceptRefl pos used v s) := by
  unfold acceptRefl
  dsimp only
  split
  · exact ⟨by simp, by simp, by simp, by simp, Or.inl ⟨⟨_, _, by simp; exact ⟨rfl, rfl⟩⟩, by simp⟩⟩
  · exact ⟨by simp, by simp, by simp, by simp, Or.inr ⟨by simp, by simp; rfl, by simp⟩⟩

theorem ReflRun.trans {s t u : State} (h : ReflRun s t) (hb : t.busy ≠ .idle) (k : ReflRun t u) :
    ReflRun s u := by
  refine ⟨k.rotors.trans h.rotors, k.cmdIn.trans h.cmdIn, k.preset.trans h.preset,
    k.resetIn.trans h.resetIn, ?_⟩
  rcases h.outcome with ⟨-, h2⟩ | ⟨h1, _⟩
  · rcases k.outcome with ⟨k1, k2⟩ | ⟨k1, k2, k3⟩
    · exact Or.inl ⟨k1, k2.trans h2⟩
    · exact Or.inr ⟨k1, by rw [k2, h2], k3⟩
  · exact absurd h1 hb

/-- Every run of draws from `GENREF` in progress. -/
theorem runDraws_refl (l : List Index) {s : State} {pos : Index} {used : Mask}
    (h : s.busy = .genRefl pos used) : ReflRun s (runDraws l s) := by
  induction l generalizing s pos used with
  | nil => exact ⟨rfl, rfl, rfl, rfl, Or.inl ⟨⟨pos, used, h⟩, rfl⟩⟩
  | cons d l ih =>
    rw [runDraws_cons (by simp [h])]
    rcases genDraw_cases d s with e | ⟨r', pos', used', ρ, v, hb, hr, hc, e⟩ | ⟨pos', used', v, hb, hc, e⟩
    · rw [e]; exact ih h
    · rw [h] at hb; cases hb
    · rw [h] at hb; cases hb
      rw [e]
      have ha := ReflRun.accept pos used v s
      by_cases hbz : (acceptRefl pos used v s).busy = .idle
      · rw [runDraws_idle hbz]; exact ha.withEntropyIn _
      · rcases ha.outcome with ⟨⟨p, us, h1⟩, _⟩ | ⟨h1, _⟩
        · exact ha.trans hbz (ih h1)
        · exact absurd h1 hbz

end Sys2Proof.Machine
end

