-- ==== Sys2Proof/Laws/Step.lean ====
section
/-!
SUPPORT. Everything a step can do, and everything each command can do when it answers a next state: each said
once.
-/

namespace Sys2Proof.Machine

/-- An idle engine with reset not asserted looks at the command port. -/
theorem nextEvent_ready {s : State} (hr : s.resetIn = false) (hb : s.busy = .idle) :
    s.nextEvent = portEvent s.cmdIn := by
  simp [State.nextEvent, hr, hb]

theorem step_reset {s : State} (h : s.resetIn = true) : step s = .next s.applyReset := by
  simp [step, State.nextEvent, h]

theorem step_busy {s : State} (hr : s.resetIn = false) (hb : s.busy ≠ .idle) :
    step s = .next (resumeGenerate s) := by
  cases h : s.busy with
  | idle => exact absurd h hb
  | genRotor r pos used => simp [step, State.nextEvent, hr, h]
  | genRefl pos used => simp [step, State.nextEvent, hr, h]

/-- An idle engine with reset not asserted does what the command port says. -/
theorem step_ready {s : State} (hr : s.resetIn = false) (hb : s.busy = .idle) :
    step s = match decode s.cmdIn with
      | .incomplete => .next s
      | .illegal rest => .next (refuseIllegal rest s)
      | .command i rest => exec i (s.withCmdIn rest) := by
  simp only [step, nextEvent_ready hr hb, portEvent]
  cases decode s.cmdIn <;> rfl

/-- Everything a step can do when it answers a next state. -/
theorem step_cases {s t : State} (h : step s = .next t) :
    (s.resetIn = true ∧ t = s.applyReset) ∨
    (s.resetIn = false ∧ s.busy ≠ .idle ∧ t = resumeGenerate s) ∨
    (s.resetIn = false ∧ s.busy = .idle ∧ decode s.cmdIn = .incomplete ∧ t = s) ∨
    (s.resetIn = false ∧ s.busy = .idle ∧ ∃ rest, decode s.cmdIn = .illegal rest ∧ t = refuseIllegal rest s) ∨
    (s.resetIn = false ∧ s.busy = .idle ∧
      ∃ i rest, decode s.cmdIn = .command i rest ∧ exec i (s.withCmdIn rest) = .next t) := by
  by_cases hr : s.resetIn = true
  · rw [step_reset hr] at h; cases h; exact Or.inl ⟨hr, rfl⟩
  · rw [Bool.not_eq_true] at hr
    by_cases hb : s.busy = .idle
    · rw [step_ready hr hb] at h
      cases hd : decode s.cmdIn with
      | incomplete => rw [hd] at h; cases h; exact Or.inr (Or.inr (Or.inl ⟨hr, hb, rfl, rfl⟩))
      | illegal rest => rw [hd] at h; cases h; exact Or.inr (Or.inr (Or.inr (Or.inl ⟨hr, hb, rest, rfl, rfl⟩)))
      | command i rest => rw [hd] at h; exact Or.inr (Or.inr (Or.inr (Or.inr ⟨hr, hb, i, rest, rfl, h⟩)))
    · rw [step_busy hr hb] at h; cases h; exact Or.inr (Or.inl ⟨hr, hb, rfl⟩)

/-- Everything `LDROT` can do. -/
theorem execLdrot_cases {r : Nat} {k : List Byte} {s t : State} (h : execLdrot r k s = .next t) :
    (s.rotors[r]? = none ∧ t = s.raise .badRotorSelect) ∨
    ∃ ρ, s.rotors[r]? = some ρ ∧ t = (s.setRotor r (loadedRotor ρ (loadRotorKey k ρ.fwd ρ.inv))).emit
      [(loadRotorKey k ρ.fwd ρ.inv).status.code] := by
  cases hr : s.rotors[r]? with
  | none => rw [execLdrot, withRotorOperand_none hr] at h; cases h; exact Or.inl ⟨rfl, rfl⟩
  | some ρ => rw [execLdrot_some hr] at h; cases h; exact Or.inr ⟨ρ, rfl, rfl⟩

/-- Everything `RDROT` can do when it answers a next state: one response, nothing else. -/
theorem execRdrot_cases {r : Nat} {s t : State} (h : execRdrot r s = .next t) :
    (s.rotors[r]? = none ∧ t = s.raise .badRotorSelect) ∨
    ∃ ρ, s.rotors[r]? = some ρ ∧ ((ρ.valid = true ∧ ∃ p, serialize ρ.fwd = some p ∧ t = s.respond p) ∨
      (ρ.valid = false ∧ t = s.raise .tableInvalid)) := by
  rcases withRotorOperand_cases h with h | ⟨ρ, hr, h⟩
  · exact Or.inl h
  · exact Or.inr ⟨ρ, hr, readBack_cases h⟩

/-- Everything `RDSH` can do: one response, nothing else. -/
theorem execRdsh_cases {r : Nat} {s t : State} (h : execRdsh r s = .next t) :
    (s.rotors[r]? = none ∧ t = s.raise .badRotorSelect) ∨
    ∃ ρ, s.rotors[r]? = some ρ ∧ t = s.respond [BitVec.ofNat 8 ρ.shift.val] := by
  rcases withRotorOperand_cases h with h | ⟨ρ, hr, h⟩
  · exact Or.inl h
  · cases h; exact Or.inr ⟨ρ, hr, rfl⟩

/-- Everything `RSTSH` can do. -/
theorem execRstsh_cases {r : Nat} {s t : State} (h : execRstsh r s = .next t) :
    (s.rotors[r]? = none ∧ t = s.raise .badRotorSelect) ∨
    ∃ ρ, s.rotors[r]? = some ρ ∧ t = (s.setRotor r (ρ.withShift 0)).respond [] := by
  rcases withRotorOperand_cases h with h | ⟨ρ, hr, h⟩
  · exact Or.inl h
  · cases h; exact Or.inr ⟨ρ, hr, rfl⟩

/-- The state in which `GENROT r` makes its first draw: flag 0, mask empty, position 0. -/
def genrotStart (r : Nat) (ρ : Rotor) (s : State) : State :=
  (s.setRotor r (invalidateRotor ρ)).withBusy (.genRotor r 0 Mask.empty)

/-- The state in which `GENREF` makes its first draw. -/
def genrefStart (s : State) : State := (s.withReflValid false).withBusy (.genRefl 0 Mask.empty)

/-- Everything `GENROT` can do. -/
theorem execGenrot_cases {r : Nat} {s t : State} (h : execGenrot r s = .next t) :
    (s.rotors[r]? = none ∧ t = s.raise .badRotorSelect) ∨
    ∃ ρ, s.rotors[r]? = some ρ ∧ t = runDraws s.entropyIn (genrotStart r ρ s) := by
  rcases withRotorOperand_cases h with h | ⟨ρ, hr, h⟩
  · exact Or.inl h
  · cases h; exact Or.inr ⟨ρ, hr, rfl⟩

theorem execGenrot_some {r : Nat} {s : State} {ρ : Rotor} (h : s.rotors[r]? = some ρ) :
    execGenrot r s = .next (runDraws s.entropyIn (genrotStart r ρ s)) := by
  rw [execGenrot, withRotorOperand_some h]; rfl

theorem execGenref_eq (s : State) : execGenref s = .next (runDraws s.entropyIn (genrefStart s)) := rfl

end Sys2Proof.Machine
end

