-- ==== Sys2Proof/Machine/Asm.lean ====
section
/-!
DEFINITION. The assembler text of a command and of a response (spec 30_encoding R82). Notation only: no step uses
it.
-/

namespace Sys2Proof.Machine

/-- One hexadecimal digit. -/
def hexDigit (n : Nat) : Char := if n < 10 then Char.ofNat (48 + n) else Char.ofNat (55 + n)

/-- A byte as `0x` and two digits. -/
def hexByte (c : Byte) : String :=
  String.ofList ['0', 'x', hexDigit (c.toNat / 16), hexDigit (c.toNat % 16)]

/-- A byte that can stand in a quoted text: printable ASCII, 0x20 to 0x7E, but neither quote character.
DESIGN CHOICE, log entry 21, safe: 30_encoding R82 is silent on how a quote character (0x22, 0x27) stands in quoted
text; here both are written in hexadecimal, in a character operand and in a key alike. -/
def printable (c : Byte) : Bool :=
  decide (0x20 ≤ c.toNat) && decide (c.toNat ≤ 0x7E) && decide (c.toNat ≠ 0x22) && decide (c.toNat ≠ 0x27)

/-- A character operand: quoted when it can stand in a quoted text (log entry 21), else a byte. -/
def charText (c : Byte) : String :=
  if printable c then String.ofList ['\'', Char.ofNat c.toNat, '\''] else hexByte c

/-- A byte sequence: quoted when every byte can stand in a quoted text (log entry 21), else bytes with commas
between. -/
def bytesText (k : List Byte) : String :=
  if k.all printable then String.ofList (['"'] ++ k.map (fun c => Char.ofNat c.toNat) ++ ['"'])
  else ", ".intercalate (k.map hexByte)

/-- A command on one line, mnemonic first. -/
def asmText : Instr → String
  | .enc c => "ENC " ++ charText c
  | .ldrot r k => "LDROT " ++ toString r ++ ", " ++ bytesText k
  | .ldref k => "LDREF " ++ bytesText k
  | .rdrot r => "RDROT " ++ toString r
  | .rdref => "RDREF"
  | .rdsh r => "RDSH " ++ toString r
  | .rstsh r => "RSTSH " ++ toString r
  | .genrot r => "GENROT " ++ toString r
  | .genref => "GENREF"

/-- The status names of 60_exceptions R160. -/
def statusName : Status → String
  | .ok => "OK"
  | .invalidCharacter => "InvalidCharacter"
  | .duplicateMapping => "DuplicateMapping"
  | .notInvolution => "NotInvolution"
  | .tableInvalid => "TableInvalid"
  | .badRotorSelect => "BadRotorSelect"
  | .illegalCommand => "IllegalCommand"

/-- A response on one line. -/
def responseText (st : Status) (p : List Byte) : String :=
  match st, p with
  | .ok, [] => "-> OK"
  | .ok, [c] => "-> OK " ++ charText c
  | .ok, p => "-> OK " ++ bytesText p
  | e, _ => "-> " ++ statusName e

end Sys2Proof.Machine
end

