-- ==== Sys2Proof/Tests/Slice0.lean ====
section
/-!
SUPPORT. Small tests, and for each statement with hypotheses a state that meets them. Expected values are those
of spec 95_test_vectors and of the rules' worked examples.
-/

namespace Sys2Proof.Tests

-- One theorem at a time: elaborated side by side each would hold a thread with its stack.
set_option Elab.async false

open Sys2Proof.Machine Sys2Proof.Claims

/-- BCDEFGHIJKLMNOPQRSTUVWXYZA (95_test_vectors part 0). -/
def kInc : List Byte :=
  [0x42, 0x43, 0x44, 0x45, 0x46, 0x47, 0x48, 0x49, 0x4A, 0x4B, 0x4C, 0x4D, 0x4E, 0x4F, 0x50, 0x51, 0x52, 0x53, 0x54, 0x55, 0x56, 0x57, 0x58, 0x59, 0x5A, 0x41]

/-- BADCFEHGJILKNMPORQTSVUXWZY (95_test_vectors part 0). -/
def kX1 : List Byte :=
  [0x42, 0x41, 0x44, 0x43, 0x46, 0x45, 0x48, 0x47, 0x4A, 0x49, 0x4C, 0x4B, 0x4E, 0x4D, 0x50, 0x4F, 0x52, 0x51, 0x54, 0x53, 0x56, 0x55, 0x58, 0x57, 0x5A, 0x59]

/-- ZYXWVUTSRQPONMLKJIHGFEDCBA (95_test_vectors part 0). -/
def kRev : List Byte :=
  [0x5A, 0x59, 0x58, 0x57, 0x56, 0x55, 0x54, 0x53, 0x52, 0x51, 0x50, 0x4F, 0x4E, 0x4D, 0x4C, 0x4B, 0x4A, 0x49, 0x48, 0x47, 0x46, 0x45, 0x44, 0x43, 0x42, 0x41]

/-- EKMFLGDQVZNTOWYHXUSPAIBRCJ (95_test_vectors part 0). -/
def kA : List Byte :=
  [0x45, 0x4B, 0x4D, 0x46, 0x4C, 0x47, 0x44, 0x51, 0x56, 0x5A, 0x4E, 0x54, 0x4F, 0x57, 0x59, 0x48, 0x58, 0x55, 0x53, 0x50, 0x41, 0x49, 0x42, 0x52, 0x43, 0x4A]

/-- AJDKSIRUXBLHWTMCQGZNPYFVOE (95_test_vectors part 0). -/
def kB : List Byte :=
  [0x41, 0x4A, 0x44, 0x4B, 0x53, 0x49, 0x52, 0x55, 0x58, 0x42, 0x4C, 0x48, 0x57, 0x54, 0x4D, 0x43, 0x51, 0x47, 0x5A, 0x4E, 0x50, 0x59, 0x46, 0x56, 0x4F, 0x45]

/-- BDFHJLCPRTXVZNYEIWGAKMUSQO (95_test_vectors part 0). -/
def kC : List Byte :=
  [0x42, 0x44, 0x46, 0x48, 0x4A, 0x4C, 0x43, 0x50, 0x52, 0x54, 0x58, 0x56, 0x5A, 0x4E, 0x59, 0x45, 0x49, 0x57, 0x47, 0x41, 0x4B, 0x4D, 0x55, 0x53, 0x51, 0x4F]

/-- YRUHQSLDPXNGOKMIEBFZCWVJAT (95_test_vectors part 0). -/
def kR : List Byte :=
  [0x59, 0x52, 0x55, 0x48, 0x51, 0x53, 0x4C, 0x44, 0x50, 0x58, 0x4E, 0x47, 0x4F, 0x4B, 0x4D, 0x49, 0x45, 0x42, 0x46, 0x5A, 0x43, 0x57, 0x56, 0x4A, 0x41, 0x54]

/-- An engine of `n` rotors after reset, `PRESET` none. -/
def blank (n : Nat) : State := State.resetFor { nRotors := n, preset := none }

/-- An engine after reset with the keys given. -/
def loaded (ks : List (List Byte)) (refl : List Byte) : State :=
  State.resetFor { nRotors := ks.length, preset := some { rotorKeys := ks, reflKey := refl } }

/-- `s` with the shifts given, rotor 0 first. -/
def withShifts (s : State) (v : List Index) : State := s.withRotors (List.zipWith Rotor.withShift s.rotors v)

/-- A Boolean of the next state; false where there is none. -/
def holds (o : Host.Outcome State Fault Refusal) (P : State → Bool) : Bool :=
  match o with
  | .next t => P t
  | _ => false

theorem exists_of_holds {o : Host.Outcome State Fault Refusal} {P : State → Bool} (h : holds o P = true) :
    ∃ t, o = .next t ∧ P t = true := by
  unfold holds at h
  split at h
  · exact ⟨_, rfl, h⟩
  · cases h

/-- The run is over. -/
def isEnded : RunResult → Bool
  | .ended _ => true
  | _ => false

theorem exists_of_ended {o : RunResult} (h : isEnded o = true) : ∃ t, o = .ended t := by
  unfold isEnded at h
  split at h
  · exact ⟨_, rfl⟩
  · cases h

/-- The commands not begun of a run that has no end. -/
def notBegun : RunResult → Option (List Instr)
  | .unended _ rest => some rest
  | _ => none

theorem exists_of_unended {o : RunResult} {rest : List Instr} (h : notBegun o = some rest) :
    ∃ t, o = .unended t rest := by
  unfold notBegun at h
  split at h
  · exact ⟨_, by rw [Option.some.inj h]⟩
  · cases h

/-- The responses and the shifts after. -/
def outcome (o : Host.Outcome State Fault Refusal) : Option (List (List Byte) × List Nat) :=
  match o with
  | .next t => some (t.respOut, t.rotors.map (fun ρ => ρ.shift.val))
  | _ => none

/-- The next state; `s` where there is none. -/
def after (o : Host.Outcome State Fault Refusal) (s : State) : State :=
  match o with
  | .next t => t
  | _ => s

/-! ## Well-formedness: an ill-formed term for each check -/

/-- 30_encoding R73: `r` is 0 to 15. -/
theorem test_wf_rotor : [Instr.rdrot 16, .rdsh 16, .rstsh 16, .genrot 16, .ldrot 16 kInc].map Instr.wf =
    [false, false, false, false, false] := by decide

/-- 30_encoding R71: a key is 26 bytes. -/
theorem test_wf_key : [Instr.ldrot 0 kInc.tail, .ldrot 0 (0x41 :: kInc), .ldref kInc.tail, .ldref (0x41 :: kInc)].map
    Instr.wf = [false, false, false, false] := by decide

theorem test_wf_good : [Instr.enc 0xFF, .ldrot 15 kA, .ldref kR, .rdrot 15, .rdref, .rdsh 0, .rstsh 15, .genrot 7,
    .genref].all Instr.wf = true := by decide

/-! ## Decoding: words of 30_encoding R72, field by field -/

/-- `OP = 0001`, `R = 0000`, then `c`. -/
theorem test_decode_enc : decode [0b00010000, 0b01100001] = .command (.enc 0x61) [] := by decide

/-- `OP = 0010`, `R = 1010`, then 26 key bytes; the rest stays (95 part 3, P2 step 1, at `r = 10`). -/
theorem test_decode_ldrot : decode (0b00101010 :: kInc ++ [0x60]) = .command (.ldrot 10 kInc) [0x60] := by decide

/-- `OP = 0011`, `R = 0000`, then 26 key bytes (95 part 3, P1 step 1). -/
theorem test_decode_ldref : decode (0b00110000 :: kRev) = .command (.ldref kRev) [] := by decide

theorem test_decode_rdrot : decode [0b01000101] = .command (.rdrot 5) [] := by decide
theorem test_decode_rdref : decode [0b01010000] = .command .rdref [] := by decide
theorem test_decode_rdsh : decode [0b01101000] = .command (.rdsh 8) [] := by decide
theorem test_decode_rstsh : decode [0b01110001] = .command (.rstsh 1) [] := by decide
theorem test_decode_genrot : decode [0b10001111] = .command (.genrot 15) [] := by decide
theorem test_decode_genref : decode [0b10010000] = .command .genref [] := by decide

/-- 95 part 2.8: illegal headers take the length of their `OP`. -/
theorem test_decode_illegal :
    [[0x00], [0xA0], [0xFF], [0x51], [0x91], [0x11, 0x41], 0x31 :: kR].all (fun b => decode b = .illegal []) = true ∧
    decode [0x11, 0x41, 0x60] = .illegal [0x60] ∧ decode [0x11] = .incomplete := by decide

/-- An opcode-table word: header in bits 7..0, later bytes above, zeros beyond. -/
theorem test_decode_table_word : decodeTableWord 8 0x4F = some (.rdrot 15) ∧
    decodeTableWord 16 0x4110 = some (.enc 0x41) ∧ decodeTableWord 8 0x20 = some (.ldrot 0 (List.replicate 26 0)) ∧
    decodeTableWord 8 0x91 = none := by decide

/-! ## The alphabet (95 part 2.1) -/

theorem test_letters : [0x00, 0x20, 0x40, 0x41, 0x5A, 0x5B, 0x60, 0x61, 0x7A, 0x7B, 0xC1, 0xE1].map
    (fun c => (isLetter c, (letterToIndex c).val)) =
    [(false, 0), (false, 0), (false, 0), (true, 0), (true, 25), (false, 0), (false, 0), (true, 0), (true, 25),
     (false, 0), (false, 0), (false, 0)] := by decide

/-! ## The commands -/

/-- 95 part 2.3 V1, the third letter, and V8. -/
theorem test_enc_V1 : outcome (exec (.enc 0x4C) (withShifts (loaded [kA] kR) [2])) =
    some ([[0x00, 0x52]], [3]) := by decide +kernel

/-- 95 part 2.3 V3, the 26th letter: rotor 1 first moves. -/
theorem test_enc_carry : outcome (exec (.enc 0x41) (withShifts (loaded [kA, kB] kR) [25, 0])) =
    some ([[0x00, 0x4C]], [0, 1]) := by decide +kernel

/-- 95 part 2.4, partial mutation: the key fails at position 3, shift 7 stays, three cells are new. -/
theorem test_ldrot_partial :
    holds (exec (.ldrot 0 ([0x45, 0x4B, 0x4D, 0x31] ++ kA.drop 4)) (withShifts (loaded [kInc] kR) [7])) (fun t =>
      t.respOut = [[0x01]] ∧ t.rotors.map (fun ρ => (ρ.shift.val, ρ.valid)) = [(7, false)] ∧
      t.rotors.map (fun ρ => [0, 1, 2, 3, 25].map (fun i => (ρ.fwd.read i).map Fin.val)) =
        [[some 4, some 10, some 12, some 4, some 0]] ∧
      t.rotors.map (fun ρ => [4, 10, 12, 3].map (fun i => (ρ.inv.read i).map Fin.val)) =
        [[some 0, some 1, some 2, some 2]]) = true := by decide +kernel

/-- 95 part 2.4: lower case and a fixed point are accepted; the duplicate test comes at its position. -/
theorem test_ldrot_keys :
    outcome (exec (.ldrot 0 (kInc.map (fun c => c + 0x20))) (blank 1)) = some ([[0x00]], [0]) ∧
    outcome (exec (.ldrot 0 kB) (blank 1)) = some ([[0x00]], [0]) ∧
    outcome (exec (.ldrot 0 ([0x41, 0x61] ++ List.replicate 24 0x43)) (blank 1)) = some ([[0x02]], [0]) ∧
    outcome (exec (.ldrot 0 ([0x41, 0x31, 0x41] ++ List.replicate 23 0x43)) (blank 1)) = some ([[0x01]], [0]) ∧
    outcome (exec (.ldrot 1 kInc) (blank 1)) = some ([[0x05]], [0]) := by decide +kernel

/-- 95 part 2.5. -/
theorem test_ldref_keys :
    outcome (exec (.ldref kR) (blank 0)) = some ([[0x00]], []) ∧
    outcome (exec (.ldref kInc) (blank 0)) = some ([[0x03]], []) ∧
    outcome (exec (.ldref ([0x41, 0x42] ++ kX1.drop 2)) (blank 0)) = some ([[0x03]], []) ∧
    outcome (exec (.ldref (kX1.take 24 ++ [0x20, 0x59])) (blank 0)) = some ([[0x01]], []) := by decide +kernel

/-- 95 part 2.5: after a failure every cell is written and `vf = 0`. -/
theorem test_ldref_failed : holds (exec (.ldref kInc) (loaded [] kR)) (fun t =>
    t.reflValid = false ∧ t.refl.read 25 = some 0 ∧ t.refl.read 0 = some 1) = true := by decide +kernel

/-- 95 part 2.6. -/
theorem test_rdrot : outcome (exec (.rdrot 0) (loaded [kA] kR)) = some ([0x00 :: kA], [0]) ∧
    outcome (exec (.rdrot 0) (blank 1)) = some ([[0x04]], [0]) := by decide +kernel

theorem test_rdref : outcome (exec .rdref (loaded [kA] kR)) = some ([0x00 :: kR], [0]) ∧
    outcome (exec .rdref (blank 1)) = some ([[0x04]], [0]) := by decide +kernel

theorem test_rdsh : outcome (exec (.rdsh 0) (withShifts (blank 1) [5])) = some ([[0x00, 0x05]], [5]) ∧
    outcome (exec (.rdsh 1) (blank 1)) = some ([[0x05]], [0]) := by decide

theorem test_rstsh : outcome (exec (.rstsh 1) (withShifts (blank 3) [4, 5, 6])) = some ([[0x00]], [4, 0, 6]) ∧
    outcome (exec (.rstsh 15) (blank 1)) = some ([[0x05]], [0]) := by decide

/-- 95 part 2.7 G4: three rejections, one wrap. -/
theorem test_genrot_G4 :
    holds (exec (.genrot 0) ((blank 1).withEntropyIn [3, 3, 3, 0, 0, 10, 6, 6, 20, 20, 20, 20, 9, 9, 13, 13, 13, 25, 25,
      25, 25, 1, 1, 1, 1, 1, 1, 1, 1, 17])) (fun t =>
      t.respOut = [[0x00]] ∧ t.entropyIn = [17] ∧ t.busy = .idle ∧
      t.rotors.map (fun ρ => serialize ρ.fwd) = [some [0x44, 0x45, 0x46, 0x41, 0x42, 0x4B, 0x55, 0x56, 0x57, 0x58, 0x4A,
        0x4E, 0x4F, 0x50, 0x5A, 0x43, 0x47, 0x48, 0x49, 0x4C, 0x4D, 0x51, 0x52, 0x53, 0x54, 0x59]]) = true := by
  decide +kernel

/-- 95 part 2.7 G3: the dead end, no response. -/
theorem test_genrot_G3 :
    holds (exec (.genrot 0) ((blank 1).withEntropyIn (List.replicate 24 1 ++ [0, 7, 25, 0, 13]))) (fun t =>
      t.respOut = [] ∧ t.entropyIn = [] ∧ t.busy = .genRotor 0 25 0x1FFFFFF ∧
      t.rotors.map (fun ρ => ρ.valid) = [false]) = true := by decide +kernel

/-- 95 part 2.7 G8: nine rejections. -/
theorem test_genref_G8 :
    holds (exec .genref ((blank 0).withEntropyIn [0, 5, 5, 5, 2, 2, 19, 19, 19, 9, 22, 25, 25, 25, 12, 12, 12, 17, 16,
      23, 0, 19])) (fun t =>
      t.respOut = [[0x00]] ∧ t.entropyIn = [] ∧ t.reflValid = true ∧
      serialize t.refl = some [0x46, 0x47, 0x48, 0x54, 0x55, 0x41, 0x42, 0x43, 0x56, 0x57, 0x5A, 0x4D, 0x4C, 0x52, 0x51,
        0x58, 0x4F, 0x4E, 0x59, 0x44, 0x45, 0x49, 0x4A, 0x50, 0x53, 0x4B]) = true := by decide +kernel

/-- 95 part 2.7 G7: rejected for ever at position 2. -/
theorem test_genref_G7 : holds (exec .genref ((blank 0).withEntropyIn (List.replicate 5 1))) (fun t =>
    t.respOut = [] ∧ t.busy = .genRefl 2 3) = true := by decide

/-! ## A step -/

/-- The command of a table word is the next step's: `LDROT` with a key of zero bytes (R121: no letters). -/
theorem test_step_fetch : outcome (step (State.reset.withFetchWord 8 0x20)) =
    some ([[0x01]], List.replicate 16 0) := by decide +kernel

/-- 95 part 2.8: 11 41 is one illegal command; the next is 60. -/
theorem test_step_illegal : holds (step ((blank 1).withCmdIn [0x11, 0x41, 0x60])) (fun t =>
    t.respOut = [[0x06]] ∧ t.cmdIn = [0x60]) = true := by decide

/-- 70_reset R180, R181: reset in the middle of a generate command, no response, ports empty. -/
theorem test_step_reset : step ((((((blank 1).withBusy (.genRotor 0 3 7)).withResetIn true).withCmdIn [0x60]).withEntropyIn
    [1]).withRespOut [[0x00]]) = .next (blank 1) := by rfl

/-- 70_reset R185: a run whose last command has not ended has no final state either, and the dead end of
41_generate R116 (b) is such a run; with all its draws answered the same run ends. -/
theorem test_run_end :
    notBegun (runCommands [.genrot 0, .rdsh 0] (blank 1)) = some [.rdsh 0] ∧
    notBegun (runCommands [.rdsh 0, .genref] (blank 1)) = some [] ∧
    notBegun (runCommands [.genrot 0, .rdsh 0] ((blank 1).withEntropyIn (List.replicate 24 1 ++ [0, 7, 25]))) =
      some [.rdsh 0] ∧
    isEnded (runCommands [.genrot 0, .rdsh 0] ((blank 1).withEntropyIn (List.replicate 26 1))) = true := by
  decide +kernel

/-- 30_encoding R82: the assembler text (95 part 3, P1 step 2 and P4 step 1). -/
theorem test_asm : asmText (.enc 0x41) = "ENC 'A'" ∧ asmText (.enc 0xC1) = "ENC 0xC1" ∧
    asmText (.ldrot 0 kInc) = "LDROT 0, \"BCDEFGHIJKLMNOPQRSTUVWXYZA\"" := by decide +kernel

/-! ## Witnesses: for each statement with hypotheses, a case that meets them all -/

theorem witness_EncodedCommandDecodesToItself : (Instr.ldrot 15 kInc).wf = true := by decide

theorem witness_DecodedBytesAreTheEncoding : decode (0x2F :: kInc) = .command (.ldrot 15 kInc) [] := by decide

theorem witness_IllegalHeaderIsRefused :
    (∃ (s : State) (h : Byte) (tl : List Byte), Ready s ∧ s.cmdIn = h :: tl ∧ IllegalHeader h ∧
      lengthByOp h ≤ tl.length + 1) ∧
    (∃ (h : Byte) (tl : List Byte), ¬ IllegalHeader h ∧ lengthByOp h ≤ tl.length + 1) :=
  ⟨⟨(blank 1).withCmdIn (0x31 :: kR), 0x31, kR, by decide⟩, ⟨0x90, [], by decide⟩⟩

theorem witness_FramingNeverDependsOnStatus :
    (∃ s : State, Ready s ∧ s.cmdIn = []) ∧
    (∃ (s : State) (h : Byte) (tl : List Byte), Ready s ∧ s.cmdIn = h :: tl ∧ tl.length + 1 < lengthByOp h) ∧
    (∃ (s t : State) (h : Byte) (tl : List Byte), Ready s ∧ s.cmdIn = h :: tl ∧ lengthByOp h ≤ tl.length + 1 ∧
      step s = .next t) := by
  refine ⟨⟨blank 1, by decide⟩, ⟨(blank 1).withCmdIn (0x30 :: kR.tail), 0x30, kR.tail, by decide⟩, ?_⟩
  obtain ⟨t, ht, -⟩ := exists_of_holds (o := step ((blank 1).withCmdIn (0x30 :: kR))) (P := fun _ => true)
    (by decide +kernel)
  exact ⟨_, t, 0x30, kR, by decide, by decide, by decide, ht⟩

theorem witness_RotorSelectOutOfRange :
    ∃ (s : State) (h : Byte) (tl : List Byte), Ready s ∧ s.cmdIn = h :: tl ∧ RotorHeader h ∧
      s.rotors.length ≤ h.toNat % 16 ∧ lengthByOp h ≤ tl.length + 1 :=
  ⟨(blank 1).withCmdIn (0x21 :: kInc), 0x21, kInc, by decide⟩

theorem witness_StepRunsTheDecodedCommand :
    ∃ (s : State) (i : Instr) (rest : List Byte), Ready s ∧ decode s.cmdIn = .command i rest :=
  ⟨(blank 1).withCmdIn [0x60, 0x10], .rdsh 0, [0x10], by decide⟩

/-- A stream that ends (`GENROT` finds its answers), one whose `GENROT` has not ended, and a drawless one. -/
theorem witness_CommandStreamRunsInOrder :
    (∃ (s t : State), Ready s ∧ s.cmdIn = assemble [.genrot 0, .rdsh 0] ∧ ([.genrot 0, .rdsh 0] : List Instr).all
      Instr.wf = true ∧ runCommands [.genrot 0, .rdsh 0] (s.withCmdIn []) = .ended t) ∧
    (∃ (s t : State), Ready s ∧ s.cmdIn = assemble [.genrot 0, .rdsh 0] ∧
      runCommands [.genrot 0, .rdsh 0] (s.withCmdIn []) = .unended t [.rdsh 0]) ∧
    (blank 1).busy = .idle ∧ ([.ldrot 0 kInc, .enc 0x41, .rdsh 0] : List Instr).all drawless = true := by
  obtain ⟨t, h⟩ := exists_of_ended (o := runCommands [.genrot 0, .rdsh 0]
    ((blank 1).withEntropyIn (List.replicate 26 1))) (by decide +kernel)
  obtain ⟨u, h'⟩ := exists_of_unended (o := runCommands [.genrot 0, .rdsh 0] (blank 1)) (rest := [.rdsh 0]) (by decide)
  exact ⟨⟨((blank 1).withEntropyIn (List.replicate 26 1)).withCmdIn [0x80, 0x60], t, by decide, by decide, by decide, h⟩,
    ⟨(blank 1).withCmdIn [0x80, 0x60], u, by decide, by decide, h'⟩, by decide, by decide⟩

/-- A command answered, and a generate command that waits. -/
theorem witness_OneResponsePerCommand :
    (∃ s t : State, s.resetIn = false ∧ step s = .next t ∧ t.respOut ≠ s.respOut) ∧
    (∃ s t : State, s.resetIn = false ∧ step s = .next t ∧ t.busy ≠ .idle) := by
  obtain ⟨t, h, p⟩ := exists_of_holds (o := step ((blank 1).withCmdIn [0x60]))
    (P := fun t => decide (t.respOut ≠ [])) (by decide)
  obtain ⟨u, h', p'⟩ := exists_of_holds (o := step ((blank 1).withCmdIn [0x80]))
    (P := fun t => decide (t.busy ≠ .idle)) (by decide)
  exact ⟨⟨_, t, rfl, h, of_decide_eq_true p⟩, ⟨_, u, rfl, h', of_decide_eq_true p'⟩⟩

theorem witness_StatusesOfEachCommand :
    ∃ (i : Instr) (s t : State) (st : Status) (p : List Byte),
      exec i s = .next t ∧ t.respOut = s.respOut ++ [st.code :: p] := by
  obtain ⟨t, h, p⟩ := exists_of_holds (o := exec (.ldref kInc) (blank 1))
    (P := fun t => decide (t.respOut = [[0x03]])) (by decide +kernel)
  exact ⟨.ldref kInc, blank 1, t, .notInvolution, [], h, of_decide_eq_true p⟩

theorem witness_RefusalChangesNothing :
    (∃ (i : Instr) (s t : State), exec i s = .next t ∧ t.respOut = s.respOut ++ [[Status.tableInvalid.code]]) ∧
    (∃ (i : Instr) (s t : State), exec i s = .next t ∧ t.respOut = s.respOut ++ [[Status.badRotorSelect.code]]) := by
  obtain ⟨t, h, p⟩ := exists_of_holds (o := exec (.enc 0x41) (blank 1))
    (P := fun t => decide (t.respOut = [[0x04]])) (by decide)
  obtain ⟨u, h', p'⟩ := exists_of_holds (o := exec (.genrot 1) (blank 1))
    (P := fun t => decide (t.respOut = [[0x05]])) (by decide)
  exact ⟨⟨_, _, t, h, of_decide_eq_true p⟩, ⟨_, _, u, h', of_decide_eq_true p'⟩⟩

theorem witness_LettersAndIndices : isLetter 0x40 = false ∧ isLetter 0x5A = true ∧ isLetter 0x7A = true := by decide

theorem witness_EncPassesNonLettersThrough : isLetter 0xC1 = false := by decide

theorem witness_EncRefusesInvalidTables :
    isLetter 0x41 = true ∧ (blank 0).reflValid = false ∧
    (∃ ρ ∈ ((loaded [kA] kR).withRotors [Rotor.blank]).rotors, ρ.valid = false) ∧
    ((loaded [kA] kR).withRotors [Rotor.blank]).reflValid = true := by decide +kernel

/-- K_INC and K_X1 as maps. -/
theorem witness_EncLetterResult :
    isLetter 0x41 = true ∧ (loaded [kInc] kX1).reflValid = true ∧
    (∀ ρ ∈ (loaded [kInc] kX1).rotors, ρ.valid = true) ∧
    (∀ (k : Nat) (ρ : Rotor), (loaded [kInc] kX1).rotors[k]? = some ρ →
      ∀ i, ρ.fwd.read i = some (i + 1) ∧ ρ.inv.read i = some (i - 1)) ∧
    (∀ i, (loaded [kInc] kX1).refl.read i = some (if i.val % 2 = 0 then i + 1 else i - 1)) := by
  refine ⟨by decide, by decide, by decide, fun k ρ h => ?_, by decide +kernel⟩
  have hall : ∀ σ ∈ (loaded [kInc] kX1).rotors, ∀ i, σ.fwd.read i = some (i + 1) ∧ σ.inv.read i = some (i - 1) := by
    decide +kernel
  exact hall ρ (List.mem_of_getElem? h)

theorem witness_EncFoldsCase : (0x61 : Byte).toNat = 0x61 ∧ (0x7A : Byte).toNat = 0x7A := by decide

/-- An engine with rotors and one without (also for `Reciprocity` and `OdometerProperty`). -/
theorem witness_LetterMapIsAPairing :
    (loaded [kA, kB] kR).Inv ∧ (loaded [kA, kB] kR).tablesValid = true ∧
    (∀ ρ ∈ (loaded [kA, kB] kR).rotors, ρ.Exact ∧ ρ.shift = 0) ∧
    (loaded [] kRev).Inv ∧ (loaded [] kRev).tablesValid = true := by decide +kernel

theorem witness_Reciprocity :
    ((withShifts (loaded [kA, kB] kR) [25, 3]).Inv ∧
      (withShifts (loaded [kA, kB] kR) [25, 3]).tablesValid = true) ∧
    (withShifts (loaded [kA, kB] kR) [25, 3]).busy = .idle ∧
    (∃ t : State, exec (.rstsh 0) (withShifts (blank 1) [5]) = .next t ∧
      t.rotors.map (fun ρ => ρ.shift.val) = [0]) := by
  obtain ⟨t, h, p⟩ := exists_of_holds (o := exec (.rstsh 0) (withShifts (blank 1) [5]))
    (P := fun t => decide (t.rotors.map (fun ρ => ρ.shift.val) = [0])) (by decide)
  exact ⟨by decide +kernel, rfl, t, h, of_decide_eq_true p⟩

theorem witness_OdometerProperty :
    (loaded [kA, kB] kR).Inv ∧ (loaded [kA, kB] kR).tablesValid = true ∧
    (∀ ρ ∈ (loaded [kA, kB] kR).rotors, ρ.shift = 0) := by decide +kernel

/-- For `RstshResult` and `RdshResult`: an invalid rotor, the shift at its greatest value. -/
theorem witness_RstshResult : (withShifts (blank 1) [25]).rotors[0]? = some (Rotor.blank.withShift 25) ∧
    (blank 1).rotors.length ≤ 1 := by decide

theorem witness_RdshResult : (withShifts (blank 16) (List.replicate 16 25)).rotors[15]? =
    some (Rotor.blank.withShift 25) ∧ (blank 0).rotors.length ≤ 0 := by decide

theorem witness_RstallResult : (blank 0).busy = .idle ∧ (withShifts (blank 16) (List.replicate 16 25)).busy = .idle := by
  decide

theorem witness_LdrotResult : 0 < (blank 1).rotors.length ∧ RotorKey kA := by decide +kernel

/-- Both kinds of failure, at positions 0 and 25. -/
theorem witness_LdrotFailure :
    (blank 1).rotors[0]? = some Rotor.blank ∧
    (GoodBefore (0x31 :: kA.tail) 0 ∧ ¬ KeyLetter (0x31 :: kA.tail) 0) ∧
    (GoodBefore (kInc.take 25 ++ [0x20]) 25 ∧ ¬ KeyLetter (kInc.take 25 ++ [0x20]) 25) ∧
    (GoodBefore (kInc.take 25 ++ [0x42]) 25 ∧
      ∃ i : Index, i < 25 ∧ keyIndex (kInc.take 25 ++ [0x42]) i = keyIndex (kInc.take 25 ++ [0x42]) 25) := by
  decide +kernel

theorem witness_LdrefResult : ReflectorKey kR := by decide +kernel

theorem witness_LdrefFailure :
    ((∀ i : Index, i < 24 → KeyLetter (kX1.take 24 ++ [0x20, 0x59]) i) ∧
      ¬ KeyLetter (kX1.take 24 ++ [0x20, 0x59]) 24) ∧
    ((∀ i : Index, i < 0 → KeyLetter (0x31 :: kX1.tail) i) ∧ ¬ KeyLetter (0x31 :: kX1.tail) 0) ∧
    ((∀ i : Index, KeyLetter kInc i) ∧ ¬ ReflectorKey kInc) := by decide +kernel

/-- A valid rotor and reflector with their maps; an invalid rotor and reflector. -/
theorem witness_ReadBackResult :
    (∃ ρ : Rotor, (loaded [kInc] kRev).rotors[0]? = some ρ ∧ ρ.valid = true ∧ ∀ i, ρ.fwd.read i = some (i + 1)) ∧
    ((loaded [kInc] kRev).reflValid = true ∧ ∀ i, (loaded [kInc] kRev).refl.read i = some (25 - i)) ∧
    ((blank 1).rotors[0]? = some Rotor.blank ∧ Rotor.blank.valid = false) ∧ (blank 1).reflValid = false :=
  ⟨⟨Rotor.ofKey kInc, by decide +kernel⟩, by decide +kernel, by decide, by decide⟩

/-- Clauses 1 and 3 (a key loads), 2 and 4 (a table is read back from a state that keeps the invariant). -/
theorem witness_KeyCodecLaws :
    (∃ t : State, kA.length = 26 ∧ exec (.ldrot 0 kA) (blank 1) = .next t ∧
      t.respOut = (blank 1).respOut ++ [[0x00]]) ∧
    (∃ t : State, (loaded [kA] kR).Inv ∧ exec (.rdrot 0) (loaded [kA] kR) = .next t ∧
      t.respOut = (loaded [kA] kR).respOut ++ [0x00 :: kA]) ∧
    (∃ t : State, kR.length = 26 ∧ exec (.ldref kR) (blank 1) = .next t ∧
      t.respOut = (blank 1).respOut ++ [[0x00]]) ∧
    (∃ t : State, (loaded [kA] kR).Inv ∧ exec .rdref (loaded [kA] kR) = .next t ∧
      t.respOut = (loaded [kA] kR).respOut ++ [0x00 :: kR]) ∧
    0 < (blank 1).rotors.length := by
  have hi : (loaded [kA] kR).Inv := by decide +kernel
  obtain ⟨t1, h1, p1⟩ := exists_of_holds (o := exec (.ldrot 0 kA) (blank 1))
    (P := fun t => decide (t.respOut = [[0x00]])) (by decide +kernel)
  obtain ⟨t2, h2, p2⟩ := exists_of_holds (o := exec (.rdrot 0) (loaded [kA] kR))
    (P := fun t => decide (t.respOut = [0x00 :: kA])) (by decide +kernel)
  obtain ⟨t3, h3, p3⟩ := exists_of_holds (o := exec (.ldref kR) (blank 1))
    (P := fun t => decide (t.respOut = [[0x00]])) (by decide +kernel)
  obtain ⟨t4, h4, p4⟩ := exists_of_holds (o := exec .rdref (loaded [kA] kR))
    (P := fun t => decide (t.respOut = [0x00 :: kR])) (by decide +kernel)
  exact ⟨⟨t1, rfl, h1, of_decide_eq_true p1⟩, ⟨t2, hi, h2, of_decide_eq_true p2⟩,
    ⟨t3, rfl, h3, of_decide_eq_true p3⟩, ⟨t4, hi, h4, of_decide_eq_true p4⟩, by decide⟩

/-- The failed load, and a run after it that reads, encrypts and loads every other table. -/
theorem witness_FailedLoadPoisonsTheTable :
    (∃ t u : State, 0 < (loaded [kA, kB] kR).rotors.length ∧ ¬ RotorKey (0x31 :: kA.tail) ∧
      exec (.ldrot 0 (0x31 :: kA.tail)) (loaded [kA, kB] kR) = .next t ∧ isLetter 0x41 = true ∧
      runCommands [.rstsh 0, .ldrot 1 kC, .ldref kX1, .enc 0x41, .genrot 2] t = .ended u) ∧
    (∃ t u : State, ¬ ReflectorKey kInc ∧ exec (.ldref kInc) (loaded [kA] kR) = .next t ∧ isLetter 0x41 = true ∧
      runCommands [.ldrot 0 kC, .rdref, .enc 0x41] t = .ended u) := by
  obtain ⟨t, h, p⟩ := exists_of_holds (o := exec (.ldrot 0 (0x31 :: kA.tail)) (loaded [kA, kB] kR))
    (P := fun t => isEnded (runCommands [.rstsh 0, .ldrot 1 kC, .ldref kX1, .enc 0x41, .genrot 2] t))
    (by decide +kernel)
  obtain ⟨t', h', p'⟩ := exists_of_holds (o := exec (.ldref kInc) (loaded [kA] kR))
    (P := fun t => isEnded (runCommands [.ldrot 0 kC, .rdref, .enc 0x41] t)) (by decide +kernel)
  obtain ⟨u, hu⟩ := exists_of_ended p
  obtain ⟨u', hu'⟩ := exists_of_ended p'
  exact ⟨⟨t, u, by decide, by decide +kernel, h, by decide, hu⟩, ⟨t', u', by decide +kernel, h', by decide, hu'⟩⟩

theorem witness_ProbeFindsTheFirstUnused : ∃ v : Index, Mask.has (0x1FFFFFF : Mask) v = false := by decide

theorem witness_GenerationBegins : (blank 1).rotors[0]? = some Rotor.blank ∧ (blank 1).entropyIn = [] := by decide

/-- A rejected draw, an accepted one below position 25, and one at position 25. -/
theorem witness_OneDrawOfGenrot :
    (∃ s : State, s.resetIn = false ∧ s.busy = .genRotor 0 11 0x7FF ∧ s.rotors[0]? = some Rotor.blank ∧
      s.entropyIn = [9] ∧ probe 9 0x7FF = some 11) ∧
    (∃ s : State, s.resetIn = false ∧ s.busy = .genRotor 0 0 0 ∧ s.rotors[0]? = some Rotor.blank ∧
      s.entropyIn = [25] ∧ probe 25 0 = some 25) ∧
    (∃ s : State, s.resetIn = false ∧ s.busy = .genRotor 0 25 0x3FFFFFE ∧ s.rotors[0]? = some Rotor.blank ∧
      s.entropyIn = [1] ∧ probe 1 0x3FFFFFE = some 0) :=
  ⟨⟨((blank 1).withBusy (.genRotor 0 11 0x7FF)).withEntropyIn [9], by decide⟩,
   ⟨((blank 1).withBusy (.genRotor 0 0 0)).withEntropyIn [25], by decide⟩,
   ⟨((blank 1).withBusy (.genRotor 0 25 0x3FFFFFE)).withEntropyIn [1], by decide⟩⟩

/-- A rejected draw, one that leaves positions, and the last one. -/
theorem witness_OneDrawOfGenref :
    (∃ s : State, s.resetIn = false ∧ s.busy = .genRefl 2 3 ∧ s.entropyIn = [1] ∧ probe 1 3 = some 2) ∧
    (∃ s : State, s.resetIn = false ∧ s.busy = .genRefl 0 0 ∧ s.entropyIn = [5] ∧ probe 5 0 = some 5) ∧
    (∃ s : State, s.resetIn = false ∧ s.busy = .genRefl 24 0xFFFFFF ∧ s.entropyIn = [25] ∧
      probe 25 0xFFFFFF = some 25) :=
  ⟨⟨((blank 1).withBusy (.genRefl 2 3)).withEntropyIn [1], by decide⟩,
   ⟨((blank 1).withBusy (.genRefl 0 0)).withEntropyIn [5], by decide⟩,
   ⟨((blank 1).withBusy (.genRefl 24 0xFFFFFF)).withEntropyIn [25], by decide⟩⟩

/-- K_INC's map, with one answer more. -/
theorem witness_GenrotResult :
    0 < ((blank 1).withEntropyIn ((List.finRange 26).map (fun i : Index => i + 1) ++ [3])).rotors.length ∧
    Function.Injective (fun i : Index => i + 1) ∧ (∀ i : Index, i + 1 ≠ i) ∧
    ((blank 1).withEntropyIn ((List.finRange 26).map (fun i : Index => i + 1) ++ [3])).entropyIn =
      (List.finRange 26).map (fun i : Index => i + 1) ++ [3] :=
  ⟨by decide, fun _ _ h => add_right_cancel h, by decide, rfl⟩

/-- K_REV's map. -/
theorem witness_GenrefResult : ∀ i : Index, (25 - (25 - i) = i) ∧ 25 - i ≠ i := by decide

/-- `GENROT` and `GENREF` that end at once, and each at its last draw after a wait. -/
theorem witness_GeneratedTablesAreGood :
    (∃ t : State, 0 < (blank 1).rotors.length ∧
      exec (.genrot 0) ((blank 1).withEntropyIn (List.replicate 26 1)) = .next t ∧ t.busy = .idle) ∧
    (∃ t : State, exec .genref ((blank 1).withEntropyIn [25, 24, 23, 22, 21, 20, 19, 18, 17, 16, 15, 14, 13]) =
      .next t ∧ t.busy = .idle) ∧
    (∃ s t : State, s.Inv ∧ s.resetIn = false ∧ s.busy = .genRotor 0 25 0x3FFFFFE ∧ step s = .next t ∧
      t.busy = .idle) ∧
    (∃ s t : State, s.Inv ∧ s.resetIn = false ∧ s.busy = .genRefl 12 0x3FFCFFF ∧ step s = .next t ∧
      t.busy = .idle) := by
  obtain ⟨t1, h1, p1⟩ := exists_of_holds (o := exec (.genrot 0) ((blank 1).withEntropyIn (List.replicate 26 1)))
    (P := fun t => decide (t.busy = .idle)) (by decide +kernel)
  obtain ⟨t2, h2, p2⟩ := exists_of_holds
    (o := exec .genref ((blank 1).withEntropyIn [25, 24, 23, 22, 21, 20, 19, 18, 17, 16, 15, 14, 13]))
    (P := fun t => decide (t.busy = .idle)) (by decide +kernel)
  obtain ⟨t3, h3, p3⟩ := exists_of_holds (o := step ((after (exec (.genrot 0) ((blank 1).withEntropyIn
      (List.replicate 25 1))) (blank 1)).withEntropyIn [1]))
    (P := fun t => decide (t.busy = .idle)) (by decide +kernel)
  obtain ⟨t4, h4, p4⟩ := exists_of_holds (o := step ((after (exec .genref ((blank 1).withEntropyIn
      [25, 24, 23, 22, 21, 20, 19, 18, 17, 16, 15, 14])) (blank 1)).withEntropyIn [13]))
    (P := fun t => decide (t.busy = .idle)) (by decide +kernel)
  exact ⟨⟨t1, by decide, h1, of_decide_eq_true p1⟩, ⟨t2, h2, of_decide_eq_true p2⟩,
    ⟨_, t3, by decide +kernel, by decide +kernel, by decide +kernel, h3, of_decide_eq_true p3⟩,
    ⟨_, t4, by decide +kernel, by decide +kernel, by decide +kernel, h4, of_decide_eq_true p4⟩⟩

/-- Two engines with the same draws, whose tables differ before. -/
theorem witness_DrawsDecideTheTable :
    (∃ t t' : State, exec (.genrot 0) ((blank 1).withEntropyIn (List.replicate 26 1)) = .next t ∧
      exec (.genrot 0) ((loaded [kA] kR).withEntropyIn (List.replicate 26 1)) = .next t' ∧ t.busy = .idle) ∧
    (∃ t t' : State, exec .genref ((blank 1).withEntropyIn [1, 3, 5, 7, 9, 11, 13, 15, 17, 19, 21, 23, 25]) = .next t ∧
      exec .genref ((loaded [kA] kR).withEntropyIn [1, 3, 5, 7, 9, 11, 13, 15, 17, 19, 21, 23, 25]) = .next t' ∧
      t.busy = .idle) := by
  obtain ⟨t1, h1, p1⟩ := exists_of_holds (o := exec (.genrot 0) ((blank 1).withEntropyIn (List.replicate 26 1)))
    (P := fun t => decide (t.busy = .idle)) (by decide +kernel)
  obtain ⟨t2, h2, p2⟩ := exists_of_holds
    (o := exec .genref ((blank 1).withEntropyIn [1, 3, 5, 7, 9, 11, 13, 15, 17, 19, 21, 23, 25]))
    (P := fun t => decide (t.busy = .idle)) (by decide +kernel)
  obtain ⟨t3, h3, -⟩ := exists_of_holds
    (o := exec (.genrot 0) ((loaded [kA] kR).withEntropyIn (List.replicate 26 1))) (P := fun _ => true)
    (by decide +kernel)
  obtain ⟨t4, h4, -⟩ := exists_of_holds
    (o := exec .genref ((loaded [kA] kR).withEntropyIn [1, 3, 5, 7, 9, 11, 13, 15, 17, 19, 21, 23, 25]))
    (P := fun _ => true) (by decide +kernel)
  exact ⟨⟨t1, t3, h1, h3, of_decide_eq_true p1⟩, ⟨t2, t4, h2, h4, of_decide_eq_true p2⟩⟩

/-- `GENROT r` half way, as the draws 1, 1, ... have brought it there, with the answers given still to come. -/
def halfGenrot (r : Nat) (s : State) (answers : List Index) : State :=
  (after (exec (.genrot r) (s.withEntropyIn (List.replicate 12 1))) s).withEntropyIn answers

/-- `GENREF` half way, as six draws have brought it there, with the answers given still to come. -/
def halfGenref (s : State) (answers : List Index) : State :=
  (after (exec .genref (s.withEntropyIn [25, 24, 23, 22, 21, 20])) s).withEntropyIn answers

/-- Clauses 1 and 2 with a command that ends and with one that does not. -/
theorem witness_DrawsDecideAResumedTable :
    (∃ s t : State, s.resetIn = false ∧ s.busy = .genRotor 0 12 0x1FFE ∧ step s = .next t ∧ t.busy = .idle) ∧
    (∃ s t : State, s.resetIn = false ∧ s.busy = .genRotor 0 12 0x1FFE ∧ step s = .next t ∧
      t.busy = .genRotor 0 14 0x7FFE) ∧
    (∃ s t : State, s.Inv ∧ s.resetIn = false ∧ s.busy = .genRefl 6 0x3F0003F ∧ step s = .next t ∧ t.busy = .idle) ∧
    (∃ s t : State, s.Inv ∧ s.resetIn = false ∧ s.busy = .genRefl 6 0x3F0003F ∧ step s = .next t ∧
      t.busy = .genRefl 8 0x3FC00FF) := by
  obtain ⟨t1, h1, p1⟩ := exists_of_holds (o := step (halfGenrot 0 (blank 1) (List.replicate 14 1)))
    (P := fun t => decide (t.busy = .idle)) (by decide +kernel)
  obtain ⟨t2, h2, p2⟩ := exists_of_holds (o := step (halfGenrot 0 (blank 1) [1, 1]))
    (P := fun t => decide (t.busy = .genRotor 0 14 0x7FFE)) (by decide +kernel)
  obtain ⟨t3, h3, p3⟩ := exists_of_holds (o := step (halfGenref (blank 1) [19, 18, 17, 16, 15, 14, 13]))
    (P := fun t => decide (t.busy = .idle)) (by decide +kernel)
  obtain ⟨t4, h4, p4⟩ := exists_of_holds (o := step (halfGenref (blank 1) [19, 18]))
    (P := fun t => decide (t.busy = .genRefl 8 0x3FC00FF)) (by decide +kernel)
  exact ⟨⟨_, t1, by decide +kernel, by decide +kernel, h1, of_decide_eq_true p1⟩,
    ⟨_, t2, by decide +kernel, by decide +kernel, h2, of_decide_eq_true p2⟩,
    ⟨_, t3, by decide +kernel, by decide +kernel, by decide +kernel, h3, of_decide_eq_true p3⟩,
    ⟨_, t4, by decide +kernel, by decide +kernel, by decide +kernel, h4, of_decide_eq_true p4⟩⟩

/-- Clause 3: rotor 0 of a blank engine and rotor 1 of a loaded one. -/
theorem witness_DrawsDecideAResumedTable_rotors :
    ∃ (s s' t t' : State) (σ σ' : Rotor), s.Inv ∧ s'.Inv ∧ s.resetIn = false ∧ s'.resetIn = false ∧
      s.busy = .genRotor 0 12 0x1FFE ∧ s'.busy = .genRotor 1 12 0x1FFE ∧ s.rotors[0]? = some σ ∧
      s'.rotors[1]? = some σ' ∧ (∀ i : Index, i < 12 → σ.fwd.read i = σ'.fwd.read i) ∧
      s.entropyIn = s'.entropyIn ∧ step s = .next t ∧ step s' = .next t' ∧ t.busy = .idle := by
  have h0 : ∃ σ, (halfGenrot 0 (blank 1) (List.replicate 14 1)).rotors[0]? = some σ :=
    ⟨_, List.getElem?_eq_getElem (by decide +kernel)⟩
  have h0' : ∃ σ, (halfGenrot 1 (loaded [kA, kB] kR) (List.replicate 14 1)).rotors[1]? = some σ :=
    ⟨_, List.getElem?_eq_getElem (by decide +kernel)⟩
  obtain ⟨σ, hσ⟩ := h0
  obtain ⟨σ', hσ'⟩ := h0'
  have hcells : ∀ i : Index, i < 12 →
      ((halfGenrot 0 (blank 1) (List.replicate 14 1)).rotors[0]?).bind (fun ρ => ρ.fwd.read i) =
      ((halfGenrot 1 (loaded [kA, kB] kR) (List.replicate 14 1)).rotors[1]?).bind (fun ρ => ρ.fwd.read i) := by
    decide +kernel
  rw [hσ, hσ'] at hcells
  obtain ⟨t, h, p⟩ := exists_of_holds (o := step (halfGenrot 0 (blank 1) (List.replicate 14 1)))
    (P := fun t => decide (t.busy = .idle)) (by decide +kernel)
  obtain ⟨t', h', -⟩ := exists_of_holds (o := step (halfGenrot 1 (loaded [kA, kB] kR) (List.replicate 14 1)))
    (P := fun _ => true) (by decide +kernel)
  exact ⟨_, _, t, t', σ, σ', by decide +kernel, by decide +kernel, by decide +kernel, by decide +kernel,
    by decide +kernel, by decide +kernel, hσ, hσ', hcells, by decide +kernel, h, h', of_decide_eq_true p⟩

/-- Clause 4: the reflector of a blank engine and of a loaded one. -/
theorem witness_DrawsDecideAResumedTable_reflectors :
    ∃ s s' t t' : State, s.Inv ∧ s'.Inv ∧ s.resetIn = false ∧ s'.resetIn = false ∧
      s.busy = .genRefl 6 0x3F0003F ∧ s'.busy = .genRefl 6 0x3F0003F ∧
      (∀ i : Index, Mask.has (0x3F0003F : Mask) i = true → s.refl.read i = s'.refl.read i) ∧
      s.entropyIn = s'.entropyIn ∧ step s = .next t ∧ step s' = .next t' ∧ t.busy = .idle := by
  obtain ⟨t, h, p⟩ := exists_of_holds (o := step (halfGenref (blank 1) [19, 18, 17, 16, 15, 14, 13]))
    (P := fun t => decide (t.busy = .idle)) (by decide +kernel)
  obtain ⟨t', h', -⟩ := exists_of_holds (o := step (halfGenref (loaded [kA] kR) [19, 18, 17, 16, 15, 14, 13]))
    (P := fun _ => true) (by decide +kernel)
  exact ⟨_, _, t, t', by decide +kernel, by decide +kernel, by decide +kernel, by decide +kernel, by decide +kernel,
    by decide +kernel, by decide +kernel, by decide +kernel, h, h', of_decide_eq_true p⟩

/-- A draw after which the command goes on, the last draw with an answer more than it asks for, and both
beginnings. -/
theorem witness_DrawsOneAtATime :
    (∃ s t : State, s.resetIn = false ∧ s.busy ≠ .idle ∧ s.entropyIn = [1, 1] ∧
      step (s.withEntropyIn [1]) = .next t ∧ t.busy ≠ .idle) ∧
    (∃ s t : State, s.resetIn = false ∧ s.busy ≠ .idle ∧ s.entropyIn = [1, 7] ∧
      step (s.withEntropyIn [1]) = .next t ∧ t.busy = .idle) ∧
    (∃ s t : State, s.resetIn = false ∧ 0 < s.rotors.length ∧ s.entropyIn = [1, 1] ∧
      exec (.genrot 0) (s.withEntropyIn []) = .next t) ∧
    (∃ s t : State, s.resetIn = false ∧ s.entropyIn = [1, 1] ∧ exec .genref (s.withEntropyIn []) = .next t) := by
  obtain ⟨t1, h1, p1⟩ := exists_of_holds (o := step ((halfGenrot 0 (blank 1) [1, 1]).withEntropyIn [1]))
    (P := fun t => decide (t.busy ≠ .idle)) (by decide +kernel)
  obtain ⟨t2, h2, p2⟩ := exists_of_holds
    (o := step ((((blank 1).withBusy (.genRotor 0 25 0x3FFFFFE)).withEntropyIn [1, 7]).withEntropyIn [1]))
    (P := fun t => decide (t.busy = .idle)) (by decide +kernel)
  obtain ⟨t3, h3, -⟩ := exists_of_holds (o := exec (.genrot 0) (((blank 1).withEntropyIn [1, 1]).withEntropyIn []))
    (P := fun _ => true) (by decide)
  obtain ⟨t4, h4, -⟩ := exists_of_holds (o := exec .genref (((blank 1).withEntropyIn [1, 1]).withEntropyIn []))
    (P := fun _ => true) (by decide)
  exact ⟨⟨halfGenrot 0 (blank 1) [1, 1], t1, by decide +kernel, by decide +kernel, by decide +kernel, h1,
      of_decide_eq_true p1⟩,
    ⟨((blank 1).withBusy (.genRotor 0 25 0x3FFFFFE)).withEntropyIn [1, 7], t2, by decide, by decide, by decide, h2,
      of_decide_eq_true p2⟩,
    ⟨(blank 1).withEntropyIn [1, 1], t3, by decide, by decide, by decide, h3⟩,
    ⟨(blank 1).withEntropyIn [1, 1], t4, by decide, by decide, h4⟩⟩

/-- Both generators with two answers waiting. -/
theorem witness_FrameOfResumedGeneration :
    (∃ s t : State, s.resetIn = false ∧ s.busy = .genRotor 1 0 Mask.empty ∧ s.entropyIn = [1, 2] ∧
      step s = .next t) ∧
    (∃ s t : State, s.resetIn = false ∧ s.busy = .genRefl 0 Mask.empty ∧ s.entropyIn = [1, 3] ∧ step s = .next t) := by
  obtain ⟨t, h, -⟩ := exists_of_holds (o := step (((blank 2).withBusy (.genRotor 1 0 Mask.empty)).withEntropyIn [1, 2]))
    (P := fun _ => true) (by decide +kernel)
  obtain ⟨u, h', -⟩ := exists_of_holds (o := step (((blank 2).withBusy (.genRefl 0 Mask.empty)).withEntropyIn [1, 3]))
    (P := fun _ => true) (by decide +kernel)
  exact ⟨⟨_, t, by decide, by decide, by decide, h⟩, ⟨_, u, by decide, by decide, by decide, h'⟩⟩

/-- 41_generate R116 (a) for both generators, and (b). -/
theorem witness_GenerationCanHang :
    (∃ s : State, s.resetIn = false ∧ s.busy = .genRotor 0 0 Mask.empty ∧ s.entropyIn = [0, 0] ∧
      ∀ d ∈ s.entropyIn, probe d Mask.empty = some 0) ∧
    (∃ s : State, s.resetIn = false ∧ s.busy = .genRefl 2 3 ∧ s.entropyIn = [1, 0] ∧
      ∀ d ∈ s.entropyIn, probe d 3 = some 2) ∧
    (∃ s : State, s.resetIn = false ∧ s.busy = .genRotor 0 25 0x1FFFFFF ∧ s.entropyIn = [7] ∧
      ∀ v : Index, Mask.has (0x1FFFFFF : Mask) v = decide (v ≠ 25)) :=
  ⟨⟨((blank 1).withBusy (.genRotor 0 0 Mask.empty)).withEntropyIn [0, 0], by decide⟩,
   ⟨((blank 1).withBusy (.genRefl 2 3)).withEntropyIn [1, 0], by decide⟩,
   ⟨((blank 1).withBusy (.genRotor 0 25 0x1FFFFFF)).withEntropyIn [7], by decide⟩⟩

theorem witness_BusyEngineTakesNoCommand :
    (∃ s t : State, s.Inv ∧ s.resetIn = false ∧ s.busy = .genRotor 0 0 Mask.empty ∧ step s = .next t ∧
      t.busy ≠ .idle) ∧
    (∃ s t : State, s.Inv ∧ s.resetIn = false ∧ s.busy = .genRefl 0 Mask.empty ∧ step s = .next t ∧
      t.busy ≠ .idle) := by
  obtain ⟨t, h, p⟩ := exists_of_holds (o := step ((blank 1).withBusy (.genRotor 0 0 Mask.empty)))
    (P := fun t => decide (t.busy ≠ .idle)) (by decide)
  obtain ⟨u, h', p'⟩ := exists_of_holds (o := step ((blank 1).withBusy (.genRefl 0 Mask.empty)))
    (P := fun t => decide (t.busy ≠ .idle)) (by decide)
  exact ⟨⟨_, t, by decide +kernel, rfl, rfl, h, of_decide_eq_true p⟩,
    ⟨_, u, by decide +kernel, rfl, rfl, h', of_decide_eq_true p'⟩⟩

/-- For `ResetValues`, `ResetMeetsTheInvariant` and `ReachableStatesAreSafe`: the least and the greatest `N`,
without and with `PRESET`. -/
theorem witness_ResetValues :
    paramsOk { nRotors := 0, preset := none } ∧ paramsOk { nRotors := 16, preset := none } ∧
    paramsOk { nRotors := 0, preset := some { rotorKeys := [], reflKey := kRev } } ∧
    paramsOk { nRotors := 2, preset := some { rotorKeys := [kA, kB], reflKey := kR } } ∧ [kA, kB][1]? = some kB := by
  decide +kernel

theorem witness_ResetMeetsTheInvariant :
    paramsOk { nRotors := 3, preset := some { rotorKeys := [kA, kB, kC], reflKey := kX1 } } := by decide +kernel

theorem witness_ResetEndsEverything : ((blank 1).withResetIn true).resetIn = true := by decide

theorem witness_StepKeepsTheInvariant : ∃ s t : State, s.Inv ∧ step s = .next t := by
  obtain ⟨t, h, -⟩ := exists_of_holds (o := step ((loaded [kA] kR).withCmdIn [0x10, 0x41])) (P := fun _ => true)
    (by decide +kernel)
  exact ⟨_, t, by decide +kernel, h⟩

theorem witness_HostMovesTouchOnlyPorts : (loaded [kA] kR).Inv := by decide +kernel

theorem witness_EveryCommandIsAnswered : (loaded [kA, kB, kC] kR).Inv := by decide +kernel

theorem witness_ReachableStatesAreSafe :
    paramsOk { nRotors := 1, preset := none } ∧
    Reachable { nRotors := 1, preset := none } ((blank 1).hostMove (.send [0x60])) :=
  ⟨by decide, .host _ .reset⟩

theorem witness_ParametersAreFixed : ∃ s t : State, step s = .next t := ⟨blank 1, blank 1, rfl⟩

/-- The three kinds of writer: reset, the end of a generate command, `ENC` with a carry into rotor 1. -/
theorem witness_WritersOfShift :
    (∃ s t : State, step s = .next t ∧ s.resetIn = true ∧
      (s.rotors.map (fun ρ => ρ.shift.val), t.rotors.map (fun ρ => ρ.shift.val)) = ([5], [0])) ∧
    (∃ s t : State, step s = .next t ∧ s.resetIn = false ∧ s.busy ≠ .idle ∧
      (s.rotors.map (fun ρ => ρ.shift.val), t.rotors.map (fun ρ => ρ.shift.val)) = ([7], [0])) ∧
    (∃ s t : State, step s = .next t ∧ Ready s ∧
      (s.rotors.map (fun ρ => ρ.shift.val), t.rotors.map (fun ρ => ρ.shift.val)) = ([25, 3], [0, 4])) := by
  obtain ⟨t, h, p⟩ := exists_of_holds (o := step ((withShifts (blank 1) [5]).withResetIn true))
    (P := fun t => decide (t.rotors.map (fun ρ => ρ.shift.val) = [0])) (by decide)
  obtain ⟨u, h', p'⟩ := exists_of_holds (o := step (((withShifts (blank 1) [7]).withBusy
      (.genRotor 0 0 Mask.empty)).withEntropyIn (List.replicate 26 1)))
    (P := fun t => decide (t.rotors.map (fun ρ => ρ.shift.val) = [0])) (by decide +kernel)
  obtain ⟨v, h'', p''⟩ := exists_of_holds (o := step ((withShifts (loaded [kA, kB] kR) [25, 3]).withCmdIn [0x10, 0x61]))
    (P := fun t => decide (t.rotors.map (fun ρ => ρ.shift.val) = [0, 4])) (by decide +kernel)
  exact ⟨⟨_, t, h, rfl, by rw [of_decide_eq_true p]; decide⟩,
    ⟨_, u, h', rfl, by decide, by rw [of_decide_eq_true p']; decide⟩,
    ⟨_, v, h'', by decide, by rw [of_decide_eq_true p'']; decide⟩⟩

/-- Writers of tables: reset of loaded tables, a resumed `GENROT` and `GENREF` with two answers waiting, the load
commands on the port; and the load commands themselves. -/
theorem witness_WritersOfTables :
    (∃ s t : State, s.resetIn = true ∧ step s = .next t ∧ s.rotors ≠ t.rotors ∧ t.reflValid ≠ s.reflValid) ∧
    (∃ s t : State, s.resetIn = false ∧ s.busy = .genRotor 0 0 Mask.empty ∧ s.entropyIn = [1, 2] ∧
      step s = .next t ∧ t.rotors.map (fun ρ => (ρ.fwd.read 0, ρ.fwd.read 1)) = [(some 1, some 2)]) ∧
    (∃ s t : State, s.resetIn = false ∧ s.busy = .genRefl 0 Mask.empty ∧ s.entropyIn = [1, 3] ∧
      step s = .next t ∧ t.refl ≠ s.refl) ∧
    (∃ s t : State, Ready s ∧ s.cmdIn = encode (.ldrot 0 kInc) ∧ step s = .next t ∧
      t.rotors.map (fun ρ => ρ.fwd.read 0) = [some 1]) ∧
    (∃ s t : State, Ready s ∧ s.cmdIn = encode (.ldref kR) ∧ step s = .next t ∧ t.refl ≠ s.refl) ∧
    (∃ t : State, exec (.ldrot 0 kInc) (blank 1) = .next t ∧
      t.rotors.map (fun ρ => ρ.fwd.read 0) = [some 1]) ∧
    (∃ t : State, exec (.ldref kR) (blank 1) = .next t ∧ t.reflValid ≠ (blank 1).reflValid) := by
  obtain ⟨t, h, p⟩ := exists_of_holds (o := exec (.ldrot 0 kInc) (blank 1))
    (P := fun t => decide (t.rotors.map (fun ρ => ρ.fwd.read 0) = [some 1])) (by decide +kernel)
  obtain ⟨u, h', p'⟩ := exists_of_holds (o := exec (.ldref kR) (blank 1))
    (P := fun t => decide (t.reflValid ≠ false)) (by decide +kernel)
  obtain ⟨t1, h1, p1⟩ := exists_of_holds (o := step (((blank 1).withBusy (.genRotor 0 0 Mask.empty)).withEntropyIn
    [1, 2])) (P := fun t => decide (t.rotors.map (fun ρ => (ρ.fwd.read 0, ρ.fwd.read 1)) = [(some 1, some 2)]))
    (by decide)
  obtain ⟨t2, h2, p2⟩ := exists_of_holds (o := step (((blank 1).withBusy (.genRefl 0 Mask.empty)).withEntropyIn
    [1, 3])) (P := fun t => decide (t.refl ≠ [])) (by decide)
  obtain ⟨t3, h3, p3⟩ := exists_of_holds (o := step ((blank 1).withCmdIn (encode (.ldrot 0 kInc))))
    (P := fun t => decide (t.rotors.map (fun ρ => ρ.fwd.read 0) = [some 1])) (by decide +kernel)
  obtain ⟨t4, h4, p4⟩ := exists_of_holds (o := step ((blank 1).withCmdIn (encode (.ldref kR))))
    (P := fun t => decide (t.refl ≠ [])) (by decide +kernel)
  exact ⟨⟨((((blank 1).withRotors [Rotor.ofKey kA]).withReflValid true).withResetIn true), blank 1, rfl, rfl,
      by decide +kernel, by decide⟩,
    ⟨_, t1, by decide, by decide, by decide, h1, of_decide_eq_true p1⟩,
    ⟨_, t2, by decide, by decide, by decide, h2, of_decide_eq_true p2⟩,
    ⟨(blank 1).withCmdIn (encode (.ldrot 0 kInc)), t3, by decide, by decide, h3, of_decide_eq_true p3⟩,
    ⟨(blank 1).withCmdIn (encode (.ldref kR)), t4, by decide, by decide, h4, of_decide_eq_true p4⟩,
    ⟨t, h, of_decide_eq_true p⟩, ⟨u, h', of_decide_eq_true p'⟩⟩

theorem witness_FrameOfEnc :
    (∃ t : State, exec (.enc 0x5A) (loaded [kA] kR) = .next t) ∧
    (∃ t : State, exec (.enc 0x20) (blank 1) = .next t ∧ isLetter 0x20 = false) ∧
    (∃ t : State, exec (.enc 0x5A) (blank 1) = .next t ∧ (blank 1).tablesValid = false) := by
  obtain ⟨t, h, -⟩ := exists_of_holds (o := exec (.enc 0x5A) (loaded [kA] kR)) (P := fun _ => true)
    (by decide +kernel)
  exact ⟨⟨t, h⟩, ⟨_, rfl, by decide⟩, ⟨_, rfl, by decide⟩⟩

theorem witness_ReadsHaveNoSideEffect :
    (∃ t : State, exec (.rdrot 0) (loaded [kA] kR) = .next t) ∧ (∃ t : State, exec .rdref (loaded [kA] kR) = .next t) ∧
    (∃ t : State, exec (.rdsh 0) (loaded [kA] kR) = .next t) ∧
    (∃ (t : State) (ρ : Rotor), isLetter 0x41 = true ∧ (loaded [kA] kR).tablesValid = true ∧
      (loaded [kA] kR).rotors[0]? = some ρ ∧ exec (.enc 0x41) (loaded [kA] kR) = .next t) ∧
    (∃ t : State, isLetter 0x31 = false ∧ exec (.enc 0x31) (loaded [kA] kR) = .next t) := by
  obtain ⟨t1, h1, -⟩ := exists_of_holds (o := exec (.rdrot 0) (loaded [kA] kR)) (P := fun _ => true)
    (by decide +kernel)
  obtain ⟨t2, h2, -⟩ := exists_of_holds (o := exec .rdref (loaded [kA] kR)) (P := fun _ => true)
    (by decide +kernel)
  obtain ⟨t3, h3, -⟩ := exists_of_holds (o := exec (.rdsh 0) (loaded [kA] kR)) (P := fun _ => true)
    (by decide +kernel)
  obtain ⟨t4, h4, -⟩ := exists_of_holds (o := exec (.enc 0x41) (loaded [kA] kR)) (P := fun _ => true)
    (by decide +kernel)
  exact ⟨⟨t1, h1⟩, ⟨t2, h2⟩, ⟨t3, h3⟩, ⟨t4, Rotor.ofKey kA, by decide, by decide, rfl, h4⟩, ⟨_, by decide, rfl⟩⟩

theorem witness_FrameOfRotorCommands :
    (∃ t : State, exec (.ldrot 1 kInc) (blank 2) = .next t) ∧ (∃ t : State, exec (.rstsh 1) (blank 2) = .next t) ∧
    (∃ t : State, exec (.genrot 1) ((blank 2).withEntropyIn [1, 2]) = .next t) := by
  obtain ⟨t1, h1, -⟩ := exists_of_holds (o := exec (.ldrot 1 kInc) (blank 2)) (P := fun _ => true) (by decide +kernel)
  obtain ⟨t2, h2, -⟩ := exists_of_holds (o := exec (.rstsh 1) (blank 2)) (P := fun _ => true) (by decide +kernel)
  obtain ⟨t3, h3, -⟩ := exists_of_holds (o := exec (.genrot 1) ((blank 2).withEntropyIn [1, 2])) (P := fun _ => true)
    (by decide +kernel)
  exact ⟨⟨t1, h1⟩, ⟨t2, h2⟩, ⟨t3, h3⟩⟩

theorem witness_FrameOfReflectorCommands :
    (∃ t : State, exec (.ldref kR) (blank 2) = .next t) ∧
    (∃ t : State, exec .genref ((blank 2).withEntropyIn [1, 2]) = .next t) := ⟨⟨_, rfl⟩, ⟨_, rfl⟩⟩

end Sys2Proof.Tests
end

/-!
The parameters of an engine are fixed (spec 00_scope R11, R12; 10_state R34): `SameParams` says it of two states, and
each kind of step keeps it.
-/

namespace Sys2Proof.Machine

/-- `t` is a state of an engine with the parameters of `s`: the same `NROTORS` and the same `PRESET`. -/
structure SameParams (s t : State) : Prop where
  length : t.rotors.length = s.rotors.length
  preset : t.preset = s.preset

theorem SameParams.rfl {s : State} : SameParams s s := ⟨Eq.refl _, Eq.refl _⟩

theorem SameParams.trans {s t u : State} (h : SameParams s t) (k : SameParams t u) : SameParams s u :=
  ⟨k.length.trans h.length, k.preset.trans h.preset⟩

theorem SameParams.emit {s t : State} (h : SameParams s t) (bytes : List Byte) : SameParams s (t.emit bytes) :=
  ⟨h.length, h.preset⟩

theorem sameParams_setRotor (s : State) (r : Nat) (ρ : Rotor) : SameParams s (s.setRotor r ρ) :=
  ⟨List.length_set, rfl⟩

theorem sameParams_cascade (s : State) : SameParams s (s.withRotors (cascade s.rotors)) :=
  ⟨length_cascade s.rotors, rfl⟩

@[simp] theorem length_bankAtReset (p : Params) : (bankAtReset p).length = p.nRotors := by
  simp [bankAtReset]

/-- Reset makes its bank for the engine's own parameters (10_state R35). -/
theorem sameParams_applyReset (s : State) : SameParams s s.applyReset :=
  ⟨length_bankAtReset _, rfl⟩

/-- A run of draws, whatever command is in progress. -/
theorem sameParams_runDraws (l : List Index) (s : State) : SameParams s (runDraws l s) := by
  cases hb : s.busy with
  | idle => rw [runDraws_idle hb]; exact ⟨rfl, rfl⟩
  | genRotor r pos used => exact ⟨(runDraws_rotor l hb).length, (runDraws_rotor l hb).preset⟩
  | genRefl pos used =>
    exact ⟨congrArg List.length (runDraws_refl l hb).rotors, (runDraws_refl l hb).preset⟩

theorem sameParams_genrotStart (r : Nat) (ρ : Rotor) (s : State) : SameParams s (genrotStart r ρ s) :=
  ⟨List.length_set, rfl⟩

/-- No command changes the parameters. -/
theorem sameParams_exec {i : Instr} {s t : State} (h : exec i s = .next t) : SameParams s t := by
  cases i with
  | enc c =>
    rcases execEnc_cases h with ⟨-, rfl⟩ | ⟨-, -, rfl⟩ | ⟨-, -, x, -, rfl⟩
    · exact SameParams.rfl.emit _
    · exact SameParams.rfl.emit _
    · exact (sameParams_cascade s).emit _
  | ldrot r k =>
    rcases execLdrot_cases h with ⟨-, rfl⟩ | ⟨ρ, -, rfl⟩
    · exact SameParams.rfl.emit _
    · exact (sameParams_setRotor s r _).emit _
  | ldref k => cases (execLdref_eq k s).symm.trans h; exact ⟨rfl, rfl⟩
  | rdrot r =>
    rcases execRdrot_cases h with ⟨-, rfl⟩ | ⟨ρ, -, ⟨-, p, -, rfl⟩ | ⟨-, rfl⟩⟩ <;> exact SameParams.rfl.emit _
  | rdref => rcases readBack_cases h with ⟨-, p, -, rfl⟩ | ⟨-, rfl⟩ <;> exact SameParams.rfl.emit _
  | rdsh r => rcases execRdsh_cases h with ⟨-, rfl⟩ | ⟨ρ, -, rfl⟩ <;> exact SameParams.rfl.emit _
  | rstsh r =>
    rcases execRstsh_cases h with ⟨-, rfl⟩ | ⟨ρ, -, rfl⟩
    · exact SameParams.rfl.emit _
    · exact (sameParams_setRotor s r _).emit _
  | genrot r =>
    rcases execGenrot_cases h with ⟨-, rfl⟩ | ⟨ρ, -, rfl⟩
    · exact SameParams.rfl.emit _
    · exact (sameParams_genrotStart r ρ s).trans (sameParams_runDraws _ _)
  | genref =>
    cases (execGenref_eq s).symm.trans h
    have start : SameParams s (genrefStart s) := ⟨rfl, rfl⟩
    exact start.trans (sameParams_runDraws _ _)

/-- No step changes the parameters: not a reset, not a resumed generate command, not a wait, not a refusal, not a
command. -/
theorem sameParams_step {s t : State} (h : step s = .next t) : SameParams s t := by
  rcases step_cases h with ⟨-, rfl⟩ | ⟨-, -, rfl⟩ | ⟨-, -, -, rfl⟩ | ⟨-, -, rest, -, rfl⟩ | ⟨-, -, i, rest, -, hx⟩
  · exact sameParams_applyReset s
  · exact sameParams_runDraws s.entropyIn s
  · exact SameParams.rfl
  · exact ⟨rfl, rfl⟩
  · have taken : SameParams s (s.withCmdIn rest) := ⟨rfl, rfl⟩
    exact taken.trans (sameParams_exec hx)

/-- Settles O49: every kind of step keeps the two parameters. -/
theorem parametersAreFixed : Obligations.ParametersAreFixed := fun _ _ h =>
  ⟨(sameParams_step h).length, (sameParams_step h).preset⟩

end Sys2Proof.Machine

/-!
The invariant of the reachable states (spec 10_state R25, R28, R35, R36): reset meets it, every command of an idle
engine keeps it, and a state that meets it has an answer to every command.
-/

namespace Sys2Proof.Machine

/-! ### The tables a load leaves -/

@[simp] theorem loadedRotor_fwd (ρ : Rotor) (l : RotorLoad) : (loadedRotor ρ l).fwd = l.fwd := by
  rw [loadedRotor_eq]

@[simp] theorem loadedRotor_inv (ρ : Rotor) (l : RotorLoad) : (loadedRotor ρ l).inv = l.inv := by
  rw [loadedRotor_eq]

@[simp] theorem loadedRotor_valid (ρ : Rotor) (l : RotorLoad) :
    (loadedRotor ρ l).valid = decide (l.status = .ok) := by
  rw [loadedRotor_eq]

@[simp] theorem loadedRotor_shift (ρ : Rotor) (l : RotorLoad) :
    (loadedRotor ρ l).shift = if l.status = .ok then 0 else ρ.shift := by
  rw [loadedRotor_eq]

/-- 26 different indices are all indices, so a good key names every cell of the inverse table. -/
theorem RotorKeyGood.surjective {k : List Byte} (h : RotorKeyGood k) : Function.Surjective (keyIdx k) :=
  Finite.surjective_of_injective fun i j e => h.inj i j e

/-- The tables of a rotor load that ends `OK` are exact inverses (10_state R25). -/
theorem loadedRotor_exact {k : List Byte} {f g : Memory} (h : RotorKeyGood k) (ρ : Rotor) :
    (loadedRotor ρ (loadRotorKey k f g)).Exact := by
  have reads := loadRotorKey_good h f g
  intro i
  obtain ⟨j, rfl⟩ := h.surjective i
  simp only [loadedRotor_fwd, loadedRotor_inv]
  exact ⟨by rw [(reads _).1]; exact (reads _).2, by rw [(reads j).2]; exact (reads j).1⟩

/-- A load, failed or not, leaves the rotor's tables canonical, and exact when the flag is 1. -/
theorem loadedRotor_keeps_ok {ρ : Rotor} (h : ρ.Ok) (k : List Byte) :
    (loadedRotor ρ (loadRotorKey k ρ.fwd ρ.inv)).Ok := by
  obtain ⟨hf, hg, -⟩ := h
  obtain ⟨hf', hg'⟩ := loadRotorKey_wf k hf hg
  refine ⟨by simpa using hf', by simpa using hg', fun hv => loadedRotor_exact ?_ ρ⟩
  exact (loadRotorKey_ok_iff k ρ.fwd ρ.inv).mp (by simpa using hv)

/-- What a good reflector key leaves in the table. -/
theorem loadReflKey_good {k : List Byte} (h : ReflKeyGood k) (m : Memory) (i : Index) :
    (loadReflKey k m).refl.read i = some (keyIdx k i) := by
  rcases loadReflKey_spec k m with ⟨-, reads, -⟩ | ⟨p, -, -, hp, -⟩
  · exact reads i
  · rw [h.letter p] at hp; cases hp

/-- The table of a reflector load that ends `OK` is a pairing (10_state R28). -/
theorem loadReflKey_pairing {k : List Byte} {m : Memory} (h : (loadReflKey k m).status = .ok) :
    Pairing (loadReflKey k m).refl := by
  have good := (loadReflKey_ok_iff k m).mp h
  intro i
  obtain ⟨back, ne⟩ := good.pair i
  simp [loadReflKey_good good, back, ne]

/-- The tables and the flag alone make a rotor good. -/
theorem Rotor.Ok.withShift {ρ : Rotor} (h : ρ.Ok) (v : Index) : (ρ.withShift v).Ok := h

/-! ### The state after reset -/

theorem bankAtReset_getElem? {p : Params} {r : Nat} (h : r < p.nRotors) :
    (bankAtReset p)[r]? = some (rotorAtReset p.preset r) := by
  simp [bankAtReset, h]

theorem mem_bankAtReset {p : Params} {ρ : Rotor} :
    ρ ∈ bankAtReset p ↔ ∃ r < p.nRotors, rotorAtReset p.preset r = ρ := by
  simp [bankAtReset]

theorem rotorAtReset_some {q : Preset} {r : Nat} {k : List Byte} (h : q.rotorKeys[r]? = some k) :
    rotorAtReset (some q) r = Rotor.ofKey k := by
  simp [rotorAtReset, h]

theorem rotorAtReset_shift (pre : Option Preset) (r : Nat) : (rotorAtReset pre r).shift = 0 := by
  unfold rotorAtReset
  split
  · rfl
  · split <;> rfl

theorem Rotor.blank_ok : Rotor.blank.Ok := ⟨Memory.wf_nil, Memory.wf_nil, fun h => nomatch h⟩

/-- `PRESET`'s key for a rotor leaves what `LDROT` leaves of a blank rotor (10_state R35). -/
theorem Rotor.ofKey_eq_loadedRotor {k : List Byte} (h : RotorKeyGood k) :
    Rotor.ofKey k = loadedRotor Rotor.blank (loadRotorKey k [] []) := by
  have ok := (loadRotorKey_ok_iff k [] []).mpr h
  simp [loadedRotor_eq, ok, Rotor.ofKey]

/-- A `PRESET` the spec admits: a good key for each rotor and a good reflector key (00_scope R12). -/
structure PresetGood (q : Preset) (n : Nat) : Prop where
  length : q.rotorKeys.length = n
  rotor : ∀ k ∈ q.rotorKeys, RotorKeyGood k
  refl : (loadReflKey q.reflKey []).status = .ok

theorem PresetGood.of_presetOk {q : Preset} {n : Nat} (h : presetOk (some q) n = true) : PresetGood q n := by
  simp only [presetOk, Bool.and_eq_true, beq_iff_eq, List.all_eq_true, decide_eq_true_eq] at h
  obtain ⟨⟨⟨hlen, hkeys⟩, -⟩, hrefl⟩ := h
  exact ⟨hlen, fun k hk => (loadRotorKey_ok_iff k [] []).mp (hkeys k hk).2, hrefl⟩

/-- A rotor that `PRESET` has a key for. -/
theorem PresetGood.rotorAtReset {q : Preset} {n r : Nat} (h : PresetGood q n) (hr : r < n) :
    ∃ k, q.rotorKeys[r]? = some k ∧ RotorKeyGood k ∧ rotorAtReset (some q) r = Rotor.ofKey k := by
  have key : q.rotorKeys[r]? = some _ := List.getElem?_eq_getElem (h.length ▸ hr)
  exact ⟨_, key, h.rotor _ (List.mem_of_getElem? key), rotorAtReset_some key⟩

theorem rotorAtReset_ok {p : Params} (h : paramsOk p) {r : Nat} (hr : r < p.nRotors) :
    (rotorAtReset p.preset r).Ok := by
  obtain ⟨-, hpre⟩ := h
  cases hq : p.preset with
  | none => exact Rotor.blank_ok
  | some q =>
    rw [hq] at hpre
    obtain ⟨k, -, good, e⟩ := (PresetGood.of_presetOk hpre).rotorAtReset hr
    rw [e, Rotor.ofKey_eq_loadedRotor good]
    exact loadedRotor_keeps_ok Rotor.blank_ok k

/-- The reflector after reset is canonical, and a pairing when the flag is 1 (10_state R28, R35). -/
theorem reflAtReset_ok {pre : Option Preset} {n : Nat} (h : presetOk pre n = true) :
    (reflAtReset pre).wf ∧ (reflValidAtReset pre = true → Pairing (reflAtReset pre)) := by
  cases pre with
  | none => exact ⟨Memory.wf_nil, fun hv => nomatch hv⟩
  | some q =>
    exact ⟨loadReflKey_wf q.reflKey Memory.wf_nil, fun _ => loadReflKey_pairing (PresetGood.of_presetOk h).refl⟩

/-- Settles O43: the bank, the reflector and the parameters of a reset state, one by one. -/
theorem resetMeetsTheInvariant : Obligations.ResetMeetsTheInvariant := by
  intro p hp
  obtain ⟨hn, hpre⟩ := hp
  obtain ⟨hwf, hpair⟩ := reflAtReset_ok hpre
  have rotors : ∀ ρ ∈ (State.resetFor p).rotors, ρ.Ok := by
    intro ρ hρ
    obtain ⟨r, hr, rfl⟩ := mem_bankAtReset.mp hρ
    exact rotorAtReset_ok ⟨hn, hpre⟩ hr
  have length : (State.resetFor p).rotors.length = p.nRotors := length_bankAtReset p
  exact .of_idle rfl (length ▸ hn) rotors hwf hpair (length ▸ hpre)

/-- Settles O44: the model's own parameters, 16 rotors and no `PRESET`, are ones the spec admits. -/
theorem modelResetMeetsTheInvariant : Obligations.ModelResetMeetsTheInvariant :=
  resetMeetsTheInvariant Config.params ⟨le_rfl, rfl⟩

/-- Settles O41: each rotor of the reset bank by its number, with `PRESET` through the load that writes the same. -/
theorem resetValues : Obligations.ResetValues := by
  rintro p ⟨-, hpre⟩
  refine ⟨length_bankAtReset p, ?_, rfl, ?_, ?_⟩
  · intro ρ hρ
    obtain ⟨r, -, rfl⟩ := mem_bankAtReset.mp hρ
    exact rotorAtReset_shift p.preset r
  · intro hnone
    refine ⟨fun ρ hρ => ?_, by simp [State.resetFor, hnone, reflValidAtReset],
      by simp [State.resetFor, hnone, reflAtReset]⟩
    obtain ⟨r, -, rfl⟩ := mem_bankAtReset.mp hρ
    rw [hnone]
    exact ⟨rfl, fun _ => ⟨rfl, rfl⟩⟩
  · intro q hq
    rw [hq] at hpre
    have good := PresetGood.of_presetOk hpre
    refine ⟨fun r k hk => ?_, ?_, ?_, by simp [State.resetFor, hq, reflValidAtReset]⟩
    · have hr : r < p.nRotors := good.length ▸ (List.getElem?_eq_some_iff.mp hk).1
      have blank := bankAtReset_getElem? (p := { nRotors := p.nRotors, preset := none }) hr
      refine ⟨_, execLdrot_some blank k, ?_⟩
      have preset : (State.resetFor p).rotors[r]? = some (Rotor.ofKey k) := by
        rw [← rotorAtReset_some hk, ← hq]; exact bankAtReset_getElem? hr
      rw [preset, Rotor.ofKey_eq_loadedRotor (good.rotor k (List.mem_of_getElem? hk))]
      exact List.getElem?_set_self (by simpa [State.resetFor] using hr)
    · exact ⟨_, execLdref_eq q.reflKey _, by simp [State.resetFor, hq, reflAtReset]⟩
    · intro ρ hρ
      obtain ⟨r, hr, rfl⟩ := mem_bankAtReset.mp hρ
      obtain ⟨k, -, -, e⟩ := good.rotorAtReset hr
      rw [hq, e]; rfl

/-! ### What keeps the invariant -/

theorem State.Inv.rotorsOk {s : State} (h : s.Inv) : ∀ ρ ∈ s.rotors, ρ.Ok := h.2.1

theorem State.Inv.rotorOk {s : State} {r : Nat} {ρ : Rotor} (h : s.Inv) (hr : s.rotors[r]? = some ρ) : ρ.Ok :=
  h.rotorsOk ρ (mem_of_getElem? hr)

theorem State.Inv.reflWf {s : State} (h : s.Inv) : s.refl.wf := h.2.2.1

theorem State.Inv.reflPairing {s : State} (h : s.Inv) : s.reflValid = true → Pairing s.refl := h.2.2.2.1

theorem State.Inv.emit {s : State} (h : s.Inv) (bytes : List Byte) : (s.emit bytes).Inv :=
  h.congr rfl rfl rfl rfl rfl

theorem State.Inv.withCmdIn {s : State} (h : s.Inv) (bytes : List Byte) : (s.withCmdIn bytes).Inv :=
  h.congr rfl rfl rfl rfl rfl

/-- The host's moves are on the ports, of which the invariant says nothing (70_reset R183). -/
theorem State.Inv.hostMove {s : State} (h : s.Inv) (m : HostMove) : (s.hostMove m).Inv := by
  cases m <;> exact h.congr rfl rfl rfl rfl rfl

/-- An idle engine may be given another bank of good rotors. -/
theorem State.Inv.withRotors {s : State} {bank : List Rotor} (h : s.Inv) (hb : s.busy = .idle)
    (hl : bank.length = s.rotors.length) (hbank : ∀ ρ ∈ bank, ρ.Ok) : (s.withRotors bank).Inv := by
  obtain ⟨hn, -, hwf, hpair, -, hpre⟩ := h
  exact .of_idle hb (hl ▸ hn) hbank hwf hpair (hl ▸ hpre)

theorem State.Inv.setRotor {s : State} {ρ : Rotor} (h : s.Inv) (hb : s.busy = .idle) (r : Nat) (hρ : ρ.Ok) :
    (s.setRotor r ρ).Inv :=
  h.withRotors hb List.length_set (forall_mem_set h.rotorsOk hρ)

/-- Stepping the bank moves shifts only (43_cipher R141). -/
theorem State.Inv.cascade {s : State} (h : s.Inv) (hb : s.busy = .idle) :
    (s.withRotors (cascade s.rotors)).Inv :=
  h.withRotors hb (length_cascade s.rotors) (forall_cascade (P := Rotor.Ok) (fun _ v hρ => hρ.withShift v) h.rotorsOk)

/-- An idle engine may be given another reflector, valid only if it is a pairing. -/
theorem State.Inv.withReflector {s : State} {m : Memory} {v : Bool} (h : s.Inv) (hb : s.busy = .idle)
    (hm : m.wf) (hv : v = true → Pairing m) : ((s.withRefl m).withReflValid v).Inv := by
  obtain ⟨hn, hok, -, -, -, hpre⟩ := h
  exact .of_idle hb hn hok hm hv hpre

/-- `GENROT` begins with the flag 0 and no position filled (41_generate R112). -/
theorem genrotStart_inv {s : State} {r : Nat} {ρ : Rotor} (h : s.Inv) (hr : s.rotors[r]? = some ρ) :
    (genrotStart r ρ s).Inv := by
  obtain ⟨hn, hok, hwf, hpair, -, hpre⟩ := h
  obtain ⟨hf, hg, -⟩ := hok ρ (mem_of_getElem? hr)
  have hlt : r < s.rotors.length := (List.getElem?_eq_some_iff.mp hr).1
  have rotors : ∀ σ ∈ (genrotStart r ρ s).rotors, σ.Ok :=
    forall_mem_set hok ⟨hf, hg, fun hv => nomatch hv⟩
  have busy : busyOk (genrotStart r ρ s) = true := by
    have progress := (rotorProgress_iff (invalidateRotor ρ) 0 Mask.empty).mpr (RotorFilled.start _)
    simp only [busyOk, genrotStart, State.withBusy_busy, State.rotor_eq, State.withBusy_rotors,
      State.setRotor_rotors, List.getElem?_set_self hlt, invalidateRotor_valid, Bool.not_false, Bool.true_and]
    exact decide_eq_true progress
  have length := (sameParams_genrotStart r ρ s).length
  exact ⟨length.trans_le hn, rotors, hwf, hpair, busy, by rw [State.nRotors_eq, length]; exact hpre⟩

/-- `GENREF` begins with the flag 0 and no position paired (41_generate R113). -/
theorem genrefStart_inv {s : State} (h : s.Inv) : (genrefStart s).Inv := by
  obtain ⟨hn, hok, hwf, -, -, hpre⟩ := h
  have busy : busyOk (genrefStart s) = true := by
    have progress := (reflProgress_iff s.refl 0 Mask.empty).mpr
      ⟨ReflFilled.start _, fun i hi => absurd hi (Fin.not_lt_zero i), Mask.has_empty 0⟩
    simp only [busyOk, genrefStart, State.withBusy_busy, State.withBusy_reflValid, State.withReflValid_reflValid,
      State.withBusy_refl, State.withReflValid_refl, Bool.not_false, Bool.true_and]
    exact decide_eq_true progress
  exact ⟨hn, hok, hwf, fun hv => (nomatch hv), busy, hpre⟩

/-- Every command an idle engine takes keeps the invariant (10_state R36). -/
theorem exec_inv {i : Instr} {s t : State} (h : s.Inv) (hb : s.busy = .idle) (hx : exec i s = .next t) :
    t.Inv := by
  cases i with
  | enc c =>
    rcases execEnc_cases hx with ⟨-, rfl⟩ | ⟨-, -, rfl⟩ | ⟨-, -, x, -, rfl⟩
    · exact h.emit _
    · exact h.emit _
    · exact (h.cascade hb).emit _
  | ldrot r k =>
    rcases execLdrot_cases hx with ⟨-, rfl⟩ | ⟨ρ, hr, rfl⟩
    · exact h.emit _
    · exact (h.setRotor hb r (loadedRotor_keeps_ok (h.rotorOk hr) k)).emit _
  | ldref k =>
    cases (execLdref_eq k s).symm.trans hx
    exact (h.withReflector hb (loadReflKey_wf k h.reflWf) fun hv =>
      loadReflKey_pairing (of_decide_eq_true hv)).emit _
  | rdrot r =>
    rcases execRdrot_cases hx with ⟨-, rfl⟩ | ⟨ρ, -, ⟨-, p, -, rfl⟩ | ⟨-, rfl⟩⟩ <;> exact h.emit _
  | rdref => rcases readBack_cases hx with ⟨-, p, -, rfl⟩ | ⟨-, rfl⟩ <;> exact h.emit _
  | rdsh r => rcases execRdsh_cases hx with ⟨-, rfl⟩ | ⟨ρ, -, rfl⟩ <;> exact h.emit _
  | rstsh r =>
    rcases execRstsh_cases hx with ⟨-, rfl⟩ | ⟨ρ, hr, rfl⟩
    · exact h.emit _
    · exact (h.setRotor hb r (Rotor.Ok.withShift (h.rotorOk hr) 0)).emit _
  | genrot r =>
    rcases execGenrot_cases hx with ⟨-, rfl⟩ | ⟨ρ, hr, rfl⟩
    · exact h.emit _
    · exact runDraws_inv _ (genrotStart_inv h hr)
  | genref =>
    cases (execGenref_eq s).symm.trans hx
    exact runDraws_inv _ (genrefStart_inv h)

/-- Settles O45: one case for each event of a step. -/
theorem stepKeepsTheInvariant : Obligations.StepKeepsTheInvariant := by
  intro s t h hstep
  rcases step_cases hstep with ⟨-, rfl⟩ | ⟨-, -, rfl⟩ | ⟨-, -, -, rfl⟩ | ⟨-, -, rest, -, rfl⟩ |
    ⟨-, hb, i, rest, -, hx⟩
  · obtain ⟨hn, -, -, -, -, hpre⟩ := h
    exact resetMeetsTheInvariant _ ⟨hn, hpre⟩
  · exact runDraws_inv _ h
  · exact h
  · exact (h.withCmdIn rest).emit _
  · exact exec_inv (h.withCmdIn rest) hb hx

/-! ### Every command is answered -/

/-- A command on one rotor is answered when it is for every rotor of the bank. -/
theorem withRotorOperand_answers {r : Nat} {s : State} {act : Rotor → Host.Outcome State Fault Refusal}
    (h : ∀ ρ ∈ s.rotors, ∃ t, act ρ = .next t) : ∃ t, withRotorOperand r s act = .next t := by
  cases hr : s.rotors[r]? with
  | none => exact ⟨_, withRotorOperand_none hr act⟩
  | some ρ => rw [withRotorOperand_some hr]; exact h ρ (mem_of_getElem? hr)

/-- A table is read back when it holds a value in every cell, or is not valid. -/
theorem readBack_answers {valid : Bool} {m : Memory} (h : valid = true → ∀ i, ∃ v, m.read i = some v)
    (s : State) : ∃ t, readBack valid m s = .next t := by
  cases valid with
  | false => exact ⟨_, readBack_invalid m s⟩
  | true =>
    choose f hf using h rfl
    exact ⟨_, readBack_valid (serialize_eq hf) s⟩

/-- `ENC` of a letter with valid tables steps the bank, whose tables stay exact, and substitutes (43_cipher R146). -/
theorem execEnc_answers {s : State} (h : s.Inv) (c : Byte) : ∃ t, execEnc c s = .next t := by
  by_cases hl : isLetter c = true
  · by_cases hv : s.tablesValid = true
    · obtain ⟨hexact, hpair⟩ := h.tables hv
      obtain ⟨x, hx, -⟩ := substitute_spec (forall_cascade (fun _ _ hρ => hρ) hexact) hpair (letterToIndex c)
      exact ⟨_, execEnc_letter hl hv hx⟩
    · exact ⟨s.raise .tableInvalid, by simp [execEnc, hl, hv]⟩
  · exact ⟨s.respond [c], by simp [execEnc, hl]⟩

/-- Settles O47: the three commands that read cells read tables the invariant makes total; the others read none. -/
theorem everyCommandIsAnswered : Obligations.EveryCommandIsAnswered := by
  intro i s h
  cases i with
  | enc c => exact execEnc_answers h c
  | ldrot r k => exact withRotorOperand_answers fun _ _ => ⟨_, rfl⟩
  | ldref k => exact ⟨_, execLdref_eq k s⟩
  | rdrot r =>
    refine withRotorOperand_answers fun ρ hρ => readBack_answers (fun hv i => ?_) s
    obtain ⟨v, hread, -⟩ := Rotor.Exact.fwd ((h.rotorsOk ρ hρ).2.2 hv) i
    exact ⟨v, hread⟩
  | rdref =>
    refine readBack_answers (fun hv i => ?_) s
    obtain ⟨v, hread, -⟩ := Pairing.read (h.reflPairing hv) i
    exact ⟨v, hread⟩
  | rdsh r => exact withRotorOperand_answers fun _ _ => ⟨_, rfl⟩
  | rstsh r => exact withRotorOperand_answers fun _ _ => ⟨_, rfl⟩
  | genrot r => exact withRotorOperand_answers fun _ _ => ⟨_, rfl⟩
  | genref => exact ⟨_, execGenref_eq s⟩

/-- No step stops the engine in a state that meets the invariant (70_reset R185). -/
theorem step_answers {s : State} (h : s.Inv) : ∃ t, step s = .next t := by
  by_cases hr : s.resetIn = true
  · exact ⟨_, step_reset hr⟩
  · rw [Bool.not_eq_true] at hr
    by_cases hb : s.busy = .idle
    · rw [step_ready hr hb]
      cases decode s.cmdIn with
      | incomplete => exact ⟨_, rfl⟩
      | illegal rest => exact ⟨_, rfl⟩
      | command i rest => exact everyCommandIsAnswered i _ (h.withCmdIn rest)
    · exact ⟨_, step_busy hr hb⟩

theorem sameParams_hostMove (s : State) (m : HostMove) : SameParams s (s.hostMove m) := by
  cases m <;> exact ⟨rfl, rfl⟩

/-- Reset meets the invariant, and steps and moves keep it (10_state R36). -/
theorem Reachable.inv {p : Params} {s : State} (hp : paramsOk p) (h : Reachable p s) : s.Inv := by
  induction h with
  | reset => exact resetMeetsTheInvariant p hp
  | step _ hstep ih => exact stepKeepsTheInvariant _ _ ih hstep
  | host m _ ih => exact ih.hostMove m

/-- Every reachable state is one of the engine it was reset as (00_scope R11, R12). -/
theorem Reachable.sameParams {p : Params} {s : State} (h : Reachable p s) : SameParams (State.resetFor p) s := by
  induction h with
  | reset => exact .rfl
  | step _ hstep ih => exact ih.trans (sameParams_step hstep)
  | host m _ ih => exact ih.trans (sameParams_hostMove _ m)

/-- Settles O48: the invariant by induction over the run, and from it the answer of the next step. -/
theorem reachableStatesAreSafe : Obligations.ReachableStatesAreSafe := by
  intro p s hp h
  have inv := h.inv hp
  exact ⟨inv, h.sameParams.length.trans (length_bankAtReset p), h.sameParams.preset, step_answers inv⟩

end Sys2Proof.Machine

/-!
Who writes a rotor and who writes the reflector (spec 10_state R20, R23, R29, R34; 20_memory R51): what one command,
and then what one step, can do to rotor `k` and to the reflector, each said once; and the frames of `ENC` and of the
commands on one rotor.
-/

namespace Sys2Proof.Machine

open Sys2Proof.Claims

/-! ### The cascade, rotor by rotor -/

/-- A shift register wraps to 0 from 25 only. -/
theorem index_add_one_eq_zero_iff (v : Index) : v + 1 = 0 ↔ v = 25 := add_eq_zero_iff_eq_neg

theorem cascade_cons (ρ : Rotor) (bank : List Rotor) :
    cascade (ρ :: bank) = ρ.withShift (ρ.shift + 1) :: if ρ.shift = 25 then cascade bank else bank := by
  simp only [cascade, Rotor.withShift_shift, nextIndex_eq, index_add_one_eq_zero_iff]
  split <;> rfl

/-- A rotor advances when every rotor below it stands at 25, else it stays (43_cipher R141, 10_state R23). -/
theorem cascade_rotor_cases {bank : List Rotor} {k : Nat} {ρ ρ' : Rotor} (hρ : bank[k]? = some ρ)
    (hρ' : (cascade bank)[k]? = some ρ') :
    ρ' = ρ ∨ (ρ' = ρ.withShift (ρ.shift + 1) ∧ ∀ j σ, j < k → bank[j]? = some σ → σ.shift = 25) := by
  induction bank generalizing k with
  | nil => cases hρ
  | cons first bank ih =>
    rw [cascade_cons] at hρ'
    cases k with
    | zero =>
      cases hρ; cases hρ'
      exact Or.inr ⟨rfl, fun j _ hj => absurd hj (Nat.not_lt_zero j)⟩
    | succ k =>
      rw [List.getElem?_cons_succ] at hρ hρ'
      split at hρ'
      · next wraps =>
        rcases ih hρ hρ' with e | ⟨e, below⟩
        · exact Or.inl e
        · refine Or.inr ⟨e, fun j σ hj hσ => ?_⟩
          cases j with
          | zero => cases hσ; exact wraps
          | succ j => exact below j σ (Nat.lt_of_succ_lt_succ hj) hσ
      · exact Or.inl (Option.some.inj (hρ'.symm.trans hρ))

/-! ### Commands on one rotor -/

/-- From `s` to `t` no rotor but `r` changes, nor the reflector, the command port, the reset input or a parameter. -/
structure OnlyRotor (r : Nat) (s t : State) : Prop where
  refl : t.refl = s.refl
  reflValid : t.reflValid = s.reflValid
  cmdIn : t.cmdIn = s.cmdIn
  resetIn : t.resetIn = s.resetIn
  preset : t.preset = s.preset
  length : t.rotors.length = s.rotors.length
  other : ∀ j, j ≠ r → t.rotors[j]? = s.rotors[j]?

theorem onlyRotor_emit (r : Nat) (s : State) (bytes : List Byte) : OnlyRotor r s (s.emit bytes) :=
  ⟨rfl, rfl, rfl, rfl, rfl, rfl, fun _ _ => rfl⟩

theorem onlyRotor_setRotor (r : Nat) (ρ : Rotor) (s : State) : OnlyRotor r s (s.setRotor r ρ) :=
  ⟨rfl, rfl, rfl, rfl, rfl, List.length_set, fun _ hj => List.getElem?_set_ne hj.symm⟩

theorem onlyRotor_genrotStart (r : Nat) (ρ : Rotor) (s : State) : OnlyRotor r s (genrotStart r ρ s) :=
  ⟨rfl, rfl, rfl, rfl, rfl, List.length_set, fun _ hj => List.getElem?_set_ne hj.symm⟩

theorem RotorRun.onlyRotor {r : Nat} {s t : State} (h : RotorRun r s t) : OnlyRotor r s t :=
  ⟨h.refl, h.reflValid, h.cmdIn, h.resetIn, h.preset, h.length, h.other⟩

theorem OnlyRotor.trans {r : Nat} {s t u : State} (h : OnlyRotor r s t) (k : OnlyRotor r t u) : OnlyRotor r s u :=
  ⟨k.refl.trans h.refl, k.reflValid.trans h.reflValid, k.cmdIn.trans h.cmdIn, k.resetIn.trans h.resetIn,
    k.preset.trans h.preset, k.length.trans h.length, fun j hj => (k.other j hj).trans (h.other j hj)⟩

/-- `GENROT r` is a run of draws from its start. -/
theorem genrot_run (r : Nat) (ρ : Rotor) (s : State) :
    RotorRun r (genrotStart r ρ s) (runDraws s.entropyIn (genrotStart r ρ s)) :=
  runDraws_rotor s.entropyIn (State.withBusy_busy _ _)

theorem execLdrot_onlyRotor {r : Nat} {k : List Byte} {s t : State} (h : execLdrot r k s = .next t) :
    OnlyRotor r s t := by
  rcases execLdrot_cases h with ⟨-, rfl⟩ | ⟨ρ, -, rfl⟩
  · exact onlyRotor_emit r s _
  · exact (onlyRotor_setRotor r _ s).trans (onlyRotor_emit r _ _)

theorem execRstsh_onlyRotor {r : Nat} {s t : State} (h : execRstsh r s = .next t) : OnlyRotor r s t := by
  rcases execRstsh_cases h with ⟨-, rfl⟩ | ⟨ρ, -, rfl⟩
  · exact onlyRotor_emit r s _
  · exact (onlyRotor_setRotor r _ s).trans (onlyRotor_emit r _ _)

theorem execGenrot_onlyRotor {r : Nat} {s t : State} (h : execGenrot r s = .next t) : OnlyRotor r s t := by
  rcases execGenrot_cases h with ⟨-, rfl⟩ | ⟨ρ, -, rfl⟩
  · exact onlyRotor_emit r s _
  · exact (onlyRotor_genrotStart r ρ s).trans (genrot_run r ρ s).onlyRotor

theorem execLdrot_drawless {r : Nat} {k : List Byte} {s t : State} (h : execLdrot r k s = .next t) :
    t.entropyIn = s.entropyIn ∧ t.busy = s.busy := by
  rcases execLdrot_cases h with ⟨-, rfl⟩ | ⟨ρ, -, rfl⟩ <;> exact ⟨rfl, rfl⟩

theorem execRstsh_drawless {r : Nat} {s t : State} (h : execRstsh r s = .next t) :
    t.entropyIn = s.entropyIn ∧ t.busy = s.busy := by
  rcases execRstsh_cases h with ⟨-, rfl⟩ | ⟨ρ, -, rfl⟩ <;> exact ⟨rfl, rfl⟩

/-- `GENROT` takes its draws from the front of the entropy port (41_generate R110). -/
theorem execGenrot_draws {r : Nat} {s t : State} (h : execGenrot r s = .next t) :
    ∃ draws, s.entropyIn = draws ++ t.entropyIn := by
  rcases execGenrot_cases h with ⟨-, rfl⟩ | ⟨ρ, -, rfl⟩
  · exact ⟨[], rfl⟩
  · exact runDraws_suffix s.entropyIn _

/-- `RSTSH r` leaves the tables and the flag of its own rotor (43_cipher R149). -/
theorem execRstsh_tables {r : Nat} {s t : State} {ρ ρ' : Rotor} (h : execRstsh r s = .next t)
    (hρ : s.rotors[r]? = some ρ) (hρ' : t.rotors[r]? = some ρ') :
    ρ'.fwd = ρ.fwd ∧ ρ'.inv = ρ.inv ∧ ρ'.valid = ρ.valid := by
  rcases execRstsh_cases h with ⟨hnone, -⟩ | ⟨σ, hσ, rfl⟩
  · rw [hnone] at hρ; cases hρ
  · cases hσ.symm.trans hρ
    have hlt : r < s.rotors.length := (List.getElem?_eq_some_iff.mp hρ).1
    cases (List.getElem?_set_self hlt).symm.trans hρ'
    exact ⟨rfl, rfl, rfl⟩

/-- Settles O54: the frame common to the three commands, and what each does to the entropy port and the engine. -/
theorem frameOfRotorCommands : Obligations.FrameOfRotorCommands := by
  intro r i s t hi h
  rcases hi with ⟨k, rfl⟩ | rfl | rfl
  · obtain ⟨hrefl, hvalid, hcmd, hreset, hpre, hlen, hother⟩ := execLdrot_onlyRotor h
    have quiet := execLdrot_drawless h
    exact ⟨hrefl, hvalid, hcmd, hreset, hpre, hlen, hother, fun _ => quiet, ⟨[], quiet.1.symm⟩, fun e => nomatch e⟩
  · obtain ⟨hrefl, hvalid, hcmd, hreset, hpre, hlen, hother⟩ := execRstsh_onlyRotor h
    have quiet := execRstsh_drawless h
    exact ⟨hrefl, hvalid, hcmd, hreset, hpre, hlen, hother, fun _ => quiet, ⟨[], quiet.1.symm⟩,
      fun _ _ _ => execRstsh_tables h⟩
  · obtain ⟨hrefl, hvalid, hcmd, hreset, hpre, hlen, hother⟩ := execGenrot_onlyRotor h
    exact ⟨hrefl, hvalid, hcmd, hreset, hpre, hlen, hother, fun ne => absurd rfl ne, execGenrot_draws h,
      fun e => nomatch e⟩

/-- Settles O52: the three ways `ENC` can end; only the one that enciphers steps the bank. -/
theorem frameOfEnc : Obligations.FrameOfEnc := by
  intro c s t h
  have keeps : ∀ (k : Nat) (ρ : Rotor), s.rotors[k]? = some ρ → ∃ v, s.rotors[k]? = some (ρ.withShift v) :=
    fun _ ρ hρ => ⟨ρ.shift, hρ⟩
  rcases execEnc_cases h with ⟨-, rfl⟩ | ⟨-, -, rfl⟩ | ⟨hl, hv, x, -, rfl⟩
  · exact ⟨rfl, keeps, fun _ => rfl⟩
  · exact ⟨rfl, keeps, fun _ => rfl⟩
  · refine ⟨rfl, fun k ρ hρ => ?_, fun refused => ?_⟩
    · obtain ⟨v, hk⟩ := cascade_getElem? s.rotors k
      exact ⟨v ρ.shift, by simpa [hρ] using hk⟩
    · simp [hl, hv] at refused

/-! ### What one command does to rotor `k` -/

/-- What a command that leads from `s` to `t` can make of rotor `k`: `ρ'` out of `ρ`. -/
inductive RotorWrite (k : Nat) (s t : State) (ρ ρ' : Rotor) : Instr → Prop where
  | keep {i : Instr} (same : ρ' = ρ) : RotorWrite k s t ρ ρ' i
  | enc {c : Byte} (letter : isLetter c = true) (valid : s.tablesValid = true)
      (stepped : ρ' = ρ.withShift (ρ.shift + 1))
      (below : ∀ j σ, j < k → s.rotors[j]? = some σ → σ.shift = 25) : RotorWrite k s t ρ ρ' (.enc c)
  | ldrot {key : List Byte} (loaded : ρ' = loadedRotor ρ (loadRotorKey key ρ.fwd ρ.inv))
      (response : t.respOut = s.respOut ++ [[(loadRotorKey key ρ.fwd ρ.inv).status.code]]) :
      RotorWrite k s t ρ ρ' (.ldrot k key)
  | rstsh (cleared : ρ' = ρ.withShift 0) (response : t.respOut = s.respOut ++ [[0x00]]) :
      RotorWrite k s t ρ ρ' (.rstsh k)
  | genrot (run : RotorRun k (genrotStart k ρ s) t) : RotorWrite k s t ρ ρ' (.genrot k)

/-- A command that leaves rotor `k` alone. -/
theorem RotorWrite.of_getElem?_eq {k : Nat} {s t : State} {ρ ρ' : Rotor} {i : Instr}
    (hρ : s.rotors[k]? = some ρ) (hρ' : t.rotors[k]? = some ρ') (h : t.rotors[k]? = s.rotors[k]?) :
    RotorWrite k s t ρ ρ' i :=
  .keep (Option.some.inj (hρ'.symm.trans (h.trans hρ)))

/-- Reading back the rotor just put in place of rotor `k`. -/
theorem eq_of_getElem?_set {bank : List Rotor} {k : Nat} {ρ ρ' σ : Rotor} (hρ : bank[k]? = some ρ)
    (hρ' : (bank.set k σ)[k]? = some ρ') : ρ' = σ := by
  rw [List.getElem?_set_self (List.getElem?_eq_some_iff.mp hρ).1] at hρ'
  exact (Option.some.inj hρ').symm

/-- Every command writes a rotor in one of the ways of `RotorWrite`. -/
theorem exec_rotorWrite {i : Instr} {s t : State} {k : Nat} {ρ ρ' : Rotor} (h : exec i s = .next t)
    (hρ : s.rotors[k]? = some ρ) (hρ' : t.rotors[k]? = some ρ') : RotorWrite k s t ρ ρ' i := by
  cases i with
  | enc c =>
    rcases execEnc_cases h with ⟨-, rfl⟩ | ⟨-, -, rfl⟩ | ⟨hl, hv, x, -, rfl⟩
    · exact .of_getElem?_eq hρ hρ' rfl
    · exact .of_getElem?_eq hρ hρ' rfl
    · rcases cascade_rotor_cases hρ hρ' with e | ⟨e, below⟩
      · exact .keep e
      · exact .enc hl hv e below
  | ldrot r key =>
    by_cases hk : k = r
    · subst hk
      rcases execLdrot_cases h with ⟨hnone, -⟩ | ⟨σ, hσ, rfl⟩
      · rw [hnone] at hρ; cases hρ
      · cases hσ.symm.trans hρ
        exact .ldrot (eq_of_getElem?_set hρ hρ') rfl
    · exact .of_getElem?_eq hρ hρ' ((execLdrot_onlyRotor h).other k hk)
  | ldref key => cases (execLdref_eq key s).symm.trans h; exact .of_getElem?_eq hρ hρ' rfl
  | rdrot r =>
    rcases execRdrot_cases h with ⟨-, rfl⟩ | ⟨σ, -, ⟨-, p, -, rfl⟩ | ⟨-, rfl⟩⟩ <;>
      exact .of_getElem?_eq hρ hρ' rfl
  | rdref =>
    rcases readBack_cases h with ⟨-, p, -, rfl⟩ | ⟨-, rfl⟩ <;> exact .of_getElem?_eq hρ hρ' rfl
  | rdsh r => rcases execRdsh_cases h with ⟨-, rfl⟩ | ⟨σ, -, rfl⟩ <;> exact .of_getElem?_eq hρ hρ' rfl
  | rstsh r =>
    by_cases hk : k = r
    · subst hk
      rcases execRstsh_cases h with ⟨hnone, -⟩ | ⟨σ, hσ, rfl⟩
      · rw [hnone] at hρ; cases hρ
      · cases hσ.symm.trans hρ
        exact .rstsh (eq_of_getElem?_set hρ hρ') rfl
    · exact .of_getElem?_eq hρ hρ' ((execRstsh_onlyRotor h).other k hk)
  | genrot r =>
    by_cases hk : k = r
    · subst hk
      rcases execGenrot_cases h with ⟨hnone, -⟩ | ⟨σ, hσ, rfl⟩
      · rw [hnone] at hρ; cases hρ
      · cases hσ.symm.trans hρ
        exact .genrot (genrot_run k ρ s)
    · exact .of_getElem?_eq hρ hρ' ((execGenrot_onlyRotor h).other k hk)
  | genref =>
    cases (execGenref_eq s).symm.trans h
    have run : ReflRun (genrefStart s) (runDraws s.entropyIn (genrefStart s)) :=
      runDraws_refl s.entropyIn (State.withBusy_busy _ _)
    exact .of_getElem?_eq hρ hρ' (congrArg (·[k]?) run.rotors)

/-- Of the ways to write a rotor, only `LDROT` and `GENROT` touch its tables or its flag (20_memory R51). -/
theorem RotorWrite.writes_tables {k : Nat} {s t : State} {ρ ρ' : Rotor} {i : Instr}
    (h : RotorWrite k s t ρ ρ' i) (changed : ρ'.fwd ≠ ρ.fwd ∨ ρ'.inv ≠ ρ.inv ∨ ρ'.valid ≠ ρ.valid) :
    (∃ key, i = .ldrot k key) ∨ i = .genrot k := by
  cases h with
  | keep same => subst same; simp at changed
  | enc _ _ stepped _ => subst stepped; simp at changed
  | rstsh cleared _ => subst cleared; simp at changed
  | ldrot _ _ => exact Or.inl ⟨_, rfl⟩
  | genrot _ => exact Or.inr rfl

/-- The value each command writes to a shift register (10_state R23). -/
theorem RotorWrite.writes_shift {k : Nat} {s t : State} {ρ ρ' : Rotor} {i : Instr}
    (h : RotorWrite k s t ρ ρ' i) (hρ : s.rotors[k]? = some ρ) (hρ' : t.rotors[k]? = some ρ')
    (changed : ρ'.shift ≠ ρ.shift) :
    (∃ c, i = .enc c ∧ isLetter c = true ∧ s.tablesValid = true ∧ ρ'.shift = ρ.shift + 1 ∧
      ∀ j σ, j < k → s.rotors[j]? = some σ → σ.shift = 25) ∨
    (((∃ key, i = .ldrot k key) ∨ i = .genrot k ∨ i = .rstsh k) ∧ ρ'.shift = 0 ∧
      t.respOut = s.respOut ++ [[0x00]]) := by
  cases h with
  | keep same => exact absurd (congrArg Rotor.shift same) changed
  | enc letter valid stepped below => subst stepped; exact Or.inl ⟨_, rfl, letter, valid, rfl, below⟩
  | @ldrot key loaded response =>
    subst loaded
    by_cases ok : (loadRotorKey key ρ.fwd ρ.inv).status = .ok
    · rw [ok] at response
      exact Or.inr ⟨Or.inl ⟨key, rfl⟩, by simp [ok], response⟩
    · exact absurd (by simp [ok]) changed
  | rstsh cleared response => subst cleared; exact Or.inr ⟨Or.inr (Or.inr rfl), rfl, response⟩
  | genrot run =>
    rcases run.outcome with ⟨-, -, keeps⟩ | ⟨-, response, σ, hσ, zero, -⟩
    · have hlt : k < s.rotors.length := (List.getElem?_eq_some_iff.mp hρ).1
      exact absurd (keeps (invalidateRotor ρ) ρ' (List.getElem?_set_self hlt) hρ') changed
    · cases hσ.symm.trans hρ'
      exact Or.inr ⟨Or.inr (Or.inl rfl), zero, response⟩

/-! ### What one step does to rotor `k` and to the reflector -/

/-- Every way a step can write rotor `k`. -/
theorem step_rotor_cases {s t : State} {k : Nat} {ρ ρ' : Rotor} (h : step s = .next t)
    (hρ : s.rotors[k]? = some ρ) (hρ' : t.rotors[k]? = some ρ') :
    ρ' = ρ ∨ (s.resetIn = true ∧ t = s.applyReset) ∨
    (s.resetIn = false ∧ ∃ pos used, s.busy = .genRotor k pos used ∧ RotorRun k s t) ∨
    (Ready s ∧ ∃ i rest, decode s.cmdIn = .command i rest ∧ RotorWrite k (s.withCmdIn rest) t ρ ρ' i) := by
  have keep (e : t.rotors[k]? = s.rotors[k]?) : ρ' = ρ := Option.some.inj (hρ'.symm.trans (e.trans hρ))
  rcases step_cases h with ⟨hr, rfl⟩ | ⟨hr, hb, rfl⟩ | ⟨-, -, -, rfl⟩ | ⟨-, -, rest, -, rfl⟩ |
    ⟨hr, hb, i, rest, hd, hx⟩
  · exact Or.inr (Or.inl ⟨hr, rfl⟩)
  · cases hbusy : s.busy with
    | idle => exact absurd hbusy hb
    | genRotor r pos used =>
      have run : RotorRun r s (resumeGenerate s) := runDraws_rotor s.entropyIn hbusy
      by_cases hk : k = r
      · subst hk; exact Or.inr (Or.inr (Or.inl ⟨hr, pos, used, rfl, run⟩))
      · exact Or.inl (keep (run.other k hk))
    | genRefl pos used =>
      have run : ReflRun s (resumeGenerate s) := runDraws_refl s.entropyIn hbusy
      exact Or.inl (keep (congrArg (·[k]?) run.rotors))
  · exact Or.inl (keep rfl)
  · exact Or.inl (keep rfl)
  · exact Or.inr (Or.inr (Or.inr ⟨⟨hr, hb⟩, i, rest, hd, exec_rotorWrite hx hρ hρ'⟩))

/-- Settles O50: the writers of a rotor, each with what it does to the shift. -/
theorem writersOfShift : Obligations.WritersOfShift := by
  intro s t k ρ ρ' h hρ hρ' changed
  rcases step_rotor_cases h hρ hρ' with rfl | ⟨hr, rfl⟩ | ⟨-, pos, used, hb, run⟩ | ⟨ready, i, rest, hd, hw⟩
  · exact absurd rfl changed
  · obtain ⟨r, -, rfl⟩ := mem_bankAtReset.mp (List.mem_of_getElem? hρ')
    exact Or.inl ⟨hr, rotorAtReset_shift _ r⟩
  · rcases run.outcome with ⟨-, -, keeps⟩ | ⟨idle, -, σ, hσ, zero, -⟩
    · exact absurd (keeps ρ ρ' hρ hρ') changed
    · cases hσ.symm.trans hρ'
      exact Or.inr (Or.inl ⟨pos, used, hb, idle, zero⟩)
  · exact Or.inr (Or.inr ⟨ready, i, rest, hd, hw.writes_shift hρ hρ' changed⟩)

/-- Only `LDREF` and `GENREF` write the reflector's table or flag (20_memory R51, 10_state R29). -/
theorem exec_reflector_cases {i : Instr} {s t : State} (h : exec i s = .next t) :
    (t.refl = s.refl ∧ t.reflValid = s.reflValid) ∨ (∃ key, i = .ldref key) ∨ i = .genref := by
  cases i with
  | enc c =>
    rcases execEnc_cases h with ⟨-, rfl⟩ | ⟨-, -, rfl⟩ | ⟨-, -, x, -, rfl⟩ <;> exact Or.inl ⟨rfl, rfl⟩
  | ldrot r key => exact Or.inl ⟨(execLdrot_onlyRotor h).refl, (execLdrot_onlyRotor h).reflValid⟩
  | ldref key => exact Or.inr (Or.inl ⟨key, rfl⟩)
  | rdrot r =>
    rcases execRdrot_cases h with ⟨-, rfl⟩ | ⟨ρ, -, ⟨-, p, -, rfl⟩ | ⟨-, rfl⟩⟩ <;> exact Or.inl ⟨rfl, rfl⟩
  | rdref => rcases readBack_cases h with ⟨-, p, -, rfl⟩ | ⟨-, rfl⟩ <;> exact Or.inl ⟨rfl, rfl⟩
  | rdsh r => rcases execRdsh_cases h with ⟨-, rfl⟩ | ⟨ρ, -, rfl⟩ <;> exact Or.inl ⟨rfl, rfl⟩
  | rstsh r => exact Or.inl ⟨(execRstsh_onlyRotor h).refl, (execRstsh_onlyRotor h).reflValid⟩
  | genrot r => exact Or.inl ⟨(execGenrot_onlyRotor h).refl, (execGenrot_onlyRotor h).reflValid⟩
  | genref => exact Or.inr (Or.inr rfl)

/-- Every way a step can write the reflector. -/
theorem step_reflector_cases {s t : State} (h : step s = .next t) :
    (t.refl = s.refl ∧ t.reflValid = s.reflValid) ∨ s.resetIn = true ∨
    (s.resetIn = false ∧ ∃ pos used, s.busy = .genRefl pos used) ∨
    (Ready s ∧ ∃ i rest, decode s.cmdIn = .command i rest ∧ ((∃ key, i = .ldref key) ∨ i = .genref)) := by
  rcases step_cases h with ⟨hr, -⟩ | ⟨hr, hb, rfl⟩ | ⟨-, -, -, rfl⟩ | ⟨-, -, rest, -, rfl⟩ |
    ⟨hr, hb, i, rest, hd, hx⟩
  · exact Or.inr (Or.inl hr)
  · cases hbusy : s.busy with
    | idle => exact absurd hbusy hb
    | genRotor r pos used =>
      have run : RotorRun r s (resumeGenerate s) := runDraws_rotor s.entropyIn hbusy
      exact Or.inl ⟨run.refl, run.reflValid⟩
    | genRefl pos used => exact Or.inr (Or.inr (Or.inl ⟨hr, pos, used, rfl⟩))
  · exact Or.inl ⟨rfl, rfl⟩
  · exact Or.inl ⟨rfl, rfl⟩
  · exact (exec_reflector_cases hx).imp_right fun writer => Or.inr (Or.inr ⟨⟨hr, hb⟩, i, rest, hd, writer⟩)

/-- Settles O51: of the writers of a rotor and of the reflector, those that write more than a shift. -/
theorem writersOfTables : Obligations.WritersOfTables := by
  refine ⟨fun s t h => ⟨fun k ρ ρ' hρ hρ' changed => ?_, fun changed => ?_⟩, fun i s t h =>
    ⟨fun k ρ ρ' hρ hρ' changed => (exec_rotorWrite h hρ hρ').writes_tables changed, fun changed => ?_⟩⟩
  · rcases step_rotor_cases h hρ hρ' with rfl | ⟨hr, -⟩ | ⟨hr, pos, used, hb, -⟩ | ⟨ready, i, rest, hd, hw⟩
    · simp at changed
    · exact Or.inl hr
    · exact Or.inr (Or.inl ⟨hr, pos, used, hb⟩)
    · exact Or.inr (Or.inr ⟨ready, i, rest, hd, hw.writes_tables changed⟩)
  · exact (step_reflector_cases h).resolve_left fun ⟨hm, hv⟩ => changed.elim (· hm) (· hv)
  · exact (exec_reflector_cases h).resolve_left fun ⟨hm, hv⟩ => changed.elim (· hm) (· hv)

end Sys2Proof.Machine

/-!
Commands and what they leave alone (spec 20_memory R51, R56; 10_state R34; 70_reset R188): the answer of a read
command, the frame of the commands on the reflector, and the frame of a generate command that goes on.
-/

namespace Sys2Proof.Machine

open Sys2Proof.Claims

/-! ### The answer of a read command -/

/-- In `s`, and in every state with the bank and the reflector of `s`, command `i` answers `response` and does nothing
else. -/
def Answers (i : Instr) (s : State) (response : List Byte) : Prop :=
  ∀ u : State, u.rotors = s.rotors → u.refl = s.refl → u.reflValid = s.reflValid → exec i u = .next (u.emit response)

theorem Answers.next_eq {i : Instr} {s t : State} {response : List Byte} (answer : Answers i s response)
    (h : exec i s = .next t) : t = s.emit response := by
  cases (answer s rfl rfl rfl).symm.trans h; rfl

theorem rdrot_answers {r : Nat} {s t : State} (h : execRdrot r s = .next t) :
    ∃ response, Answers (.rdrot r) s response := by
  rcases execRdrot_cases h with ⟨hr, -⟩ | ⟨ρ, hr, ⟨valid, p, hp, -⟩ | ⟨invalid, -⟩⟩
  · exact ⟨_, fun u hu _ _ => withRotorOperand_none (hu ▸ hr) _⟩
  · refine ⟨okResponse p, fun u hu _ _ => (withRotorOperand_some (hu ▸ hr) _).trans ?_⟩
    rw [valid]; exact readBack_valid hp u
  · refine ⟨errorResponse .tableInvalid, fun u hu _ _ => (withRotorOperand_some (hu ▸ hr) _).trans ?_⟩
    rw [invalid]; exact readBack_invalid ρ.fwd u

theorem rdref_answers {s t : State} (h : execRdref s = .next t) : ∃ response, Answers .rdref s response := by
  rcases readBack_cases h with ⟨valid, p, hp, -⟩ | ⟨invalid, -⟩
  · refine ⟨okResponse p, fun u _ hm hv => ?_⟩
    rw [exec, execRdref, hm, hv, valid]; exact readBack_valid hp u
  · refine ⟨errorResponse .tableInvalid, fun u _ _ hv => ?_⟩
    rw [exec, execRdref, hv, invalid]; exact readBack_invalid u.refl u

theorem rdsh_answers {r : Nat} {s t : State} (h : execRdsh r s = .next t) :
    ∃ response, Answers (.rdsh r) s response := by
  rcases execRdsh_cases h with ⟨hr, -⟩ | ⟨ρ, hr, -⟩
  · exact ⟨_, fun u hu _ _ => withRotorOperand_none (hu ▸ hr) _⟩
  · exact ⟨_, fun u hu _ _ => withRotorOperand_some (hu ▸ hr) _⟩

/-- A letter that is answered moves the first rotor on by one (43_cipher R141). -/
theorem cascade_zero {bank : List Rotor} {ρ : Rotor} (h : bank[0]? = some ρ) :
    (cascade bank)[0]? = some (ρ.withShift (ρ.shift + 1)) := by
  cases bank with
  | nil => cases h
  | cons first bank => cases h; rw [cascade_cons]; rfl

/-- Settles O53: a read depends on the bank and the reflector alone, and its own response changes neither. -/
theorem readsHaveNoSideEffect : Obligations.ReadsHaveNoSideEffect := by
  refine ⟨fun i s t hi h => ?_, fun c s t ρ hl hv hρ h => ?_, fun c s t hl h => ?_⟩
  · have reads : ∃ response, Answers i s response := by
      rcases hi with ⟨r, rfl⟩ | rfl | ⟨r, rfl⟩
      · exact rdrot_answers h
      · exact rdref_answers h
      · exact rdsh_answers h
    obtain ⟨response, answer⟩ := reads
    obtain rfl := answer.next_eq h
    exact ⟨response, rfl, answer _ rfl rfl rfl⟩
  · rcases execEnc_cases h with ⟨hl', -⟩ | ⟨-, hv', -⟩ | ⟨-, -, x, -, rfl⟩
    · exact absurd (hl'.symm.trans hl) Bool.false_ne_true
    · exact absurd (hv'.symm.trans hv) Bool.false_ne_true
    · exact ⟨_, cascade_zero hρ, rfl⟩
  · rcases execEnc_cases h with ⟨-, rfl⟩ | ⟨hl', -⟩ | ⟨hl', -⟩
    · rfl
    · exact absurd (hl.symm.trans hl') Bool.false_ne_true
    · exact absurd (hl.symm.trans hl') Bool.false_ne_true

/-! ### Commands on the reflector and generate commands that go on -/

/-- `GENREF` is a run of draws from its start. -/
theorem genref_run (s : State) : ReflRun (genrefStart s) (runDraws s.entropyIn (genrefStart s)) :=
  runDraws_refl s.entropyIn (State.withBusy_busy _ _)

/-- Settles O55: `LDREF` by its result, `GENREF` as a run of draws from a state with the same bank and ports. -/
theorem frameOfReflectorCommands : Obligations.FrameOfReflectorCommands := by
  intro i s t hi h
  rcases hi with ⟨k, rfl⟩ | rfl
  · cases (execLdref_eq k s).symm.trans h
    exact ⟨rfl, rfl, rfl, rfl, fun _ => ⟨rfl, rfl⟩, ⟨[], rfl⟩⟩
  · cases (execGenref_eq s).symm.trans h
    have run := genref_run s
    exact ⟨run.rotors, run.cmdIn, run.resetIn, run.preset, fun ne => absurd rfl ne, runDraws_suffix s.entropyIn _⟩

/-- Settles O58: the step is a run of draws from the command in progress, `GENROT` or `GENREF`. -/
theorem frameOfResumedGeneration : Obligations.FrameOfResumedGeneration := by
  intro s t hr hb h
  cases (step_busy hr hb).symm.trans h
  have draws := runDraws_suffix s.entropyIn s
  cases hbusy : s.busy with
  | idle => exact absurd hbusy hb
  | genRotor r pos used =>
    have run : RotorRun r s (resumeGenerate s) := runDraws_rotor s.entropyIn hbusy
    refine ⟨run.cmdIn, run.resetIn, run.preset, run.length, draws, fun r' pos' used' e => ?_, fun _ _ e => nomatch e⟩
    cases e
    exact ⟨run.refl, run.reflValid, run.other⟩
  | genRefl pos used =>
    have run : ReflRun s (resumeGenerate s) := runDraws_refl s.entropyIn hbusy
    exact ⟨run.cmdIn, run.resetIn, run.preset, congrArg List.length run.rotors, draws, fun _ _ _ e => (nomatch e),
      fun _ _ _ => run.rotors⟩

end Sys2Proof.Machine

/-!
A stream of commands on the command port (spec 20_memory R59, 30_encoding R78, 70_reset R185): a command neither looks
at nor changes the bytes behind it, so the steps of the engine follow the run of the commands.
-/

namespace Sys2Proof.Machine

open Sys2Proof.Claims

/-! ### No command looks at the command port -/

theorem genDraw_withCmdIn (d : Index) (s : State) (bytes : List Byte) :
    genDraw d (s.withCmdIn bytes) = (genDraw d s).withCmdIn bytes := by
  unfold genDraw
  simp only [State.withCmdIn_busy, State.rotor_eq, State.withCmdIn_rotors]
  split
  · rfl
  · split
    · unfold acceptRotor; dsimp only; split <;> rfl
    · rfl
  · split
    · unfold acceptRefl; dsimp only [State.withCmdIn_refl]; split <;> rfl
    · rfl

theorem runDraws_withCmdIn (l : List Index) (s : State) (bytes : List Byte) :
    runDraws l (s.withCmdIn bytes) = (runDraws l s).withCmdIn bytes := by
  induction l generalizing s with
  | nil => rfl
  | cons d l ih =>
    by_cases hb : s.busy = .idle
    · rw [runDraws_idle hb, runDraws_idle (s := s.withCmdIn bytes) hb]; rfl
    · rw [runDraws_cons hb, runDraws_cons (s := s.withCmdIn bytes) hb, genDraw_withCmdIn, ih]

theorem execEnc_nonLetter {c : Byte} (hl : isLetter c = false) (s : State) :
    execEnc c s = .next (s.respond [c]) := by
  simp [execEnc, hl]

theorem execEnc_refused {c : Byte} {s : State} (hl : isLetter c = true) (hv : s.tablesValid = false) :
    execEnc c s = .next (s.raise .tableInvalid) := by
  simp [execEnc, hl, hv]

/-- With other bytes on the command port a command does the same, and the bytes stay. -/
theorem exec_withCmdIn {i : Instr} {s t : State} (h : exec i s = .next t) (bytes : List Byte) :
    exec i (s.withCmdIn bytes) = .next (t.withCmdIn bytes) := by
  have read {response : List Byte} (answer : Answers i s response) :
      exec i (s.withCmdIn bytes) = .next (t.withCmdIn bytes) := by
    cases answer.next_eq h; exact answer (s.withCmdIn bytes) rfl rfl rfl
  cases i with
  | enc c =>
    rcases execEnc_cases h with ⟨hl, rfl⟩ | ⟨hl, hv, rfl⟩ | ⟨hl, hv, x, hx, rfl⟩
    · exact execEnc_nonLetter hl _
    · exact execEnc_refused (s := s.withCmdIn bytes) hl hv
    · exact execEnc_letter (s := s.withCmdIn bytes) hl hv hx
  | ldrot r k =>
    rcases execLdrot_cases h with ⟨hr, rfl⟩ | ⟨ρ, hr, rfl⟩
    · exact withRotorOperand_none (s := s.withCmdIn bytes) hr _
    · exact execLdrot_some (s := s.withCmdIn bytes) hr k
  | ldref k => cases (execLdref_eq k s).symm.trans h; exact execLdref_eq k (s.withCmdIn bytes)
  | rdrot r => obtain ⟨_, answer⟩ := rdrot_answers h; exact read answer
  | rdref => obtain ⟨_, answer⟩ := rdref_answers h; exact read answer
  | rdsh r => obtain ⟨_, answer⟩ := rdsh_answers h; exact read answer
  | rstsh r =>
    rcases execRstsh_cases h with ⟨hr, rfl⟩ | ⟨ρ, hr, rfl⟩
    · exact withRotorOperand_none (s := s.withCmdIn bytes) hr _
    · exact withRotorOperand_some (s := s.withCmdIn bytes) hr _
  | genrot r =>
    rcases execGenrot_cases h with ⟨hr, rfl⟩ | ⟨ρ, hr, rfl⟩
    · exact withRotorOperand_none (s := s.withCmdIn bytes) hr _
    · rw [← runDraws_withCmdIn]; exact execGenrot_some (s := s.withCmdIn bytes) hr
  | genref =>
    cases (execGenref_eq s).symm.trans h
    rw [← runDraws_withCmdIn]; exact execGenref_eq (s.withCmdIn bytes)

/-- A command leaves the command port: it does the same with the bytes of `s` put there again. -/
theorem exec_cmdIn {i : Instr} {s t : State} (h : exec i s = .next t) : t.cmdIn = s.cmdIn := by
  have again : exec i s = .next (t.withCmdIn s.cmdIn) := exec_withCmdIn h s.cmdIn
  have same : t = t.withCmdIn s.cmdIn := Host.Outcome.next.inj (h.symm.trans again)
  exact (congrArg State.cmdIn same :)

/-! ### The reset input, and which commands leave the engine busy -/

theorem exec_resetIn {i : Instr} {s t : State} (h : exec i s = .next t) : t.resetIn = s.resetIn := by
  have read {response : List Byte} (answer : Answers i s response) : t.resetIn = s.resetIn := by
    rw [answer.next_eq h]; rfl
  cases i with
  | enc c => rcases execEnc_cases h with ⟨-, rfl⟩ | ⟨-, -, rfl⟩ | ⟨-, -, x, -, rfl⟩ <;> rfl
  | ldrot r k => exact (execLdrot_onlyRotor h).resetIn
  | ldref k => cases (execLdref_eq k s).symm.trans h; rfl
  | rdrot r => obtain ⟨_, answer⟩ := rdrot_answers h; exact read answer
  | rdref => obtain ⟨_, answer⟩ := rdref_answers h; exact read answer
  | rdsh r => obtain ⟨_, answer⟩ := rdsh_answers h; exact read answer
  | rstsh r => exact (execRstsh_onlyRotor h).resetIn
  | genrot r => exact (execGenrot_onlyRotor h).resetIn
  | genref => cases (execGenref_eq s).symm.trans h; exact (genref_run s).resetIn

theorem exec_drawless_busy {i : Instr} {s t : State} (hi : drawless i = true) (h : exec i s = .next t) :
    t.busy = s.busy := by
  have read {response : List Byte} (answer : Answers i s response) : t.busy = s.busy := by
    rw [answer.next_eq h]; rfl
  cases i with
  | enc c => rcases execEnc_cases h with ⟨-, rfl⟩ | ⟨-, -, rfl⟩ | ⟨-, -, x, -, rfl⟩ <;> rfl
  | ldrot r k => exact (execLdrot_drawless h).2
  | ldref k => cases (execLdref_eq k s).symm.trans h; rfl
  | rdrot r => obtain ⟨_, answer⟩ := rdrot_answers h; exact read answer
  | rdref => obtain ⟨_, answer⟩ := rdref_answers h; exact read answer
  | rdsh r => obtain ⟨_, answer⟩ := rdsh_answers h; exact read answer
  | rstsh r => exact (execRstsh_drawless h).2
  | genrot r => cases hi
  | genref => cases hi

theorem drawless_or_generate (i : Instr) : drawless i = true ∨ (∃ r, i = .genrot r) ∨ i = .genref := by
  cases i <;> simp [drawless]

/-- A command that leaves an idle engine busy has used every answer (41_generate R116). -/
theorem exec_busy_entropyIn {i : Instr} {s t : State} (idle : s.busy = .idle) (h : exec i s = .next t)
    (hb : t.busy ≠ .idle) : t.entropyIn = [] := by
  rcases drawless_or_generate i with hi | ⟨r, rfl⟩ | rfl
  · exact absurd ((exec_drawless_busy hi h).trans idle) hb
  · rcases execGenrot_cases h with ⟨-, rfl⟩ | ⟨ρ, -, rfl⟩
    · exact absurd idle hb
    · exact runDraws_busy hb
  · cases (execGenref_eq s).symm.trans h; exact runDraws_busy hb

/-! ### States from which a step goes nowhere -/

/-- Reset is not asserted, and a busy engine has no answer to go on with. -/
structure State.Settled (s : State) : Prop where
  resetIn : s.resetIn = false
  entropyIn : s.busy ≠ .idle → s.entropyIn = []

theorem State.Settled.exec {i : Instr} {s t : State} (hs : s.Settled) (idle : s.busy = .idle)
    (h : exec i s = .next t) : t.Settled :=
  ⟨(exec_resetIn h).trans hs.resetIn, exec_busy_entropyIn idle h⟩

/-- A settled busy engine waits, whatever stands on the command port (41_generate R116). -/
theorem State.Settled.step_of_busy {s : State} (hs : s.Settled) (hb : s.busy ≠ .idle) (bytes : List Byte) :
    step (s.withCmdIn bytes) = .next (s.withCmdIn bytes) := by
  have noAnswer : (s.withCmdIn bytes).entropyIn = [] := hs.entropyIn hb
  rw [step_busy (s := s.withCmdIn bytes) hs.resetIn hb, resumeGenerate, noAnswer, runDraws, ← noAnswer]
  rfl

/-- An idle engine with no byte on the command port waits (30_encoding R77). -/
theorem State.Settled.step_of_idle {s : State} (hs : s.Settled) (idle : s.busy = .idle) :
    step (s.withCmdIn []) = .next (s.withCmdIn []) :=
  step_ready (s := s.withCmdIn []) hs.resetIn idle

theorem runSteps_of_step_self {s : State} (h : step s = .next s) (n : Nat) : runSteps n s = .next s := by
  induction n with
  | zero => rfl
  | succ n ih => rw [runSteps, h]; exact ih

/-! ### The steps follow the run -/

/-- A well-formed command is taken whole, the bytes behind it stay (30_encoding R70, R74). -/
theorem decode_encode_append {i : Instr} (hw : i.wf = true) (rest : List Byte) :
    decode (encode i ++ rest) = .command i rest := by
  obtain ⟨header, payload, he, hlen, hd⟩ := encode_shape i hw
  have hpayload : commandLength header - 1 = payload.length := by omega
  rw [he, List.cons_append, decode_cons, if_neg (by rw [List.length_append]; omega), hpayload,
    List.take_left, List.drop_left, decodeTaken_eq_command]
  exact ⟨hd, rfl⟩

/-- The step at the first command of a stream runs that command. -/
theorem step_assemble_cons {i : Instr} {rest : List Instr} {s t : State} (hs : s.Settled) (idle : s.busy = .idle)
    (hw : i.wf = true) (h : exec i s = .next t) :
    step (s.withCmdIn (assemble (i :: rest))) = .next (t.withCmdIn (assemble rest)) := by
  have taken : decode (assemble (i :: rest)) = .command i (assemble rest) := decode_encode_append hw _
  rw [step_ready (s := s.withCmdIn (assemble (i :: rest))) hs.resetIn idle, State.withCmdIn_cmdIn, taken]
  exact exec_withCmdIn h (assemble rest)

/-- The state a run of commands stands in, with the commands not begun. -/
def RunResult.standing : RunResult → Option (State × List Instr)
  | .ended t => some (t, [])
  | .unended t rest => some (t, rest)
  | .fault _ => none
  | .refused _ => none

/-- The first command of a run that stands somewhere, on an idle engine. -/
theorem standing_cons {i : Instr} {rest : List Instr} {s : State} {stand : State × List Instr} (idle : s.busy = .idle)
    (h : (runCommands (i :: rest) s).standing = some stand) :
    ∃ t, exec i s = .next t ∧ (runCommands rest t).standing = some stand := by
  rw [runCommands_cons idle] at h
  cases hx : exec i s with
  | next t => rw [hx] at h; exact ⟨t, rfl, h⟩
  | fault f => rw [hx] at h; cases h
  | refused f => rw [hx] at h; cases h

/-- A run of commands keeps what a settled engine needs, and leaves the command port. -/
theorem standing_settled {prog rest : List Instr} {s t : State} (hs : s.Settled)
    (h : (runCommands prog s).standing = some (t, rest)) : t.Settled ∧ t.cmdIn = s.cmdIn := by
  induction prog generalizing s with
  | nil =>
    by_cases idle : s.busy = .idle
    · rw [runCommands_nil idle] at h; cases h; exact ⟨hs, rfl⟩
    · rw [runCommands_busy idle] at h; cases h; exact ⟨hs, rfl⟩
  | cons i prog ih =>
    by_cases idle : s.busy = .idle
    · obtain ⟨u, hx, hrun⟩ := standing_cons idle h
      obtain ⟨ht, hcmd⟩ := ih (hs.exec idle hx) hrun
      exact ⟨ht, hcmd.trans (exec_cmdIn hx)⟩
    · rw [runCommands_busy idle] at h; cases h; exact ⟨hs, rfl⟩

/-- The steps on a stream of commands come to where the run stands, with the bytes of the commands not begun, and stay
there (20_memory R59, 70_reset R185). -/
theorem runSteps_assemble {prog rest : List Instr} {s t : State} (hs : s.Settled) (hw : ∀ i ∈ prog, i.wf = true)
    (h : (runCommands prog s).standing = some (t, rest)) {n : Nat} (hn : prog.length ≤ n) :
    runSteps n (s.withCmdIn (assemble prog)) = .next (t.withCmdIn (assemble rest)) := by
  induction prog generalizing s n with
  | nil =>
    by_cases idle : s.busy = .idle
    · rw [runCommands_nil idle] at h; cases h
      exact runSteps_of_step_self (hs.step_of_idle idle) n
    · rw [runCommands_busy idle] at h; cases h
      exact runSteps_of_step_self (hs.step_of_busy idle _) n
  | cons i prog ih =>
    by_cases idle : s.busy = .idle
    · obtain ⟨u, hx, hrun⟩ := standing_cons idle h
      obtain ⟨hi, hprog⟩ := List.forall_mem_cons.mp hw
      cases n with
      | zero => exact absurd hn (Nat.not_succ_le_zero _)
      | succ n =>
        rw [runSteps, step_assemble_cons hs idle hi hx]
        exact ih (hs.exec idle hx) hprog hrun (Nat.le_of_succ_le_succ hn)
    · rw [runCommands_busy idle] at h; cases h
      exact runSteps_of_step_self (hs.step_of_busy idle _) n

/-- A run that has not ended stands at a busy engine. -/
theorem busy_of_runCommands_unended {prog rest : List Instr} {s t : State}
    (h : runCommands prog s = .unended t rest) : t.busy ≠ .idle := by
  induction prog generalizing s with
  | nil =>
    by_cases idle : s.busy = .idle
    · rw [runCommands_nil idle] at h; cases h
    · rw [runCommands_busy idle] at h; cases h; exact idle
  | cons i prog ih =>
    by_cases idle : s.busy = .idle
    · rw [runCommands_cons idle] at h
      cases hx : exec i s with
      | next u => rw [hx] at h; exact ih h
      | fault f => rw [hx] at h; cases h
      | refused f => rw [hx] at h; cases h
    · rw [runCommands_busy idle] at h; cases h; exact idle

/-- A run of commands that use no draw is never left unended. -/
theorem runCommands_drawless {prog : List Instr} {s : State} (idle : s.busy = .idle)
    (hd : ∀ i ∈ prog, drawless i = true) (t : State) (rest : List Instr) : runCommands prog s ≠ .unended t rest := by
  induction prog generalizing s with
  | nil => rw [runCommands_nil idle]; exact nofun
  | cons i prog ih =>
    obtain ⟨hi, hprog⟩ := List.forall_mem_cons.mp hd
    rw [runCommands_cons idle]
    cases hx : exec i s with
    | next u => exact ih ((exec_drawless_busy hi hx).trans idle) hprog
    | fault f => exact nofun
    | refused f => exact nofun

/-- Settles O8: the steps follow the run to where it stands, by induction over the commands. -/
theorem commandStreamRunsInOrder : Obligations.CommandStreamRunsInOrder := by
  refine ⟨fun prog s ready hw hcmd => ?_, fun prog s idle hd => runCommands_drawless idle hd⟩
  obtain ⟨hreset, idle⟩ := ready
  have settled : (s.withCmdIn []).Settled := ⟨hreset, fun busy => absurd idle busy⟩
  have stream : (s.withCmdIn []).withCmdIn (assemble prog) = s := by rw [← hcmd]; rfl
  refine ⟨fun t h => ?_, fun t rest h => ?_⟩
  · have standing : (runCommands prog (s.withCmdIn [])).standing = some (t, []) := by rw [h]; rfl
    have empty : t.cmdIn = [] := (standing_settled settled standing).2
    have steps := runSteps_assemble settled hw standing le_rfl
    have final : t.withCmdIn (assemble []) = t := by rw [show assemble [] = t.cmdIn from empty.symm]; rfl
    rwa [stream, final] at steps
  · have standing : (runCommands prog (s.withCmdIn [])).standing = some (t, rest) := by rw [h]; rfl
    have busy := busy_of_runCommands_unended h
    refine ⟨busy, (standing_settled settled standing).1.entropyIn busy, fun n hn => ?_⟩
    rw [← stream]
    exact runSteps_assemble settled hw standing hn

end Sys2Proof.Machine

/-!
The framing of the command port (spec 30_encoding R70 to R76): the length of a command comes from the first byte alone,
and what a whole command decodes to from its header alone.
-/

namespace Sys2Proof.Machine

open Sys2Proof.Claims

/-! ### The decoder on whole and unfinished commands -/

theorem lengthByOp_eq (h : Byte) : lengthByOp h = commandLength h := by
  rw [commandLength_eq, opField_eq, lengthByOp]

theorem decode_short {h : Byte} {tl : List Byte} (short : tl.length + 1 < lengthByOp h) :
    decode (h :: tl) = .incomplete := by
  rw [lengthByOp_eq] at short
  rw [decode_cons, if_pos short]

theorem decode_whole {h : Byte} {tl : List Byte} (whole : lengthByOp h ≤ tl.length + 1) :
    decode (h :: tl) = decodeTaken h (tl.take (lengthByOp h - 1)) (tl.drop (lengthByOp h - 1)) := by
  rw [lengthByOp_eq] at whole ⊢
  rw [decode_cons, if_neg (Nat.not_lt.mpr whole)]

theorem decode_command_whole {h : Byte} {tl rest : List Byte} {i : Instr} (hd : decode (h :: tl) = .command i rest) :
    lengthByOp h ≤ tl.length + 1 := by
  by_contra short
  rw [decode_short (Nat.lt_of_not_le short)] at hd
  cases hd

theorem decodeTaken_of_some {h : Byte} {p : List Byte} {i : Instr} (hd : decodeHeader h p = some i) (rest : List Byte) :
    decodeTaken h p rest = .command i rest :=
  decodeTaken_eq_command.mpr ⟨hd, rfl⟩

theorem decodeTaken_of_none {h : Byte} {p : List Byte} (hd : decodeHeader h p = none) (rest : List Byte) :
    decodeTaken h p rest = .illegal rest := by
  rw [decodeTaken, hd]

theorem onlyRZero_eq_none {h : Byte} {i : Instr} : onlyRZero h i = none ↔ h.toNat % 16 ≠ 0 := by
  rw [onlyRZero, rField_eq]
  split <;> simp [*]

/-- The decoder refuses exactly the headers the rule lists, whatever the payload (30_encoding R75). -/
theorem decodeHeader_eq_none {h : Byte} {p : List Byte} : decodeHeader h p = none ↔ IllegalHeader h := by
  unfold decodeHeader IllegalHeader
  rw [opField_eq]
  split
  case h_10 => simp only [imp_false, true_iff] at *; omega
  all_goals
    next hop => simp [hop, onlyRZero_eq_none]

/-- Settles O1: the shape of an encoding gives header, payload and length. -/
theorem encodedCommandDecodesToItself : Obligations.EncodedCommandDecodesToItself :=
  fun _ rest hw => decode_encode_append hw rest

/-- Settles O2: a whole command's header and payload, put before the rest, are the bytes. -/
theorem decodedBytesAreTheEncoding : Obligations.DecodedBytesAreTheEncoding := by
  intro bytes i rest hd
  cases bytes with
  | nil => cases hd
  | cons h tl =>
    have whole := decode_command_whole hd
    rw [decode_whole whole, decodeTaken_eq_command] at hd
    obtain ⟨header, rfl⟩ := hd
    have payload : (tl.take (lengthByOp h - 1)).length = commandLength h - 1 := by
      rw [List.length_take, ← lengthByOp_eq]; omega
    obtain ⟨hw, he⟩ := encode_of_decodeHeader payload header
    exact ⟨hw, by rw [he, List.cons_append, List.take_append_drop]⟩

/-- Settles O3: nine words, decoded by evaluation. -/
theorem specWordsDecode : Obligations.SpecWordsDecode := by
  unfold Obligations.SpecWordsDecode
  decide

/-! ### What a ready engine makes of its command port -/

theorem step_incomplete {s : State} (ready : Ready s) (hd : decode s.cmdIn = .incomplete) : step s = .next s := by
  rw [step_ready ready.1 ready.2, hd]

theorem step_illegal {s : State} {rest : List Byte} (ready : Ready s) (hd : decode s.cmdIn = .illegal rest) :
    step s = .next (refuseIllegal rest s) := by
  rw [step_ready ready.1 ready.2, hd]

theorem step_command {s : State} {i : Instr} {rest : List Byte} (ready : Ready s)
    (hd : decode s.cmdIn = .command i rest) : step s = exec i (s.withCmdIn rest) := by
  rw [step_ready ready.1 ready.2, hd]

/-- Settles O7: the step of a ready engine at a command. -/
theorem stepRunsTheDecodedCommand : Obligations.StepRunsTheDecodedCommand :=
  fun _ _ _ ready hd => step_command ready hd

/-- Settles O4: the decoder refuses exactly the illegal headers; the 256 headers are counted. -/
theorem illegalHeaderIsRefused : Obligations.IllegalHeaderIsRefused := by
  refine ⟨fun s h tl ready hcmd illegal whole => ?_, fun h tl legal whole => ?_, by decide +kernel⟩
  · have refused : decode s.cmdIn = .illegal (tl.drop (lengthByOp h - 1)) := by
      rw [hcmd, decode_whole whole, decodeTaken_of_none (decodeHeader_eq_none.mpr illegal)]
    exact step_illegal ready refused
  · obtain ⟨i, hi⟩ := Option.ne_none_iff_exists'.mp (mt decodeHeader_eq_none.mp legal)
    exact ⟨i, by rw [decode_whole whole, decodeTaken_of_some hi]⟩

/-- Settles O5: no byte, too few bytes, and enough of them, where neither a refusal nor a command touches the rest. -/
theorem framingNeverDependsOnStatus : Obligations.FramingNeverDependsOnStatus := by
  refine ⟨fun s ready hcmd => ?_, fun s h tl ready hcmd short => ?_, fun s t h tl ready hcmd whole hstep => ?_⟩
  · exact step_incomplete ready (by rw [hcmd]; rfl)
  · exact step_incomplete ready (by rw [hcmd, decode_short short])
  · have taken := decode_whole whole
    rw [← hcmd] at taken
    cases hd : decodeHeader h (tl.take (lengthByOp h - 1)) with
    | none =>
      rw [decodeTaken_of_none hd] at taken
      cases (step_illegal ready taken).symm.trans hstep; rfl
    | some i =>
      rw [decodeTaken_of_some hd] at taken
      exact exec_cmdIn ((step_command ready taken).symm.trans hstep)

/-! ### The rotor operand -/

/-- The rotor a command selects, when it selects one (30_encoding R72, R73). -/
def rotorOperand : Instr → Option Nat
  | .ldrot r _ | .rdrot r | .rdsh r | .rstsh r | .genrot r => some r
  | .enc _ | .ldref _ | .rdref | .genref => none

/-- A command on a rotor that is not there is refused before it does anything else (30_encoding R76). -/
theorem exec_badRotorSelect {i : Instr} {r : Nat} {s : State} (hi : rotorOperand i = some r)
    (hr : s.rotors[r]? = none) : exec i s = .next (s.raise .badRotorSelect) := by
  cases i <;> cases hi <;> exact withRotorOperand_none hr _

/-- The five rotor headers are headers of commands on rotor `R`, whatever the payload (30_encoding R72). -/
theorem decodeHeader_rotorHeader {h : Byte} (rotor : RotorHeader h) (p : List Byte) :
    ∃ i, decodeHeader h p = some i ∧ rotorOperand i = some (h.toNat % 16) := by
  rw [← rField_eq]
  unfold RotorHeader at rotor
  rw [← opField_eq] at rotor
  unfold decodeHeader
  rcases rotor with hop | hop | hop | hop | hop <;> rw [hop] <;> exact ⟨_, rfl, rfl⟩

/-- Settles O6: the header gives a command on rotor `R`, and every such command begins with its operand. -/
theorem rotorSelectOutOfRange : Obligations.RotorSelectOutOfRange := by
  intro s h tl ready hcmd rotor outOfRange whole
  obtain ⟨i, header, operand⟩ := decodeHeader_rotorHeader rotor (tl.take (lengthByOp h - 1))
  have taken : decode s.cmdIn = .command i (tl.drop (lengthByOp h - 1)) := by
    rw [hcmd, decode_whole whole, decodeTaken_of_some header]
  rw [step_command ready taken]
  exact exec_badRotorSelect operand (List.getElem?_eq_none outOfRange)

end Sys2Proof.Machine

/-!
Responses (spec 30_encoding R80): a command that ends answers once, and one that has not ended not at all.
-/

namespace Sys2Proof.Machine

open Sys2Proof.Claims

/-- From `s` to `t` one response has gone out: a status, and a payload only with `OK`. -/
def OneResponse (s t : State) : Prop :=
  ∃ (st : Status) (p : List Byte), t.respOut = s.respOut ++ [st.code :: p] ∧ (st ≠ .ok → p = [])

theorem oneResponse_status {s t : State} (st : Status) (h : t.respOut = s.respOut ++ [[st.code]]) : OneResponse s t :=
  ⟨st, [], h, fun _ => rfl⟩

theorem oneResponse_ok {s t : State} {p : List Byte} (h : t.respOut = s.respOut ++ [okResponse p]) : OneResponse s t :=
  ⟨.ok, p, h, fun ne => absurd rfl ne⟩

/-- A command that uses no draw answers at once. -/
theorem exec_drawless_oneResponse {i : Instr} {s t : State} (hi : drawless i = true) (h : exec i s = .next t) :
    OneResponse s t := by
  cases i with
  | enc c =>
    rcases execEnc_cases h with ⟨-, rfl⟩ | ⟨-, -, rfl⟩ | ⟨-, -, x, -, rfl⟩
    · exact oneResponse_ok rfl
    · exact oneResponse_status _ rfl
    · exact oneResponse_ok rfl
  | ldrot r k => rcases execLdrot_cases h with ⟨-, rfl⟩ | ⟨ρ, -, rfl⟩ <;> exact oneResponse_status _ rfl
  | ldref k => cases (execLdref_eq k s).symm.trans h; exact oneResponse_status _ rfl
  | rdrot r =>
    rcases execRdrot_cases h with ⟨-, rfl⟩ | ⟨ρ, -, ⟨-, p, -, rfl⟩ | ⟨-, rfl⟩⟩
    · exact oneResponse_status _ rfl
    · exact oneResponse_ok rfl
    · exact oneResponse_status _ rfl
  | rdref =>
    rcases readBack_cases h with ⟨-, p, -, rfl⟩ | ⟨-, rfl⟩
    · exact oneResponse_ok rfl
    · exact oneResponse_status _ rfl
  | rdsh r =>
    rcases execRdsh_cases h with ⟨-, rfl⟩ | ⟨ρ, -, rfl⟩
    · exact oneResponse_status _ rfl
    · exact oneResponse_ok rfl
  | rstsh r =>
    rcases execRstsh_cases h with ⟨-, rfl⟩ | ⟨ρ, -, rfl⟩
    · exact oneResponse_status _ rfl
    · exact oneResponse_ok rfl
  | genrot r => cases hi
  | genref => cases hi

/-- From `s` to `t` a command has ended with one response, or it has not ended and there is none (41_generate R116). -/
def AnsweredOrBusy (s t : State) : Prop :=
  (t.respOut = s.respOut ∧ t.busy ≠ .idle) ∨ (t.busy = .idle ∧ OneResponse s t)

theorem RotorRun.answeredOrBusy {r : Nat} {s t : State} (run : RotorRun r s t) : AnsweredOrBusy s t := by
  rcases run.outcome with ⟨⟨pos, used, busy⟩, silent, -⟩ | ⟨idle, response, -⟩
  · exact Or.inl ⟨silent, by rw [busy]; exact nofun⟩
  · exact Or.inr ⟨idle, oneResponse_ok response⟩

theorem ReflRun.answeredOrBusy {s t : State} (run : ReflRun s t) : AnsweredOrBusy s t := by
  rcases run.outcome with ⟨⟨pos, used, busy⟩, silent⟩ | ⟨idle, response, -⟩
  · exact Or.inl ⟨silent, by rw [busy]; exact nofun⟩
  · exact Or.inr ⟨idle, oneResponse_ok response⟩

/-- A generate command in progress goes on, or ends with its response. -/
theorem resumeGenerate_answeredOrBusy {s : State} (busy : s.busy ≠ .idle) : AnsweredOrBusy s (resumeGenerate s) := by
  cases hb : s.busy with
  | idle => exact absurd hb busy
  | genRotor r pos used => exact (runDraws_rotor s.entropyIn hb).answeredOrBusy
  | genRefl pos used => exact (runDraws_refl s.entropyIn hb).answeredOrBusy

/-- A command on an idle engine ends with one response, or leaves the engine busy with none. -/
theorem exec_answeredOrBusy {i : Instr} {s t : State} (idle : s.busy = .idle) (h : exec i s = .next t) :
    AnsweredOrBusy s t := by
  rcases drawless_or_generate i with hi | ⟨r, rfl⟩ | rfl
  · exact Or.inr ⟨(exec_drawless_busy hi h).trans idle, exec_drawless_oneResponse hi h⟩
  · rcases execGenrot_cases h with ⟨-, rfl⟩ | ⟨ρ, -, rfl⟩
    · exact Or.inr ⟨idle, oneResponse_status _ rfl⟩
    · exact (genrot_run r ρ s).answeredOrBusy
  · cases (execGenref_eq s).symm.trans h
    exact (genref_run s).answeredOrBusy

/-- Settles O9: a step waits, or is a command or a generate command in progress, each answered or still busy. -/
theorem oneResponsePerCommand : Obligations.OneResponsePerCommand := by
  intro s t hr h
  have answered (event : AnsweredOrBusy s t) :
      (t.respOut = s.respOut ∧ (t = s ∨ t.busy ≠ .idle)) ∨ (t.busy = .idle ∧ OneResponse s t) :=
    event.imp_left fun ⟨silent, busy⟩ => ⟨silent, Or.inr busy⟩
  rcases step_cases h with ⟨reset, -⟩ | ⟨-, busy, rfl⟩ | ⟨-, -, -, rfl⟩ | ⟨-, idle, rest, -, rfl⟩ |
    ⟨-, idle, i, rest, -, hx⟩
  · exact absurd (hr.symm.trans reset) Bool.false_ne_true
  · exact answered (resumeGenerate_answeredOrBusy busy)
  · exact Or.inl ⟨rfl, Or.inl rfl⟩
  · exact Or.inr ⟨idle, oneResponse_status .illegalCommand rfl⟩
  · exact answered (exec_answeredOrBusy (s := s.withCmdIn rest) idle hx)

/-! ### `RSTALL` -/

/-- `RSTSH` of the rotors of `todo` in turn, the rotors of `done` standing before them in the bank. -/
theorem runCommands_rstsh {done todo : List Rotor} {s : State} (idle : s.busy = .idle)
    (bank : s.rotors = done ++ todo) :
    runCommands ((List.range' done.length todo.length).map Instr.rstsh) s =
      .ended ((s.withRotors (done ++ todo.map fun ρ => ρ.withShift 0)).withRespOut
        (s.respOut ++ List.replicate todo.length [0x00])) := by
  induction todo generalizing done s with
  | nil =>
    have same : (s.withRotors (done ++ [])).withRespOut (s.respOut ++ []) = s := by
      rw [← bank, List.append_nil]; rfl
    exact (runCommands_nil idle).trans (congrArg RunResult.ended same.symm)
  | cons ρ todo ih =>
    have selected : s.rotors[done.length]? = some ρ := by simp [bank]
    have first : exec (.rstsh done.length) s = .next ((s.setRotor done.length (ρ.withShift 0)).respond []) :=
      withRotorOperand_some selected _
    have written : s.rotors.set done.length (ρ.withShift 0) = (done ++ [ρ.withShift 0]) ++ todo := by simp [bank]
    have others := ih (done := done ++ [ρ.withShift 0]) (s := (s.setRotor done.length (ρ.withShift 0)).respond [])
      idle written
    rw [List.length_append] at others
    rw [List.length_cons, List.range'_succ, List.map_cons, runCommands_cons idle, first]
    refine others.trans (congrArg RunResult.ended ?_)
    simp only [List.append_assoc, State.respond_respOut, State.setRotor_respOut]
    rfl

/-- Settles O23: the run from rotor 0 on, with no rotor before it. -/
theorem rstallResult : Obligations.RstallResult := by
  refine ⟨fun n => rfl, fun s idle => ?_⟩
  rw [rstall, List.range_eq_range']
  exact runCommands_rstsh (done := []) idle rfl

end Sys2Proof.Machine

/-!
The alphabet (spec 40_alphabet R100 to R104): letters, their indices, and the way back.
-/

namespace Sys2Proof.Machine

/-- R100 by character codes. -/
theorem isLetter_iff_code (c : Byte) : isLetter c = true ↔
    (0x41 ≤ c.toNat ∧ c.toNat ≤ 0x5A) ∨ (0x61 ≤ c.toNat ∧ c.toNat ≤ 0x7A) := by
  rw [isLetter_iff, isUpper_iff, isLower_iff]

theorem letterToIndex_of_not_letter {c : Byte} (hu : ¬ isUpper c = true) (hl : ¬ isLower c = true) :
    letterToIndex c = 0 := by
  rw [letterToIndex, if_neg hu, if_neg hl]

/-- R101 by character codes: an upper-case letter, a lower-case letter, any other byte. -/
theorem letterToIndex_val (c : Byte) : (letterToIndex c).val =
    if 0x41 ≤ c.toNat ∧ c.toNat ≤ 0x5A then c.toNat - 0x41
    else if 0x61 ≤ c.toNat ∧ c.toNat ≤ 0x7A then c.toNat - 0x61 else 0 := by
  simp only [← isUpper_iff, ← isLower_iff]
  split_ifs with hu hl
  · exact letterToIndex_upper_val hu
  · exact letterToIndex_lower_val hl
  · rw [letterToIndex_of_not_letter hu hl]; rfl

theorem indexToLetter_of_ge {i : Nat} (h : 26 ≤ i) : indexToLetter i = Config.invalidLetter :=
  if_neg (Nat.not_le_of_lt h)

/-- The upper-case form of a letter by its code: the two cases of letters lie on either side of 0x5A (R103). -/
theorem upperCase_of_letter {c : Byte} (h : isLetter c = true) :
    upperCase c = if c.toNat ≤ 0x5A then c else BitVec.ofNat 8 (c.toNat - 0x20) := by
  have side : isLower c = true ↔ ¬ c.toNat ≤ 0x5A := by
    have codes := (isLetter_iff_code c).mp h
    rw [isLower_iff]; omega
  simp only [upperCase, side, ite_not]

/-- Among the 256 bytes stand 26 letters of each case. -/
theorem count_letters : ((List.range 256).filter fun n => isLetter (BitVec.ofNat 8 n)).length = 52 := by
  decide

/-- Settles O12: each part is the law of its function. -/
theorem lettersAndIndices : Obligations.LettersAndIndices :=
  ⟨isLetter_iff_code, count_letters, letterToIndex_val,
    fun i hi => indexToLetter_toNat ⟨i, Nat.lt_succ_of_le hi⟩,
    fun _ => indexToLetter_of_ge,
    fun i => ⟨indexToLetter_isLetter i, letterToIndex_indexToLetter i⟩,
    fun _ h => (indexToLetter_letterToIndex h).trans (upperCase_of_letter h)⟩

end Sys2Proof.Machine

/-!
One draw and a run of draws (spec 41_generate R110 to R113, R116): what a draw does to a generate command in progress,
and what one that is rejected leaves.
-/

namespace Sys2Proof.Machine

open Sys2Proof.Claims

/-! ### The probe -/

/-- Settles O31: the unused value lies some number of positions after the draw, and the probe looks at all 26. -/
theorem probeFindsTheFirstUnused : Obligations.ProbeFindsTheFirstUnused := by
  rintro d used ⟨v, unused⟩
  have ofNat_val (n : Index) : Fin.ofNat 26 n.val = n := Fin.ofNat_val_eq_self n
  have reached : used.has (d + Fin.ofNat 26 (v - d).val) = false := by
    rw [ofNat_val, add_sub_cancel]; exact unused
  obtain ⟨n, hn, found, free, before⟩ := probeFrom_spec ⟨(v - d).val, (v - d).isLt, reached⟩
  have hval : Fin.ofNat 26 n = ⟨n, hn⟩ := ofNat_val ⟨n, hn⟩
  rw [hval] at found free
  refine ⟨⟨n, hn⟩, found, free, fun m hm => ?_⟩
  rw [← ofNat_val m]; exact before m.val hm

/-- With one value unused, every draw probes to it. -/
theorem probe_of_one_unused {used : Mask} {w : Index} (h : ∀ v : Index, used.has v = decide (v ≠ w)) (d : Index) :
    probe d used = some w := by
  obtain ⟨n, found, free, -⟩ := probeFindsTheFirstUnused d used ⟨w, (h w).trans (by simp)⟩
  rw [h, decide_eq_false_iff_not, not_not] at free
  rw [found, free]

/-! ### One draw -/

/-- A draw whose probe is not the position offers it (41_generate R112, R113). -/
theorem candidate_of_probe {pos : Index} {used : Mask} {d v : Index} (h : probe d used = some v) (hne : v ≠ pos) :
    candidate pos used d = some v := by
  simp [candidate, h, hne]

theorem genDraw_rotor_rejected {r : Nat} {s : State} {pos : Index} {used : Mask} {d : Index}
    (hb : s.busy = .genRotor r pos used) (hc : candidate pos used d = none) : genDraw d s = s := by
  cases hr : s.rotors[r]? <;> simp [genDraw, hb, hr, hc]

theorem genDraw_rotor_accepted {r : Nat} {s : State} {ρ : Rotor} {pos : Index} {used : Mask} {d v : Index}
    (hb : s.busy = .genRotor r pos used) (hr : s.rotors[r]? = some ρ) (hc : candidate pos used d = some v) :
    genDraw d s = acceptRotor r ρ pos used v s := by
  simp [genDraw, hb, hr, hc]

theorem genDraw_refl_rejected {s : State} {pos : Index} {used : Mask} {d : Index}
    (hb : s.busy = .genRefl pos used) (hc : candidate pos used d = none) : genDraw d s = s := by
  simp [genDraw, hb, hc]

theorem genDraw_refl_accepted {s : State} {pos : Index} {used : Mask} {d v : Index}
    (hb : s.busy = .genRefl pos used) (hc : candidate pos used d = some v) :
    genDraw d s = acceptRefl pos used v s := by
  simp [genDraw, hb, hc]

/-- A draw that probes to the position of the command in progress changes nothing (41_generate R116 (a)). -/
theorem genDraw_probes_to_position {s : State} {pos : Index} {used : Mask} {d : Index}
    (hb : (∃ r, s.busy = .genRotor r pos used) ∨ s.busy = .genRefl pos used) (hp : probe d used = some pos) :
    genDraw d s = s := by
  rcases hb with ⟨r, hb⟩ | hb
  · exact genDraw_rotor_rejected hb (candidate_rejected hp)
  · exact genDraw_refl_rejected hb (candidate_rejected hp)

/-- Rotor `ρ` with position `pos` given the value `v`: one cell of each table. -/
abbrev Rotor.mapped (ρ : Rotor) (pos v : Index) : Rotor := ρ.withTables (ρ.fwd.write pos v) (ρ.inv.write v pos)

theorem acceptRotor_next {pos : Index} (hp : pos ≠ 25) (r : Nat) (ρ : Rotor) (used : Mask) (v : Index) (s : State) :
    acceptRotor r ρ pos used v s = (s.setRotor r (ρ.mapped pos v)).withBusy (.genRotor r (pos + 1) (used.mark v)) := by
  have : pos.val ≠ 25 := fun e => hp (Fin.ext e)
  simp [acceptRotor, this, nextIndex_eq]

theorem acceptRotor_last (r : Nat) (ρ : Rotor) (used : Mask) (v : Index) (s : State) :
    acceptRotor r ρ 25 used v s = ((s.setRotor r (finishRotor (ρ.mapped 25 v))).withBusy .idle).respond [] := rfl

/-- The table of the reflector with `pos` and `v` paired. -/
abbrev Memory.paired (m : Memory) (pos v : Index) : Memory := (m.write pos v).write v pos

theorem Memory.read_paired (m : Memory) {pos v : Index} (hne : v ≠ pos) (i : Index) :
    (m.paired pos v).read i = if i = pos then some v else if i = v then some pos else m.read i := by
  simp only [Memory.read_write]
  split_ifs with hv hp
  · exact absurd (hv.symm.trans hp) hne
  · rfl
  · rfl
  · rfl

theorem acceptRefl_next {pos p : Index} {used : Mask} {v : Index} (s : State)
    (h : nextUnpaired pos ((used.mark pos).mark v) = some p) :
    acceptRefl pos used v s =
      (s.withRefl (s.refl.paired pos v)).withBusy (.genRefl p ((used.mark pos).mark v)) := by
  simp [acceptRefl, h]

theorem acceptRefl_last {pos : Index} {used : Mask} {v : Index} (s : State)
    (h : nextUnpaired pos ((used.mark pos).mark v) = none) :
    acceptRefl pos used v s =
      (((s.withRefl (s.refl.paired pos v)).withReflValid true).withBusy .idle).respond [] := by
  simp [acceptRefl, h]

/-- The next unpaired position is the first above `pos` that the mask does not mark. -/
theorem nextUnpaired_some {pos p : Index} {used : Mask} (h : nextUnpaired pos used = some p) :
    pos < p ∧ used.has p = false ∧ ∀ i : Index, pos < i → i < p → used.has i = true := by
  obtain ⟨hp, before, after, split, skipped⟩ := List.find?_eq_some_iff_append.mp h
  simp only [Bool.and_eq_true, decide_eq_true_eq, Bool.not_eq_true'] at hp
  refine ⟨hp.1, hp.2, fun i hi hip => ?_⟩
  simpa [hi] using skipped i ((mem_before split i).mpr hip)

theorem nextUnpaired_none {pos : Index} {used : Mask} (h : nextUnpaired pos used = none) (i : Index) (hi : pos < i) :
    used.has i = true := by
  simpa [hi] using List.find?_eq_none.mp h i (mem_allIndices i)

/-! ### A run of draws -/

/-- A generate command in progress uses the answers on the entropy port, whichever they are. -/
theorem step_withEntropyIn {s : State} (hr : s.resetIn = false) (hb : s.busy ≠ .idle) (l : List Index) :
    step (s.withEntropyIn l) = .next (runDraws l s) := by
  rw [step_busy (s := s.withEntropyIn l) hr hb, resumeGenerate, runDraws_withEntropyIn]; rfl

theorem step_generating {s : State} (hr : s.resetIn = false) (hb : s.busy ≠ .idle) :
    step s = .next (runDraws s.entropyIn s) := step_busy hr hb

theorem runDraws_one {s : State} (hb : s.busy ≠ .idle) (d : Index) :
    runDraws [d] s = (genDraw d s).withEntropyIn [] := runDraws_cons hb d []

/-- The step on one answer is one draw (41_generate R110). -/
theorem step_one_draw {s : State} {d : Index} (hr : s.resetIn = false) (hb : s.busy ≠ .idle) (he : s.entropyIn = [d]) :
    step s = .next ((genDraw d s).withEntropyIn []) := by
  rw [step_generating hr hb, he, runDraws_one hb]

/-- Draws that change nothing are used up (41_generate R116). -/
theorem runDraws_unchanged {l : List Index} {s : State} (hb : s.busy ≠ .idle) (h : ∀ d ∈ l, genDraw d s = s) :
    runDraws l s = s.withEntropyIn [] := by
  induction l with
  | nil => rfl
  | cons d l ih =>
    rw [runDraws_cons hb, h d List.mem_cons_self]
    exact ih fun d' hd' => h d' (List.mem_cons_of_mem d hd')

/-- A draw does not touch the reset input. -/
theorem genDraw_resetIn (d : Index) (s : State) : (genDraw d s).resetIn = s.resetIn := by
  rcases genDraw_cases d s with e | ⟨r, pos, used, ρ, v, -, -, -, e⟩ | ⟨pos, used, v, -, -, e⟩
  · rw [e]
  · obtain ⟨-, -, -, -, reset, -⟩ := acceptRotor_fields r ρ pos used v s
    rw [e, reset]
  · obtain ⟨-, -, -, reset, -⟩ := acceptRefl_fields pos used v s
    rw [e, reset]

/-! ### How a generate command begins and goes on -/

/-- Settles O32: a run of no draws from the command's beginning. -/
theorem generationBegins : Obligations.GenerationBegins := by
  constructor
  · intro r s ρ hr he
    refine (execGenrot_some hr).trans ?_
    rw [he]; cases s; cases he; rfl
  · intro s he
    refine (execGenref_eq s).trans ?_
    rw [he]; cases s; cases he; rfl

/-- Settles O33: a draw is rejected, or accepted below position 25 or at it. -/
theorem oneDrawOfGenrot : Obligations.OneDrawOfGenrot := by
  intro r s ρ pos used d v hreset hb hr he hp
  rw [step_one_draw hreset (by simp [hb]) he]
  refine ⟨fun e => ?_, fun hne => ?_⟩
  · rw [genDraw_probes_to_position (.inl ⟨r, hb⟩) (e ▸ hp)]
  · rw [genDraw_rotor_accepted hb hr (candidate_of_probe hp hne)]
    by_cases hpos : pos = 25
    · subst hpos
      exact ⟨finishRotor (ρ.mapped 25 v), Memory.read_write ρ.fwd 25 v, Memory.read_write ρ.inv v 25,
        fun below => absurd below (lt_irrefl _), fun _ => ⟨rfl, rfl, rfl⟩⟩
    · refine ⟨ρ.mapped pos v, Memory.read_write ρ.fwd pos v, Memory.read_write ρ.inv v pos,
        fun _ => ⟨rfl, rfl, used.mark v, fun w => ?_, ?_⟩, fun e => absurd e hpos⟩
      · simp [or_comm]
      · rw [acceptRotor_next hpos]; rfl

/-- Settles O34: a draw is rejected, or accepted with another position to pair or as the last. -/
theorem oneDrawOfGenref : Obligations.OneDrawOfGenref := by
  intro s pos used d v hreset hb he hp
  rw [step_one_draw hreset (by simp [hb]) he]
  refine ⟨fun e => ?_, fun hne => ?_⟩
  · rw [genDraw_probes_to_position (.inr hb) (e ▸ hp)]
  · rw [genDraw_refl_accepted hb (candidate_of_probe hp hne)]
    refine ⟨s.refl.paired pos v, (used.mark pos).mark v, Memory.read_paired s.refl hne, fun w => ?_, ?_⟩
    · simp only [Mask.has_mark, Bool.or_eq_true, decide_eq_true_eq]
      tauto
    · cases hn : nextUnpaired pos ((used.mark pos).mark v) with
      | some p =>
        obtain ⟨above, unused, between⟩ := nextUnpaired_some hn
        exact Or.inl ⟨p, above, unused, between, by rw [acceptRefl_next s hn]⟩
      | none => exact Or.inr ⟨nextUnpaired_none hn, by rw [acceptRefl_last s hn]; rfl⟩

/-- Settles O57: both steps are runs of draws, which do not look at what else the entropy port holds. -/
theorem drawsOneAtATime : Obligations.DrawsOneAtATime := by
  refine ⟨fun s t d ds hreset hb he h => ?_, fun r s t hreset hr h => ?_, fun s t hreset h => ?_⟩
  · rw [step_withEntropyIn hreset hb, runDraws_one hb] at h
    cases h
    rw [step_generating hreset hb, he, runDraws_cons hb]
    refine ⟨fun busy => ?_, fun idle => ?_⟩
    · have still : (genDraw d s).resetIn = false := (genDraw_resetIn d s).trans hreset
      exact (step_withEntropyIn still busy ds).symm
    · rw [runDraws_idle (s := genDraw d s) idle]; rfl
  · have hρ := List.getElem?_eq_getElem hr
    cases (execGenrot_some (s := s.withEntropyIn []) hρ).symm.trans h
    have begun : (genrotStart r s.rotors[r] s).busy ≠ .idle := nofun
    exact ⟨begun, (execGenrot_some hρ).trans
      (step_withEntropyIn (s := genrotStart r s.rotors[r] s) hreset begun s.entropyIn).symm⟩
  · cases (execGenref_eq (s.withEntropyIn [])).symm.trans h
    have begun : (genrefStart s).busy ≠ .idle := nofun
    exact ⟨begun, (execGenref_eq s).trans (step_withEntropyIn (s := genrefStart s) hreset begun s.entropyIn).symm⟩

/-- Settles O39: every draw that waits is rejected. -/
theorem generationCanHang : Obligations.GenerationCanHang := by
  have hang : ∀ (s : State) (pos : Index) (used : Mask), s.resetIn = false →
      ((∃ r, s.busy = .genRotor r pos used) ∨ s.busy = .genRefl pos used) →
      (∀ d ∈ s.entropyIn, probe d used = some pos) → step s = .next (s.withEntropyIn []) := by
    intro s pos used hreset hb hp
    have busy : s.busy ≠ .idle := by
      rcases hb with ⟨r, hb⟩ | hb <;> rw [hb] <;> exact nofun
    rw [step_generating hreset busy, runDraws_unchanged busy fun d hd => genDraw_probes_to_position hb (hp d hd)]
  exact ⟨hang, fun s r used hreset hb h => hang s 25 used hreset (.inl ⟨r, hb⟩) fun d _ => probe_of_one_unused h d⟩

/-! ### What the invariant says of a generate command in progress -/

theorem State.Inv.generatingRotor {s : State} {r : Nat} {pos : Index} {used : Mask} (h : s.Inv)
    (hb : s.busy = .genRotor r pos used) :
    ∃ ρ, s.rotors[r]? = some ρ ∧ ρ.valid = false ∧ RotorFilled ρ pos.val used := by
  obtain ⟨-, -, -, -, busy, -⟩ := h
  cases hr : s.rotors[r]? with
  | none => simp [busyOk, hb, hr] at busy
  | some ρ =>
    simp only [busyOk, hb, State.rotor_eq, hr, Bool.and_eq_true, Bool.not_eq_true', decide_eq_true_eq] at busy
    exact ⟨ρ, rfl, busy.1, (rotorProgress_iff ρ pos used).mp busy.2⟩

theorem State.Inv.generatingRefl {s : State} {pos : Index} {used : Mask} (h : s.Inv)
    (hb : s.busy = .genRefl pos used) :
    s.reflValid = false ∧ ReflFilled s.refl used ∧ (∀ i, i < pos → used.has i = true) ∧ used.has pos = false := by
  obtain ⟨-, -, -, -, busy, -⟩ := h
  simp only [busyOk, hb, Bool.and_eq_true, Bool.not_eq_true', decide_eq_true_eq] at busy
  exact ⟨busy.1, (reflProgress_iff s.refl pos used).mp busy.2⟩

/-- Settles O40: the frame of the step, the response that only an end sends, and the invariant of the step. -/
theorem busyEngineTakesNoCommand : Obligations.BusyEngineTakesNoCommand := by
  intro s t hreset hb h
  obtain ⟨cmdIn, -⟩ := frameOfResumedGeneration s t hreset hb h
  cases (step_busy hreset hb).symm.trans h
  refine ⟨cmdIn, fun busy => ?_, fun inv _ => ?_⟩
  · rcases resumeGenerate_answeredOrBusy hb with ⟨silent, -⟩ | ⟨idle, -⟩
    · exact silent
    · exact absurd idle busy
  · have inv' : (resumeGenerate s).Inv := runDraws_inv s.entropyIn inv
    refine ⟨fun r pos used hb' ρ hρ => ?_, fun pos used hb' => ?_⟩
    · obtain ⟨σ, hσ, invalid, -⟩ := inv'.generatingRotor hb'
      cases hσ.symm.trans hρ
      exact invalid
    · obtain ⟨invalid, -⟩ := inv'.generatingRefl hb'
      exact invalid

end Sys2Proof.Machine

/-!
`GENROT` over a run of draws (spec 41_generate R112, R114, R115): how far it has come, what it has filled, and that two
runs on the same draws stay alike.
-/

namespace Sys2Proof.Machine

open Sys2Proof.Claims

/-! ### Two inductions over a run of draws -/

/-- A count that one draw raises by at most `k` is raised by at most `k` for each draw used. -/
theorem runDraws_counts {C : Nat → State → Prop} {k : Nat}
    (draw : ∀ d n s, s.busy ≠ .idle → C n s → ∃ m, m ≤ n + k ∧ C m (genDraw d s))
    (port : ∀ n s l, C n s → C n (s.withEntropyIn l)) (l : List Index) {n : Nat} {s : State} (h : C n s) :
    ∃ draws m, l = draws ++ (runDraws l s).entropyIn ∧ m ≤ n + k * draws.length ∧ C m (runDraws l s) := by
  induction l generalizing n s with
  | nil => exact ⟨[], n, rfl, Nat.le_add_right n _, port n s [] h⟩
  | cons d l ih =>
    by_cases hb : s.busy = .idle
    · rw [runDraws_idle hb]
      exact ⟨[], n, rfl, Nat.le_add_right n _, port n s _ h⟩
    · obtain ⟨m, hm, hd⟩ := draw d n s hb h
      obtain ⟨draws, m', split, hm', hr⟩ := ih hd
      rw [runDraws_cons hb]
      refine ⟨d :: draws, m', congrArg (d :: ·) split, ?_, hr⟩
      rw [List.length_cons, Nat.mul_succ]; omega

/-- A relation that ends a command on both sides or on neither, and that a draw keeps, holds after the same draws;
both sides leave the same answers. -/
theorem runDraws_related {R : State → State → Prop} (idle : ∀ s s', R s s' → (s.busy = .idle ↔ s'.busy = .idle))
    (draw : ∀ d s s', s.busy ≠ .idle → R s s' → R (genDraw d s) (genDraw d s'))
    (port : ∀ s s' l, R s s' → R (s.withEntropyIn l) (s'.withEntropyIn l)) (l : List Index) {s s' : State}
    (h : R s s') :
    R (runDraws l s) (runDraws l s') ∧ (runDraws l s').entropyIn = (runDraws l s).entropyIn := by
  induction l generalizing s s' with
  | nil => exact ⟨port s s' [] h, rfl⟩
  | cons d l ih =>
    by_cases hb : s.busy = .idle
    · rw [runDraws_idle hb, runDraws_idle ((idle s s' h).mp hb)]
      exact ⟨port s s' _ h, rfl⟩
    · rw [runDraws_cons hb, runDraws_cons (mt (idle s s' h).mpr hb)]
      exact ih (draw d s s' hb h)

/-! ### How far `GENROT` has come -/

/-- `GENROT r` has `n` positions behind it and the mask `used`, or it has ended, all 26 behind it. -/
def RotorStage (r n : Nat) (used : Mask) (s : State) : Prop :=
  (s.busy = .idle ∧ n = 26) ∨ ∃ pos : Index, s.busy = .genRotor r pos used ∧ pos.val = n

theorem RotorStage.idle_iff {r n : Nat} {used : Mask} {s : State} (h : RotorStage r n used s) :
    s.busy = .idle ↔ n = 26 := by
  rcases h with ⟨idle, full⟩ | ⟨pos, busy, hpos⟩
  · exact ⟨fun _ => full, fun _ => idle⟩
  · have := pos.isLt
    exact ⟨fun idle => (nomatch idle.symm.trans busy), fun full => by omega⟩

theorem RotorStage.position {r n : Nat} {used : Mask} {s : State} (h : RotorStage r n used s) (hb : s.busy ≠ .idle) :
    ∃ pos : Index, s.busy = .genRotor r pos used ∧ pos.val = n :=
  h.resolve_left fun ⟨idle, _⟩ => hb idle

/-- An accepted value takes the command one position further (41_generate R112). -/
theorem acceptRotor_stage (r : Nat) (ρ : Rotor) (pos : Index) (used : Mask) (v : Index) (s : State) :
    RotorStage r (pos.val + 1) (used.mark v) (acceptRotor r ρ pos used v s) := by
  by_cases hpos : pos = 25
  · subst hpos
    exact Or.inl ⟨rfl, rfl⟩
  · have below : pos.val + 1 < 26 := by
      have := Fin.val_ne_of_ne hpos
      omega
    rw [acceptRotor_next hpos]
    exact Or.inr ⟨pos + 1, rfl, Fin.val_add_one_of_lt' below⟩

/-- One draw takes `GENROT` at most one position further (41_generate R112). -/
theorem RotorStage.draw {r n : Nat} {used : Mask} {s : State} (h : RotorStage r n used s) (hb : s.busy ≠ .idle)
    (d : Index) : ∃ m, m ≤ n + 1 ∧ ∃ used', RotorStage r m used' (genDraw d s) := by
  obtain ⟨pos, busy, rfl⟩ := h.position hb
  rcases genDraw_cases d s with e | ⟨r', pos', used', ρ, v, hb', -, -, e⟩ | ⟨pos', used', v, hb', -, -⟩
  · rw [e]; exact ⟨pos.val, Nat.le_succ _, used, h⟩
  · cases busy.symm.trans hb'
    rw [e]; exact ⟨pos.val + 1, le_rfl, used.mark v, acceptRotor_stage r ρ pos used v s⟩
  · cases busy.symm.trans hb'

/-- Over a run `GENROT` comes at most one position further per draw used (41_generate R115). -/
theorem RotorStage.afterDraws {r n : Nat} {used : Mask} {s : State} (h : RotorStage r n used s) (l : List Index) :
    ∃ draws m, l = draws ++ (runDraws l s).entropyIn ∧ m ≤ n + draws.length ∧
      ∃ used', RotorStage r m used' (runDraws l s) := by
  simpa only [one_mul] using runDraws_counts (C := fun n s => ∃ used, RotorStage r n used s) (k := 1)
    (fun d _ _ hb ⟨_, h⟩ => h.draw hb d) (fun _ _ _ h => h) l ⟨used, h⟩

/-! ### What `GENROT` has filled -/

theorem RotorFilled.congr {ρ σ : Rotor} {n : Nat} {used : Mask} (h : RotorFilled ρ n used) (hf : σ.fwd = ρ.fwd)
    (hi : σ.inv = ρ.inv) : RotorFilled σ n used :=
  ⟨by rw [hf, hi]; exact h.pos, by rw [hf, hi]; exact h.val⟩

/-- `GENROT r` is making rotor `ρ`, with `n` positions filled by the values of `used`, or it has ended and left `ρ`. -/
structure RotorGen (r n : Nat) (used : Mask) (ρ : Rotor) (s : State) : Prop where
  rotor : s.rotors[r]? = some ρ
  filled : RotorFilled ρ n used
  stage : RotorStage r n used s
  finished : s.busy = .idle → ρ.shift = 0 ∧ ρ.valid = true

theorem RotorGen.withEntropyIn {r n : Nat} {used : Mask} {ρ : Rotor} {s : State} (h : RotorGen r n used ρ s)
    (l : List Index) : RotorGen r n used ρ (s.withEntropyIn l) :=
  ⟨h.rotor, h.filled, h.stage, h.finished⟩

theorem genrotStart_rotor {r : Nat} {ρ : Rotor} {s : State} (hr : s.rotors[r]? = some ρ) :
    (genrotStart r ρ s).rotors[r]? = some (invalidateRotor ρ) :=
  List.getElem?_set_self (List.getElem?_eq_some_iff.mp hr).1

theorem genrotStart_stage (r : Nat) (ρ : Rotor) (s : State) : RotorStage r 0 Mask.empty (genrotStart r ρ s) :=
  Or.inr ⟨0, rfl, rfl⟩

theorem genrotStart_gen {r : Nat} {ρ : Rotor} {s : State} (hr : s.rotors[r]? = some ρ) :
    RotorGen r 0 Mask.empty (invalidateRotor ρ) (genrotStart r ρ s) :=
  ⟨genrotStart_rotor hr, RotorFilled.start _, genrotStart_stage r ρ s, nofun⟩

theorem State.Inv.rotorGen {s : State} {r : Nat} {pos : Index} {used : Mask} (h : s.Inv)
    (hb : s.busy = .genRotor r pos used) : ∃ ρ, RotorGen r pos.val used ρ s := by
  obtain ⟨ρ, hr, -, filled⟩ := h.generatingRotor hb
  exact ⟨ρ, hr, filled, Or.inr ⟨pos, hb, rfl⟩, fun idle => nomatch idle.symm.trans hb⟩

/-- An accepted draw fills one position more, with the value it offers (41_generate R112). -/
theorem RotorGen.accept {r : Nat} {pos : Index} {used : Mask} {ρ : Rotor} {s : State} {d v : Index}
    (h : RotorGen r pos.val used ρ s) (hb : s.busy = .genRotor r pos used) (hc : candidate pos used d = some v) :
    ∃ σ, RotorGen r (pos.val + 1) (used.mark v) σ (genDraw d s) ∧ σ.fwd = ρ.fwd.write pos v := by
  obtain ⟨hr, filled, -, -⟩ := h
  obtain ⟨unused, hne⟩ := candidate_spec hc
  have filled' : RotorFilled (ρ.mapped pos v) (pos.val + 1) (used.mark v) := filled.accept unused hne
  have stage := acceptRotor_stage r ρ pos used v s
  have hlt : r < s.rotors.length := (List.getElem?_eq_some_iff.mp hr).1
  rw [genDraw_rotor_accepted hb hr hc]
  by_cases hpos : pos = 25
  · subst hpos
    exact ⟨finishRotor (ρ.mapped 25 v),
      ⟨List.getElem?_set_self hlt, filled'.congr rfl rfl, stage, fun _ => ⟨rfl, rfl⟩⟩, rfl⟩
  · rw [acceptRotor_next hpos] at stage ⊢
    exact ⟨ρ.mapped pos v, ⟨List.getElem?_set_self hlt, filled', stage, nofun⟩, rfl⟩

/-- `GENROT` that has ended leaves an exact derangement, shift 0 and flag 1 (41_generate R114). -/
theorem RotorGen.generated {r n : Nat} {used : Mask} {ρ : Rotor} {s : State} (h : RotorGen r n used ρ s)
    (idle : s.busy = .idle) : GeneratedRotor ρ := by
  obtain ⟨-, filled, stage, finished⟩ := h
  rw [stage.idle_iff.mp idle] at filled
  obtain ⟨exactness, derangement⟩ := filled.full
  exact ⟨exactness, derangement, finished idle⟩

/-- `GENROT r` is somewhere between its beginning and its end. -/
def Generating (r : Nat) (s : State) : Prop := ∃ n used ρ, RotorGen r n used ρ s

theorem Generating.draw {r : Nat} {s : State} (h : Generating r s) (hb : s.busy ≠ .idle) (d : Index) :
    Generating r (genDraw d s) := by
  obtain ⟨n, used, ρ, h⟩ := h
  obtain ⟨pos, busy, rfl⟩ := h.stage.position hb
  cases hc : candidate pos used d with
  | none => rw [genDraw_rotor_rejected busy hc]; exact ⟨_, _, _, h⟩
  | some v =>
    obtain ⟨σ, h', -⟩ := h.accept busy hc
    exact ⟨_, _, σ, h'⟩

theorem Generating.afterDraws {r : Nat} {s : State} (h : Generating r s) (l : List Index) :
    Generating r (runDraws l s) :=
  runDraws_keeps (P := Generating r) (fun d _ hb h => h.draw hb d)
    (fun _ l ⟨_, _, _, h⟩ => ⟨_, _, _, h.withEntropyIn l⟩) l s h

/-- Whatever the draws, what `GENROT` leaves at its end is good (41_generate R114). -/
theorem Generating.generated {r : Nat} {s : State} (h : Generating r s) (idle : s.busy = .idle) :
    ∃ ρ, s.rotors[r]? = some ρ ∧ GeneratedRotor ρ := by
  obtain ⟨n, used, ρ, h⟩ := h
  exact ⟨ρ, h.rotor, h.generated idle⟩

/-! ### Two runs of `GENROT` on the same draws -/

/-- `GENROT` on rotor `r` of `s` and on rotor `r'` of `s'` stand at the same point with the same cells filled. -/
def RotorTwins (r r' : Nat) (s s' : State) : Prop :=
  ∃ n used ρ ρ', RotorGen r n used ρ s ∧ RotorGen r' n used ρ' s' ∧
    ∀ i : Index, i.val < n → ρ.fwd.read i = ρ'.fwd.read i

theorem RotorTwins.idle_iff {r r' : Nat} {s s' : State} (h : RotorTwins r r' s s') :
    s.busy = .idle ↔ s'.busy = .idle := by
  obtain ⟨n, used, ρ, ρ', h, h', -⟩ := h
  exact h.stage.idle_iff.trans h'.stage.idle_iff.symm

theorem RotorTwins.draw {r r' : Nat} {s s' : State} (h : RotorTwins r r' s s') (hb : s.busy ≠ .idle) (d : Index) :
    RotorTwins r r' (genDraw d s) (genDraw d s') := by
  have hb' := mt h.idle_iff.mpr hb
  obtain ⟨n, used, ρ, ρ', h, h', same⟩ := h
  obtain ⟨pos, busy, rfl⟩ := h.stage.position hb
  obtain ⟨pos', busy', hpos⟩ := h'.stage.position hb'
  obtain rfl : pos' = pos := Fin.ext hpos
  cases hc : candidate pos' used d with
  | none =>
    rw [genDraw_rotor_rejected busy hc, genDraw_rotor_rejected busy' hc]
    exact ⟨_, used, ρ, ρ', h, h', same⟩
  | some v =>
    obtain ⟨σ, g, hσ⟩ := h.accept busy hc
    obtain ⟨σ', g', hσ'⟩ := h'.accept busy' hc
    refine ⟨_, _, σ, σ', g, g', fun i hi => ?_⟩
    rw [hσ, hσ', Memory.read_write, Memory.read_write]
    split_ifs with e
    · rfl
    · exact same i (by have := Fin.val_ne_of_ne e; omega)

theorem RotorTwins.afterDraws {r r' : Nat} {s s' : State} (h : RotorTwins r r' s s') (l : List Index) :
    RotorTwins r r' (runDraws l s) (runDraws l s') ∧ (runDraws l s').entropyIn = (runDraws l s).entropyIn :=
  runDraws_related (R := RotorTwins r r') (fun _ _ h => h.idle_iff) (fun d _ _ hb h => h.draw hb d)
    (fun _ _ l ⟨_, _, _, _, h, h', same⟩ => ⟨_, _, _, _, h.withEntropyIn l, h'.withEntropyIn l, same⟩) l h

/-- The inverse table of an exact rotor is determined by the forward one (10_state R25). -/
theorem Rotor.Exact.inv_eq {ρ σ : Rotor} (hρ : ρ.Exact) (hσ : σ.Exact) (same : ∀ i, ρ.fwd.read i = σ.fwd.read i)
    (v : Index) : ρ.inv.read v = σ.inv.read v := by
  obtain ⟨i, hi, hv⟩ := hρ.inv v
  obtain ⟨w, hw, back⟩ := hσ.fwd i
  cases hv.symm.trans ((same i).trans hw)
  exact hi.trans back.symm

/-- At the end both tables are the same (41_generate R115). -/
theorem RotorTwins.tables {r r' : Nat} {s s' : State} (h : RotorTwins r r' s s') (idle : s.busy = .idle) :
    ∃ ρ ρ', s.rotors[r]? = some ρ ∧ s'.rotors[r']? = some ρ' ∧
      ∀ i, ρ.fwd.read i = ρ'.fwd.read i ∧ ρ.inv.read i = ρ'.inv.read i := by
  have idle' := h.idle_iff.mp idle
  obtain ⟨n, used, ρ, ρ', h, h', same⟩ := h
  obtain ⟨exactness, -⟩ := h.generated idle
  obtain ⟨exactness', -⟩ := h'.generated idle'
  rw [h.stage.idle_iff.mp idle] at same
  have fwd : ∀ i, ρ.fwd.read i = ρ'.fwd.read i := fun i => same i i.isLt
  exact ⟨ρ, ρ', h.rotor, h'.rotor, fun i => ⟨fwd i, exactness.inv_eq exactness' fwd i⟩⟩

/-- Runs on the same draws from the same point leave the same answers and end alike (41_generate R115). -/
theorem RotorTwins.ends_alike {r r' : Nat} {s s' : State} (h : RotorTwins r r' s s') (l : List Index)
    (idle : (runDraws l s).busy = .idle) :
    (runDraws l s').busy = .idle ∧
      (runDraws l s').entropyIn = (runDraws l s).entropyIn ∧
      ∃ ρ ρ', (runDraws l s).rotors[r]? = some ρ ∧ (runDraws l s').rotors[r']? = some ρ' ∧
        ∀ i, ρ.fwd.read i = ρ'.fwd.read i ∧ ρ.inv.read i = ρ'.inv.read i := by
  obtain ⟨twins, entropy⟩ := h.afterDraws l
  exact ⟨twins.idle_iff.mp idle, entropy, twins.tables idle⟩

theorem genrotStart_twins {r r' : Nat} {ρ ρ' : Rotor} {s s' : State} (hr : s.rotors[r]? = some ρ)
    (hr' : s'.rotors[r']? = some ρ') : RotorTwins r r' (genrotStart r ρ s) (genrotStart r' ρ' s') :=
  ⟨_, _, _, _, genrotStart_gen hr, genrotStart_gen hr', fun i hi => absurd hi (Nat.not_lt_zero i.val)⟩

/-! ### `GENROT` on the values of a derangement -/

/-- The next value of an injective map is unused while the positions before hold its earlier values. -/
theorem RotorFilled.next_unused {f : Index → Index} (inj : Function.Injective f) {ρ : Rotor} {pos : Index} {used : Mask}
    (h : RotorFilled ρ pos.val used) (cells : ∀ i : Index, i.val < pos.val → ρ.fwd.read i = some (f i)) :
    used.has (f pos) = false := by
  rw [← Bool.not_eq_true]
  intro marked
  obtain ⟨i, hi, read, -⟩ := h.val _ marked
  have : i = pos := inj (Option.some.inj ((cells i hi).symm.trans read))
  exact absurd hi (this ▸ lt_irrefl _)

/-- Given the values of a derangement from position `n` on, `GENROT` fills the rest with them, one draw each, and ends
(41_generate R112). -/
theorem RotorGen.spell {f : Index → Index} (inj : Function.Injective f) (hf : ∀ i, f i ≠ i) (more : List Index)
    (k : Nat) {r n : Nat} {used : Mask} {ρ : Rotor} {s : State} (hk : n + k = 26) (h : RotorGen r n used ρ s)
    (cells : ∀ i : Index, i.val < n → ρ.fwd.read i = some (f i)) :
    ∃ used' σ, RotorGen r 26 used' σ (runDraws ((allIndices.drop n).map f ++ more) s) ∧
      (runDraws ((allIndices.drop n).map f ++ more) s).entropyIn = more ∧
      ∀ i : Index, σ.fwd.read i = some (f i) := by
  induction k generalizing n used ρ s with
  | zero =>
    obtain rfl : n = 26 := hk
    rw [runDraws_idle (h.stage.idle_iff.mpr rfl)]
    exact ⟨used, ρ, h.withEntropyIn _, rfl, fun i => cells i i.isLt⟩
  | succ k ih =>
    have hb : s.busy ≠ .idle := mt h.stage.idle_iff.mp (by omega)
    obtain ⟨pos, busy, rfl⟩ := h.stage.position hb
    have rest : allIndices.drop pos.val = pos :: allIndices.drop (pos.val + 1) := by
      rw [List.drop_eq_getElem_cons (by simp)]
      simp [allIndices]
    have accepted := candidate_of_unused (h.filled.next_unused inj cells) (hf pos)
    obtain ⟨σ, h', hσ⟩ := h.accept busy accepted
    rw [rest, List.map_cons, List.cons_append, runDraws_cons hb]
    refine ih (by omega) h' fun i hi => ?_
    rw [hσ, Memory.read_write]
    split_ifs with e
    · rw [e]
    · exact cells i (by have := Fin.val_ne_of_ne e; omega)

/-! ### The whole next state -/

/-- A state that differs in rotor `r` alone of its bank has its bank with that rotor put in. -/
theorem OnlyRotor.rotors_eq {r : Nat} {s t : State} {ρ : Rotor} (h : OnlyRotor r s t) (hρ : t.rotors[r]? = some ρ) :
    t.rotors = s.rotors.set r ρ := by
  have hlt : r < s.rotors.length := h.length ▸ (List.getElem?_eq_some_iff.mp hρ).1
  refine List.ext_getElem? fun j => ?_
  by_cases hj : j = r
  · rw [hj, hρ, List.getElem?_set_self hlt]
  · rw [h.other j hj, List.getElem?_set_ne (Ne.symm hj)]

/-- What `GENROT r` leaves when it ends: its rotor, the answers it did not use, and one response. -/
theorem execGenrot_ended {r : Nat} {s : State} {ρ σ : Rotor} (hr : s.rotors[r]? = some ρ)
    (idle : (runDraws s.entropyIn (genrotStart r ρ s)).busy = .idle)
    (hσ : (runDraws s.entropyIn (genrotStart r ρ s)).rotors[r]? = some σ) :
    exec (.genrot r) s = .next (answered (((s.withRotors (s.rotors.set r σ)).withBusy .idle).withEntropyIn
      (runDraws s.entropyIn (genrotStart r ρ s)).entropyIn) [0x00]) := by
  have run := genrot_run r ρ s
  have frame := (onlyRotor_genrotStart r ρ s).trans run.onlyRotor
  have response : (runDraws s.entropyIn (genrotStart r ρ s)).respOut = s.respOut ++ [[0x00]] := by
    rcases run.outcome with ⟨⟨pos, used, busy⟩, -⟩ | ⟨-, response, -⟩
    · cases idle.symm.trans busy
    · exact response
  exact (execGenrot_some hr).trans (congrArg Host.Outcome.next (State.ext_fields (frame.rotors_eq hσ) frame.refl
    frame.reflValid idle frame.preset frame.cmdIn response rfl frame.resetIn))

/-- Settles O35: the values of the derangement, one draw each, from the command's beginning. -/
theorem genrotResult : Obligations.GenrotResult := by
  intro r s f more hr inj hf he
  have hρ := List.getElem?_eq_getElem hr
  have spelled : s.entropyIn = (allIndices.drop 0).map f ++ more := he
  obtain ⟨used, σ, gen, left, fwd⟩ :=
    (genrotStart_gen hρ).spell inj hf more 26 rfl fun i hi => absurd hi (Nat.not_lt_zero i.val)
  rw [← spelled] at gen left
  have idle := gen.stage.idle_iff.mpr rfl
  obtain ⟨exactness, -, shift, valid⟩ := gen.generated idle
  refine ⟨σ, left ▸ execGenrot_ended hρ idle gen.rotor, shift, valid, fun i => ⟨fwd i, ?_⟩⟩
  obtain ⟨v, hv, back⟩ := exactness.fwd i
  cases hv.symm.trans (fwd i)
  exact back

end Sys2Proof.Machine

/-!
`GENREF` over a run of draws (spec 41_generate R113, R114, R115): what it has paired, how many positions, and that two
runs on the same draws stay alike.
-/

namespace Sys2Proof.Machine

open Sys2Proof.Claims

/-! ### Counting positions -/

theorem length_filter_positions (p : Index → Bool) :
    ((List.finRange 26).filter p).length = (Finset.univ.filter fun i => p i = true).card := by
  rw [← List.toFinset_card_of_nodup ((List.nodup_finRange 26).filter p)]
  congr 1; ext i; simp

theorem markCount_eq_card (used : Mask) : markCount used = (Finset.univ.filter fun i => used.has i = true).card :=
  length_filter_positions used.has

theorem markCount_empty : markCount Mask.empty = 0 := by
  simp [markCount_eq_card]

/-- Marking a value raises the count by at most one. -/
theorem markCount_mark_le (used : Mask) (v : Index) : markCount (used.mark v) ≤ markCount used + 1 := by
  have marks : (Finset.univ.filter fun i => (used.mark v).has i = true) =
      insert v (Finset.univ.filter fun i => used.has i = true) := by
    ext i; simp
  rw [markCount_eq_card, markCount_eq_card, marks]
  exact Finset.card_insert_le v _

theorem markCount_full {used : Mask} (h : ∀ i, used.has i = true) : markCount used = 26 := by
  simp [markCount_eq_card, h]

/-- A pairing has 13 pairs: its lower and its upper ends are the 26 positions, as many the one as the other
(41_generate R114). -/
theorem pairCount_pairing {m : Memory} (h : Pairing m) : pairCount m = 13 := by
  choose f read back hne using fun i => Pairing.read h i
  have involutive : Function.Involutive f := fun i => Option.some.inj ((read (f i)).symm.trans (back i))
  have lower : pairCount m = (Finset.univ.filter fun i => i < f i).card := by
    rw [pairCount, length_filter_positions]; simp [read]
  have upper : (Finset.univ.filter fun i => ¬ i < f i).card = (Finset.univ.filter fun i => i < f i).card := by
    refine Finset.card_bij' (fun i _ => f i) (fun i _ => f i) ?_ ?_ (fun i _ => involutive i) fun i _ => involutive i
    · intro i hi
      simp only [Finset.mem_filter_univ, involutive i] at hi ⊢
      exact lt_of_le_of_ne (not_lt.mp hi) (hne i)
    · intro i hi
      simp only [Finset.mem_filter_univ, involutive i] at hi ⊢
      exact not_lt.mpr hi.le
  have all := Finset.card_filter_add_card_filter_not (s := Finset.univ) fun i => i < f i
  rw [Finset.card_univ, Fintype.card_fin] at all
  omega

/-! ### What `GENREF` has paired -/

/-- `GENREF` stands at the first position that `used` does not mark, or it has ended and `used` marks every position. -/
def ReflStage (used : Mask) (s : State) : Prop :=
  (s.busy = .idle ∧ s.reflValid = true ∧ ∀ i, used.has i = true) ∨
  ∃ pos : Index, s.busy = .genRefl pos used ∧ (∀ i, i < pos → used.has i = true) ∧ used.has pos = false

/-- `GENREF` has paired the positions of `used`, or it has ended with every position paired. -/
structure ReflGen (used : Mask) (s : State) : Prop where
  filled : ReflFilled s.refl used
  stage : ReflStage used s

theorem ReflGen.withEntropyIn {used : Mask} {s : State} (h : ReflGen used s) (l : List Index) :
    ReflGen used (s.withEntropyIn l) := ⟨h.filled, h.stage⟩

theorem genrefStart_gen (s : State) : ReflGen Mask.empty (genrefStart s) :=
  ⟨ReflFilled.start s.refl, Or.inr ⟨0, rfl, fun i hi => absurd hi (Fin.not_lt_zero i), Mask.has_empty 0⟩⟩

theorem State.Inv.reflGen {s : State} {pos : Index} {used : Mask} (h : s.Inv) (hb : s.busy = .genRefl pos used) :
    ReflGen used s := by
  obtain ⟨-, filled, below, unused⟩ := h.generatingRefl hb
  exact ⟨filled, Or.inr ⟨pos, hb, below, unused⟩⟩

theorem ReflStage.position {used : Mask} {s : State} (h : ReflStage used s) (hb : s.busy ≠ .idle) :
    ∃ pos : Index, s.busy = .genRefl pos used ∧ (∀ i, i < pos → used.has i = true) ∧ used.has pos = false :=
  h.resolve_left fun ⟨idle, _⟩ => hb idle

theorem ReflStage.ended {used : Mask} {s : State} (h : ReflStage used s) (idle : s.busy = .idle) :
    s.reflValid = true ∧ ∀ i, used.has i = true := by
  rcases h with ⟨-, valid, all⟩ | ⟨pos, busy, -⟩
  · exact ⟨valid, all⟩
  · cases idle.symm.trans busy

/-- The mask alone says where `GENREF` stands. -/
theorem ReflStage.busy_eq {used : Mask} {s s' : State} (h : ReflStage used s) (h' : ReflStage used s') :
    s.busy = s'.busy := by
  have idle_of {u u' : State} (g : ReflStage used u) (g' : ReflStage used u') (idle : u.busy = .idle) :
      u'.busy = .idle := by
    obtain ⟨-, all⟩ := g.ended idle
    rcases g' with ⟨idle', -⟩ | ⟨pos, -, -, unused⟩
    · exact idle'
    · exact absurd ((all pos).symm.trans unused) nofun
  by_cases idle : s.busy = .idle
  · rw [idle, idle_of h h' idle]
  · obtain ⟨pos, busy, below, unused⟩ := h.position idle
    obtain ⟨pos', busy', below', unused'⟩ := h'.position (mt (idle_of h' h) idle)
    rcases lt_trichotomy pos pos' with lt | rfl | lt
    · exact absurd ((below' pos lt).symm.trans unused) nofun
    · rw [busy, busy']
    · exact absurd ((below pos' lt).symm.trans unused') nofun

/-- An accepted draw pairs the position with the value it offers (41_generate R113). -/
theorem ReflGen.accept {used : Mask} {s : State} {pos d v : Index} (h : ReflGen used s)
    (hb : s.busy = .genRefl pos used) (hc : candidate pos used d = some v) :
    ReflGen ((used.mark pos).mark v) (genDraw d s) ∧ (genDraw d s).refl = s.refl.paired pos v := by
  obtain ⟨filled, stage⟩ := h
  obtain ⟨pos', busy, below, unused⟩ := stage.position (by rw [hb]; exact nofun)
  cases hb.symm.trans busy
  obtain ⟨free, hne⟩ := candidate_spec hc
  have filled' : ReflFilled (s.refl.paired pos v) ((used.mark pos).mark v) := filled.accept unused free hne
  have below' : ∀ i, i ≤ pos → ((used.mark pos).mark v).has i = true := by
    intro i hi
    rcases hi.lt_or_eq with hi | rfl
    · simp [below i hi]
    · simp
  rw [genDraw_refl_accepted hb hc]
  rcases nextUnpaired_cases pos _ below' with ⟨p, next, hp, before⟩ | ⟨next, all⟩
  · rw [acceptRefl_next s next]
    exact ⟨⟨filled', Or.inr ⟨p, rfl, before, hp⟩⟩, rfl⟩
  · rw [acceptRefl_last s next]
    exact ⟨⟨filled', Or.inl ⟨rfl, rfl, all⟩⟩, rfl⟩

/-- A draw is rejected, or it pairs the position `GENREF` stands at. -/
theorem ReflGen.draw {used : Mask} {s : State} (h : ReflGen used s) (hb : s.busy ≠ .idle) (d : Index) :
    genDraw d s = s ∨ ∃ pos v, ReflGen ((used.mark pos).mark v) (genDraw d s) := by
  obtain ⟨pos, busy, -, -⟩ := h.stage.position hb
  cases hc : candidate pos used d with
  | none => exact Or.inl (genDraw_refl_rejected busy hc)
  | some v => exact Or.inr ⟨pos, v, (h.accept busy hc).1⟩

/-- Over a run `GENREF` pairs at most two positions per draw used (41_generate R115). -/
theorem ReflGen.afterDraws {used : Mask} {s : State} (h : ReflGen used s) (l : List Index) :
    ∃ draws used', l = draws ++ (runDraws l s).entropyIn ∧ markCount used' ≤ markCount used + 2 * draws.length ∧
      ReflGen used' (runDraws l s) := by
  have draw (d : Index) (n : Nat) (s : State) (hb : s.busy ≠ .idle)
      (count : ∃ used, markCount used = n ∧ ReflGen used s) :
      ∃ m, m ≤ n + 2 ∧ ∃ used, markCount used = m ∧ ReflGen used (genDraw d s) := by
    obtain ⟨used, rfl, h⟩ := count
    rcases h.draw hb d with e | ⟨pos, v, h'⟩
    · rw [e]; exact ⟨_, Nat.le_add_right _ 2, used, rfl, h⟩
    · have first := markCount_mark_le used pos
      have second := markCount_mark_le (used.mark pos) v
      exact ⟨_, by omega, _, rfl, h'⟩
  obtain ⟨draws, m, split, hm, used', rfl, h'⟩ := runDraws_counts
    (C := fun n s => ∃ used, markCount used = n ∧ ReflGen used s) draw (fun _ _ l ⟨used, count, h⟩ => ⟨used, count, h.withEntropyIn l⟩) l ⟨used, rfl, h⟩
  exact ⟨draws, used', split, hm, h'⟩

/-- `GENREF` that has ended leaves a pairing of 13 pairs and flag 1 (41_generate R114). -/
theorem ReflGen.generated {used : Mask} {s : State} (h : ReflGen used s) (idle : s.busy = .idle) :
    Pairing s.refl ∧ pairCount s.refl = 13 ∧ s.reflValid = true := by
  obtain ⟨valid, all⟩ := h.stage.ended idle
  have pairing := h.filled.full all
  exact ⟨pairing, pairCount_pairing pairing, valid⟩

/-! ### Two runs of `GENREF` on the same draws -/

/-- `GENREF` in `s` and in `s'` stands at the same point with the same cells filled. -/
def ReflTwins (s s' : State) : Prop :=
  ∃ used, ReflGen used s ∧ ReflGen used s' ∧ ∀ i, used.has i = true → s.refl.read i = s'.refl.read i

theorem ReflTwins.busy_eq {s s' : State} (h : ReflTwins s s') : s.busy = s'.busy := by
  obtain ⟨used, h, h', -⟩ := h
  exact h.stage.busy_eq h'.stage

theorem ReflTwins.draw {s s' : State} (h : ReflTwins s s') (hb : s.busy ≠ .idle) (d : Index) :
    ReflTwins (genDraw d s) (genDraw d s') := by
  have busy_eq := h.busy_eq
  obtain ⟨used, h, h', same⟩ := h
  obtain ⟨pos, busy, -, -⟩ := h.stage.position hb
  have busy' := busy_eq.symm.trans busy
  cases hc : candidate pos used d with
  | none =>
    rw [genDraw_refl_rejected busy hc, genDraw_refl_rejected busy' hc]
    exact ⟨used, h, h', same⟩
  | some v =>
    obtain ⟨-, hne⟩ := candidate_spec hc
    obtain ⟨g, e⟩ := h.accept busy hc
    obtain ⟨g', e'⟩ := h'.accept busy' hc
    refine ⟨_, g, g', fun i hi => ?_⟩
    rw [e, e', Memory.read_paired _ hne, Memory.read_paired _ hne]
    split_ifs with hp hv
    · rfl
    · rfl
    · exact same i (by simpa [hp, hv] using hi)

/-- Runs on the same draws from the same point leave the same answers and end alike (41_generate R115). -/
theorem ReflTwins.ends_alike {s s' : State} (h : ReflTwins s s') (l : List Index)
    (idle : (runDraws l s).busy = .idle) :
    (runDraws l s').busy = .idle ∧ (runDraws l s').entropyIn = (runDraws l s).entropyIn ∧
      ∀ i, (runDraws l s).refl.read i = (runDraws l s').refl.read i := by
  obtain ⟨twins, entropy⟩ := runDraws_related (R := ReflTwins) (fun _ _ h => by rw [h.busy_eq])
    (fun d _ _ hb h => h.draw hb d)
    (fun _ _ l ⟨used, h, h', same⟩ => ⟨used, h.withEntropyIn l, h'.withEntropyIn l, same⟩) l h
  have busy_eq := twins.busy_eq
  obtain ⟨used, g, -, same⟩ := twins
  obtain ⟨-, all⟩ := g.stage.ended idle
  exact ⟨busy_eq.symm.trans idle, entropy, fun i => same i (all i)⟩

theorem genrefStart_twins (s s' : State) : ReflTwins (genrefStart s) (genrefStart s') :=
  ⟨_, genrefStart_gen s, genrefStart_gen s', fun i hi => by simp at hi⟩

/-! ### `GENREF` on the upper ends of a pairing -/

/-- The lower ends of the pairs of `f` that `used` does not mark, in order. -/
def lowerEnds (f : Index → Index) (used : Mask) : List Index :=
  (List.finRange 26).filter fun i => decide (i < f i) && !used.has i

/-- The first position with a property heads the list of them all. -/
theorem filter_positions_eq_cons {p : Index → Bool} {pos : Index} (hp : p pos = true)
    (before : ∀ i, i < pos → p i = false) :
    (List.finRange 26).filter p = pos :: (List.finRange 26).filter fun i => p i && decide (i ≠ pos) := by
  obtain ⟨l, l', split⟩ := List.append_of_mem (mem_allIndices pos)
  have low : ∀ i ∈ l, p i = false := fun i hi => before i ((mem_before split i).mp hi)
  have high : ∀ i ∈ l', i ≠ pos := by
    have nodup := List.nodup_finRange 26
    rw [← allIndices, split] at nodup
    have := (List.nodup_cons.mp (List.nodup_append.mp nodup).2.1).1
    exact fun i hi e => this (e ▸ hi)
  have dropped : l.filter p = [] := List.filter_eq_nil_iff.mpr fun i hi => by simp [low i hi]
  have dropped' : l.filter (fun i => p i && decide (i ≠ pos)) = [] :=
    List.filter_eq_nil_iff.mpr fun i hi => by simp [low i hi]
  have kept : l'.filter (fun i => p i && decide (i ≠ pos)) = l'.filter p :=
    List.filter_congr fun i hi => by simp [high i hi]
  rw [← allIndices, split, List.filter_append, List.filter_append, List.filter_cons_of_pos hp, dropped, dropped',
    List.filter_cons_of_neg (by simp), kept]
  rfl

section Pairs

variable {f : Index → Index} {used : Mask} {s : State} {pos : Index}

/-- The table of `GENREF` agrees with `f` on the positions paired so far. -/
def ReflFollows (f : Index → Index) (used : Mask) (s : State) : Prop :=
  ∀ i, used.has i = true → s.refl.read i = some (f i)

/-- `f` keeps the positions paired so far among themselves. -/
theorem ReflGen.marked_partner (h : ReflGen used s) (cells : ReflFollows f used s) {i : Index}
    (hi : used.has i = true) : used.has (f i) = true := by
  obtain ⟨v, read, -, -, marked⟩ := h.filled.pair i hi
  cases read.symm.trans (cells i hi)
  exact marked

/-- The first unpaired position is the lower end of an unpaired pair. -/
theorem ReflGen.partner_above (h : ReflGen used s) (cells : ReflFollows f used s) (hf : ∀ i, f (f i) = i ∧ f i ≠ i)
    (below : ∀ i, i < pos → used.has i = true) (unused : used.has pos = false) :
    used.has (f pos) = false ∧ pos < f pos := by
  have free : used.has (f pos) = false := by
    rw [← Bool.not_eq_true]
    intro marked
    have := h.marked_partner cells marked
    rw [(hf pos).1, unused] at this
    cases this
  refine ⟨free, lt_of_le_of_ne (not_lt.mp fun lt => ?_) (hf pos).2.symm⟩
  rw [below _ lt] at free
  cases free

/-- The lower ends left are the first unpaired position, and those left once it is paired. -/
theorem lowerEnds_eq_cons (hf : ∀ i, f (f i) = i ∧ f i ≠ i) (below : ∀ i, i < pos → used.has i = true)
    (unused : used.has pos = false) (above : pos < f pos) :
    lowerEnds f used = pos :: lowerEnds f ((used.mark pos).mark (f pos)) := by
  have skipped : ∀ i, i < pos → (decide (i < f i) && !used.has i) = false := fun i hi => by simp [below i hi]
  rw [lowerEnds, filter_positions_eq_cons (by simp [above, unused]) skipped, lowerEnds]
  congr 1
  refine List.filter_congr fun i _ => ?_
  by_cases hi : i = f pos
  · subst hi
    simp [(hf pos).1, not_lt.mpr above.le]
  · simp [hi, Bool.and_comm, Bool.and_left_comm]

end Pairs

/-- Given the upper ends of the pairs left, `GENREF` makes these pairs, one draw each, and ends (41_generate R113). -/
theorem ReflGen.spell {f : Index → Index} (hf : ∀ i, f (f i) = i ∧ f i ≠ i) (more ends : List Index) {used : Mask}
    {s : State} (h : ReflGen used s) (cells : ReflFollows f used s) (he : lowerEnds f used = ends) :
    (runDraws (ends.map f ++ more) s).busy = .idle ∧ (runDraws (ends.map f ++ more) s).entropyIn = more ∧
      ∀ i, (runDraws (ends.map f ++ more) s).refl.read i = some (f i) := by
  induction ends generalizing used s with
  | nil =>
    have idle : s.busy = .idle := by
      by_contra busy
      obtain ⟨pos, -, below, unused⟩ := h.stage.position busy
      rw [lowerEnds_eq_cons hf below unused (h.partner_above cells hf below unused).2] at he
      cases he
    obtain ⟨-, all⟩ := h.stage.ended idle
    rw [runDraws_idle idle]
    exact ⟨idle, rfl, fun i => cells i (all i)⟩
  | cons first rest ih =>
    have busy : s.busy ≠ .idle := by
      intro idle
      obtain ⟨-, all⟩ := h.stage.ended idle
      simp [lowerEnds, all] at he
    obtain ⟨pos, hb, below, unused⟩ := h.stage.position busy
    obtain ⟨free, above⟩ := h.partner_above cells hf below unused
    rw [lowerEnds_eq_cons hf below unused above] at he
    obtain ⟨rfl, rest_eq⟩ := List.cons.inj he
    obtain ⟨h', table⟩ := h.accept hb (candidate_of_unused free (hf pos).2)
    rw [List.map_cons, List.cons_append, runDraws_cons busy]
    refine ih h' (fun i hi => ?_) rest_eq
    rw [table, Memory.read_paired _ (hf pos).2]
    split_ifs with hp hv
    · rw [hp]
    · rw [hv, (hf pos).1]
    · exact cells i (by simpa [hp, hv] using hi)

/-- What `GENREF` leaves when it ends: its table and flag, the answers it did not use, and one response. -/
theorem execGenref_ended {s : State} (idle : (runDraws s.entropyIn (genrefStart s)).busy = .idle) :
    exec .genref s = .next (answered ((((s.withRefl (runDraws s.entropyIn (genrefStart s)).refl).withReflValid
      true).withBusy .idle).withEntropyIn (runDraws s.entropyIn (genrefStart s)).entropyIn) [0x00]) := by
  have run := genref_run s
  rcases run.outcome with ⟨⟨pos, used, busy⟩, -⟩ | ⟨-, response, valid⟩
  · cases idle.symm.trans busy
  · exact (execGenref_eq s).trans (congrArg Host.Outcome.next (State.ext_fields run.rotors rfl valid idle run.preset
      run.cmdIn response rfl run.resetIn))

/-- Settles O36: the upper ends of the pairs, one draw each, from the command's beginning. -/
theorem genrefResult : Obligations.GenrefResult := by
  intro s f more hf he
  have ends : lowerEnds f Mask.empty = (List.finRange 26).filter fun i => decide (i < f i) := by
    simp [lowerEnds]
  obtain ⟨idle, left, read⟩ := (genrefStart_gen s).spell hf more _ (fun i hi => by simp at hi) ends
  rw [← he] at idle left read
  exact ⟨_, left ▸ execGenref_ended idle, read⟩

end Sys2Proof.Machine

/-!
What a generate command that ends has left and used (spec 41_generate R114, R115), from its beginning or from a point
where it waited for answers.
-/

namespace Sys2Proof.Machine

open Sys2Proof.Claims

/-- Settles O37: what a finished command leaves, from its beginning or from a point where the invariant holds. -/
theorem generatedTablesAreGood : Obligations.GeneratedTablesAreGood := by
  refine ⟨fun r s t hr h idle => ?_, fun s t h idle => ?_, fun r pos used s t inv hreset hb h idle => ?_,
    fun pos used s t inv hreset hb h idle => ?_⟩
  · have hρ := List.getElem?_eq_getElem hr
    cases (execGenrot_some hρ).symm.trans h
    exact (Generating.afterDraws ⟨_, _, _, genrotStart_gen hρ⟩ s.entropyIn).generated idle
  · cases (execGenref_eq s).symm.trans h
    obtain ⟨_, used', _, _, gen⟩ := (genrefStart_gen s).afterDraws s.entropyIn
    exact gen.generated idle
  · cases (step_generating hreset (by simp [hb])).symm.trans h
    obtain ⟨ρ, gen⟩ := inv.rotorGen hb
    exact (Generating.afterDraws ⟨_, _, _, gen⟩ s.entropyIn).generated idle
  · cases (step_generating hreset (by simp [hb])).symm.trans h
    obtain ⟨_, used', _, _, gen⟩ := (inv.reflGen hb).afterDraws s.entropyIn
    exact gen.generated idle

/-- At its end `GENREF` has used a draw for every two positions it found unpaired (41_generate R115). -/
theorem ReflGen.draws_used {used : Mask} {s : State} {n : Nat} (h : ReflGen used s) (idle : s.busy = .idle)
    (count : markCount used ≤ n) : 26 ≤ n := by
  obtain ⟨-, all⟩ := h.stage.ended idle
  exact (markCount_full all).symm.trans_le count

/-- Settles O38: the counts of draws from the beginning of each command, and twins that begin together. -/
theorem drawsDecideTheTable : Obligations.DrawsDecideTheTable := by
  refine ⟨fun r s t hr h idle => ?_, fun s t h idle => ?_, fun r s s' t t' hr hr' he h h' idle => ?_,
    fun s s' t t' he h h' idle => ?_⟩
  · have hρ := List.getElem?_eq_getElem hr
    cases (execGenrot_some hρ).symm.trans h
    obtain ⟨draws, n, split, count, used, stage⟩ := (genrotStart_stage r s.rotors[r] s).afterDraws s.entropyIn
    have := stage.idle_iff.mp idle
    exact ⟨draws, split, by omega⟩
  · cases (execGenref_eq s).symm.trans h
    obtain ⟨draws, used, split, count, gen⟩ := (genrefStart_gen s).afterDraws s.entropyIn
    have := gen.draws_used idle count
    rw [markCount_empty] at this
    exact ⟨draws, split, by omega⟩
  · have hρ := List.getElem?_eq_getElem hr
    have hρ' := List.getElem?_eq_getElem hr'
    cases (execGenrot_some hρ).symm.trans h
    cases (execGenrot_some hρ').symm.trans h'
    rw [← he]
    exact (genrotStart_twins hρ hρ').ends_alike s.entropyIn idle
  · cases (execGenref_eq s).symm.trans h
    cases (execGenref_eq s').symm.trans h'
    rw [← he]
    exact (genrefStart_twins s s').ends_alike s.entropyIn idle

/-- Settles O56: the counts of draws from the point where each command stands, and twins that stand together. -/
theorem drawsDecideAResumedTable : Obligations.DrawsDecideAResumedTable := by
  refine ⟨fun r pos used s t hreset hb h => ?_, fun pos used s t inv hreset hb h => ?_,
    fun r r' pos used s s' t t' σ σ' inv inv' hreset hreset' hb hb' hσ hσ' cells he h h' idle => ?_,
    fun pos used s s' t t' inv inv' hreset hreset' hb hb' cells he h h' idle => ?_⟩
  · cases (step_generating hreset (by simp [hb])).symm.trans h
    have start : RotorStage r pos.val used s := Or.inr ⟨pos, hb, rfl⟩
    obtain ⟨draws, n, split, count, used', stage⟩ := start.afterDraws s.entropyIn
    refine ⟨draws, split, fun idle => ?_, fun pos' used' hb' => ?_⟩
    · have := stage.idle_iff.mp idle
      omega
    · obtain ⟨p, busy, rfl⟩ := stage.position (by rw [hb']; exact nofun)
      cases busy.symm.trans hb'
      exact count
  · cases (step_generating hreset (by simp [hb])).symm.trans h
    obtain ⟨draws, used', split, count, gen⟩ := (inv.reflGen hb).afterDraws s.entropyIn
    refine ⟨draws, split, fun idle => ?_, fun pos' used'' hb' => ?_⟩
    · have := gen.draws_used idle count
      omega
    · obtain ⟨p, busy, -, -⟩ := gen.stage.position (by rw [hb']; exact nofun)
      cases busy.symm.trans hb'
      exact count
  · cases (step_generating hreset (by simp [hb])).symm.trans h
    cases (step_generating hreset' (by simp [hb'])).symm.trans h'
    obtain ⟨ρ, gen⟩ := inv.rotorGen hb
    obtain ⟨ρ', gen'⟩ := inv'.rotorGen hb'
    cases gen.rotor.symm.trans hσ
    cases gen'.rotor.symm.trans hσ'
    have twins : RotorTwins r r' s s' := ⟨_, _, _, _, gen, gen', fun i hi => cells i hi⟩
    rw [← he]
    exact twins.ends_alike s.entropyIn idle
  · cases (step_generating hreset (by simp [hb])).symm.trans h
    cases (step_generating hreset' (by simp [hb'])).symm.trans h'
    have twins : ReflTwins s s' := ⟨_, inv.reflGen hb, inv'.reflGen hb', cells⟩
    rw [← he]
    exact twins.ends_alike s.entropyIn idle

end Sys2Proof.Machine

/-!
The key codec (spec 42_keycodec R121 to R126): which keys load and where the others fail, in the words of the
statements; then what the four key commands do, and the round trips.
-/

namespace Sys2Proof.Machine

open Sys2Proof.Claims

/-! ### Keys in the words of the statements -/

theorem rotorKeyGood_iff {k : List Byte} : RotorKeyGood k ↔ RotorKey k :=
  ⟨fun h => ⟨h.letter, h.inj⟩, fun ⟨letter, inj⟩ => ⟨letter, inj⟩⟩

theorem reflKeyGood_iff {k : List Byte} : ReflKeyGood k ↔ ReflectorKey k :=
  ⟨fun h => ⟨h.letter, h.pair⟩, fun ⟨letter, pair⟩ => ⟨letter, pair⟩⟩

/-- A key whose positions before `p` are good and whose position `p` is not fails at `p` (42_keycodec R121). -/
theorem rotorKeyFails_of_goodBefore {k : List Byte} {p : Index} (good : GoodBefore k p)
    (bad : ¬ KeyLetter k p ∨ ∃ i : Index, i < p ∧ keyIndex k i = keyIndex k p) : ∃ st, RotorKeyFails k p st := by
  obtain ⟨letter, distinct⟩ := good
  have inj (i j : Index) (hi : i < p) (hj : j < p) (e : keyIdx k i = keyIdx k j) : i = j := by
    rcases lt_trichotomy i j with hij | hij | hij
    · exact absurd e (distinct i j hij hj)
    · exact hij
    · exact absurd e.symm (distinct j i hij hi)
  by_cases hp : KeyLetter k p
  · exact ⟨.duplicateMapping, letter, inj, Or.inr ⟨rfl, hp, bad.resolve_left (not_not_intro hp)⟩⟩
  · exact ⟨.invalidCharacter, letter, inj, Or.inl ⟨rfl, Bool.eq_false_iff.mpr hp⟩⟩

/-- No position before the first failing one fails. -/
theorem RotorKeyFails.le {k : List Byte} {p q : Index} {st st' : Status} (h : RotorKeyFails k p st)
    (h' : RotorKeyFails k q st') : p ≤ q := by
  by_contra lt
  have hq := not_le.mp lt
  rcases h'.why with ⟨-, bad⟩ | ⟨-, -, i, hi, e⟩
  · exact absurd (h.letter q hq) (Bool.eq_false_iff.mp bad)
  · exact absurd (h.inj i q (hi.trans hq) hq e) hi.ne

theorem RotorKeyFails.position_unique {k : List Byte} {p q : Index} {st st' : Status} (h : RotorKeyFails k p st)
    (h' : RotorKeyFails k q st') : p = q := le_antisymm (h.le h') (h'.le h)

/-- The letter test comes before the duplicate test (60_exceptions R162 (4)). -/
theorem RotorKeyFails.code {k : List Byte} {p : Index} {st : Status} (h : RotorKeyFails k p st) :
    st.code = if KeyLetter k p then 0x02 else 0x01 := by
  rcases h.why with ⟨rfl, bad⟩ | ⟨rfl, letter, -⟩
  · exact (if_neg (Bool.eq_false_iff.mp bad)).symm
  · exact (if_pos letter).symm

/-- The first non-letter of a key is one position. -/
theorem first_nonLetter_unique {k : List Byte} {p q : Index} (before : ∀ i, i < p → KeyLetter k i)
    (hp : ¬ KeyLetter k p) (before' : ∀ i, i < q → KeyLetter k i) (hq : ¬ KeyLetter k q) : p = q :=
  le_antisymm (not_lt.mp fun lt => hq (before q lt)) (not_lt.mp fun lt => hp (before' p lt))

/-! ### Tables and the letters that spell them -/

theorem lettersOf_eq (f : Index → Index) : lettersOf f = allIndices.map fun i => indexToLetter (f i).val :=
  List.map_congr_left fun i _ => (if_pos (Nat.le_of_lt_succ (f i).isLt)).symm

theorem serialize_eq_lettersOf {m : Memory} {f : Index → Index} (h : ∀ i, m.read i = some (f i)) :
    serialize m = some (lettersOf f) := by
  rw [lettersOf_eq, serialize_eq h]

theorem keyChar_lettersOf (f : Index → Index) (i : Index) : keyChar (lettersOf f) i = indexToLetter (f i).val := by
  simp [keyChar, lettersOf_eq, allIndices]

/-- A table that is read back as `p` holds in every cell the index of the letter of `p` there (42_keycodec R123). -/
theorem read_of_serialize_eq {m : Memory} {p : List Byte} (h : serialize m = some p) (i : Index) :
    KeyLetter p i ∧ m.read i = some (keyIndex p i) := by
  choose f hf using read_of_serialize h
  obtain rfl : lettersOf f = p := Option.some.inj ((serialize_eq_lettersOf hf).symm.trans h)
  have char : (lettersOf f).getD i.val 0 = indexToLetter (f i).val := keyChar_lettersOf f i
  rw [keyIndex, KeyLetter, char, letterToIndex_indexToLetter]
  exact ⟨indexToLetter_isLetter (f i), hf i⟩

/-- A key's letters in upper case are the letters of its indices (40_alphabet R104). -/
theorem lettersOf_keyIndex {k : List Byte} (len : k.length = 26) (letter : ∀ i : Index, KeyLetter k i) :
    lettersOf (keyIndex k) = k.map upperCase := by
  refine List.ext_getElem (by simp [lettersOf, len]) fun n h _ => ?_
  have hn : n < 26 := by simpa [lettersOf] using h
  have char : k.getD n 0 = k[n] := List.getD_eq_getElem k 0 (len ▸ hn)
  have upper := indexToLetter_letterToIndex (letter ⟨n, hn⟩)
  rw [char] at upper
  simp only [lettersOf_eq, allIndices, keyIndex, List.getElem_map, List.getElem_finRange, Fin.val_cast, char, upper]

/-- A table written by a key is read back as the key in upper case. -/
theorem serialize_of_key {m : Memory} {k : List Byte} (len : k.length = 26) (letter : ∀ i : Index, KeyLetter k i)
    (cells : ∀ i, m.read i = some (keyIndex k i)) : serialize m = some (k.map upperCase) := by
  rw [serialize_eq_lettersOf cells, lettersOf_keyIndex len letter]

theorem Rotor.Ok.exact_of_valid {ρ : Rotor} (h : ρ.Ok) (valid : ρ.valid = true) : ρ.Exact := h.2.2 valid

/-- What an exact rotor is read back as is a rotor key. -/
theorem Rotor.Exact.key_good {ρ : Rotor} {p : List Byte} (h : ρ.Exact) (read : serialize ρ.fwd = some p) :
    RotorKeyGood p where
  letter i := (read_of_serialize_eq read i).1
  inj i j e := by
    obtain ⟨v, hv, back⟩ := h.fwd i
    obtain ⟨w, hw, back'⟩ := h.fwd j
    cases hv.symm.trans (read_of_serialize_eq read i).2
    cases hw.symm.trans (read_of_serialize_eq read j).2
    have same : some i = some j := back.symm.trans ((congrArg ρ.inv.read e).trans back')
    exact Option.some.inj same

/-- What a pairing is read back as is a reflector key. -/
theorem Pairing.key_good {m : Memory} {p : List Byte} (h : Pairing m) (read : serialize m = some p) :
    ReflKeyGood p where
  letter i := (read_of_serialize_eq read i).1
  pair i := by
    obtain ⟨v, hv, back, ne⟩ := h.read i
    cases hv.symm.trans (read_of_serialize_eq read i).2
    exact ⟨Option.some.inj ((read_of_serialize_eq read _).2.symm.trans back), ne⟩

/-- Loading a valid rotor with what it is read back as puts its shift to 0 and changes no cell. -/
theorem loadedRotor_reload {ρ : Rotor} {p : List Byte} (ok : ρ.Ok) (valid : ρ.valid = true)
    (read : serialize ρ.fwd = some p) : loadedRotor ρ (loadRotorKey p ρ.fwd ρ.inv) = ρ.withShift 0 := by
  have exactness := ok.exact_of_valid valid
  obtain ⟨fwdWf, invWf, -⟩ := ok
  have good := exactness.key_good read
  have status := (loadRotorKey_ok_iff p ρ.fwd ρ.inv).mpr good
  obtain ⟨fwdWf', invWf'⟩ := loadRotorKey_wf p fwdWf invWf
  have fwd : (loadRotorKey p ρ.fwd ρ.inv).fwd = ρ.fwd := Memory.ext_read fwdWf' fwdWf fun i =>
    (loadRotorKey_good good ρ.fwd ρ.inv i).1.trans (read_of_serialize_eq read i).2.symm
  have exactness' := loadedRotor_exact (f := ρ.fwd) (g := ρ.inv) good ρ
  have inv : (loadRotorKey p ρ.fwd ρ.inv).inv = ρ.inv := Memory.ext_read invWf' invWf fun v => by
    simpa using exactness'.inv_eq exactness (fun i => by simp [fwd]) v
  rw [loadedRotor_eq, status, fwd, inv, Rotor.withShift, valid]
  rfl

/-- Loading a valid reflector with what it is read back as changes no cell. -/
theorem loadReflKey_reload {m : Memory} {p : List Byte} (wf : m.wf) (pairing : Pairing m)
    (read : serialize m = some p) : (loadReflKey p m).refl = m :=
  Memory.ext_read (loadReflKey_wf p wf) wf fun i =>
    (loadReflKey_good (pairing.key_good read) m i).trans (read_of_serialize_eq read i).2.symm

/-! ### The load commands -/

/-- `LDROT` of a rotor of the bank, in the words of the statements. -/
theorem exec_ldrot {r : Nat} {s : State} {ρ : Rotor} (hr : s.rotors[r]? = some ρ) (k : List Byte) :
    exec (.ldrot r k) s = .next (answered (s.withRotors (s.rotors.set r (loadedRotor ρ (loadRotorKey k ρ.fwd ρ.inv))))
      [(loadRotorKey k ρ.fwd ρ.inv).status.code]) :=
  execLdrot_some hr k

/-- `LDREF`, in the words of the statements, by the status its load ends with. -/
theorem exec_ldref {k : List Byte} {s : State} {st : Status} (h : (loadReflKey k s.refl).status = st) :
    exec (.ldref k) s = .next (answered ((s.withRefl (loadReflKey k s.refl).refl).withReflValid (decide (st = .ok)))
      [st.code]) := by
  subst h; exact execLdref_eq k s

/-- Settles O24: a good key passes the loop at every position. -/
theorem ldrotResult : Obligations.LdrotResult := by
  intro r k s hr key
  have good := rotorKeyGood_iff.mpr key
  obtain ⟨ρ, hρ⟩ : ∃ ρ, s.rotors[r]? = some ρ := ⟨_, List.getElem?_eq_getElem hr⟩
  have status := (loadRotorKey_ok_iff k ρ.fwd ρ.inv).mpr good
  refine ⟨loadedRotor ρ (loadRotorKey k ρ.fwd ρ.inv), (exec_ldrot hρ k).trans (by rw [status]; rfl),
    by simp [status], by simp [status], fun i => ?_⟩
  rw [loadedRotor_fwd, loadedRotor_inv]
  exact loadRotorKey_good good ρ.fwd ρ.inv i

/-- Settles O25: the loop stops at the first failing position, and there is only one. -/
theorem ldrotFailure : Obligations.LdrotFailure := by
  intro r k s ρ p hρ before bad
  obtain ⟨st, fails⟩ := rotorKeyFails_of_goodBefore before bad
  rcases loadRotorKey_spec k ρ.fwd ρ.inv with ⟨-, good, -⟩ | ⟨q, fails', fwd, inv, rest⟩
  · exact absurd good fails.not_good
  · obtain rfl := fails.position_unique fails'
    refine ⟨loadedRotor ρ (loadRotorKey k ρ.fwd ρ.inv), (exec_ldrot hρ k).trans (by rw [fails'.code]),
      by simp [fails'.ne_ok], by simp [fails'.ne_ok], ?_⟩
    rw [loadedRotor_fwd, loadedRotor_inv]
    exact ⟨fwd, inv, rest⟩

/-- Settles O26: a good key passes both passes. -/
theorem ldrefResult : Obligations.LdrefResult := by
  intro k s key
  have good := reflKeyGood_iff.mpr key
  exact ⟨_, exec_ldref ((loadReflKey_ok_iff k s.refl).mpr good), loadReflKey_good good s.refl⟩

/-- Settles O27: pass 1 stops at the first non-letter, or writes every cell before pass 2 refuses the key. -/
theorem ldrefFailure : Obligations.LdrefFailure := by
  refine ⟨fun k s p before hp => ?_, fun k s letter bad => ?_⟩
  · rcases loadReflKey_spec k s.refl with ⟨letter, -⟩ | ⟨q, status, before', hq, cells⟩
    · exact absurd (letter p) hp
    · obtain rfl := first_nonLetter_unique before hp before' (Bool.eq_false_iff.mp hq)
      exact ⟨_, exec_ldref status, cells⟩
  · rcases loadReflKey_spec k s.refl with ⟨-, cells, ⟨-, good⟩ | ⟨status, -⟩⟩ | ⟨q, -, -, hq, -⟩
    · exact absurd (reflKeyGood_iff.mp good) bad
    · exact ⟨_, exec_ldref status, cells⟩
    · exact absurd (letter q) (Bool.eq_false_iff.mp hq)

/-! ### The read commands -/

/-- A valid rotor is answered with its letters. -/
theorem exec_rdrot_valid {r : Nat} {s : State} {ρ : Rotor} {p : List Byte} (hr : s.rotors[r]? = some ρ)
    (valid : ρ.valid = true) (read : serialize ρ.fwd = some p) :
    exec (.rdrot r) s = .next (answered s (0x00 :: p)) := by
  refine (withRotorOperand_some hr _).trans ?_
  rw [valid]; exact readBack_valid read s

/-- A valid reflector is answered with its letters. -/
theorem exec_rdref_valid {s : State} {p : List Byte} (valid : s.reflValid = true) (read : serialize s.refl = some p) :
    exec .rdref s = .next (answered s (0x00 :: p)) := by
  rw [exec, execRdref, valid]; exact readBack_valid read s

/-- Settles O28: a valid table serializes to its letters, and the flag alone refuses an invalid one. -/
theorem readBackResult : Obligations.ReadBackResult := by
  refine ⟨fun r s ρ f hr valid cells => exec_rdrot_valid hr valid (serialize_eq_lettersOf cells),
    fun s f valid cells => exec_rdref_valid valid (serialize_eq_lettersOf cells), fun r s ρ hr invalid => ?_,
    fun s invalid => ?_⟩
  · refine (withRotorOperand_some hr _).trans ?_
    rw [invalid]; exact readBack_invalid ρ.fwd s
  · rw [exec, execRdref, invalid]; exact readBack_invalid s.refl s

/-! ### Commands that end `OK` -/

/-- Two responses that follow the same ones are the same. -/
theorem last_response_eq {q : List (List Byte)} {a b : List Byte} (h : q ++ [a] = q ++ [b]) : a = b :=
  List.singleton_inj.mp (List.append_cancel_left h)

/-- A load of a rotor that is answered `OK` had a rotor of the bank and a good key. -/
theorem execLdrot_ok {r : Nat} {k : List Byte} {s t : State} (h : execLdrot r k s = .next t)
    (ok : t.respOut = s.respOut ++ [[0x00]]) :
    ∃ ρ, s.rotors[r]? = some ρ ∧ RotorKeyGood k ∧
      t.rotors[r]? = some (loadedRotor ρ (loadRotorKey k ρ.fwd ρ.inv)) := by
  rcases execLdrot_cases h with ⟨-, rfl⟩ | ⟨ρ, hr, rfl⟩
  · exact absurd (last_response_eq ok) (by decide)
  · have status : (loadRotorKey k ρ.fwd ρ.inv).status = .ok :=
      Status.code_inj (List.singleton_inj.mp (last_response_eq ok))
    exact ⟨ρ, hr, (loadRotorKey_ok_iff k ρ.fwd ρ.inv).mp status,
      List.getElem?_set_self (List.getElem?_eq_some_iff.mp hr).1⟩

/-- A load of the reflector that is answered `OK` had a good key. -/
theorem execLdref_ok {k : List Byte} {s t : State} (h : execLdref k s = .next t)
    (ok : t.respOut = s.respOut ++ [[0x00]]) :
    ReflKeyGood k ∧ t.reflValid = true ∧ t.refl = (loadReflKey k s.refl).refl := by
  cases (execLdref_eq k s).symm.trans h
  have status : (loadReflKey k s.refl).status = .ok := Status.code_inj (List.singleton_inj.mp (last_response_eq ok))
  exact ⟨(loadReflKey_ok_iff k s.refl).mp status, decide_eq_true status, rfl⟩

/-- A rotor that is read back is valid, and the letters are its own. -/
theorem execRdrot_ok {r : Nat} {p : List Byte} {s t : State} (h : execRdrot r s = .next t)
    (ok : t.respOut = s.respOut ++ [0x00 :: p]) :
    ∃ ρ, s.rotors[r]? = some ρ ∧ ρ.valid = true ∧ serialize ρ.fwd = some p ∧ t = s.respond p := by
  rcases execRdrot_cases h with ⟨-, rfl⟩ | ⟨ρ, hr, ⟨valid, q, read, rfl⟩ | ⟨-, rfl⟩⟩
  · exact absurd (List.head_eq_of_cons_eq (last_response_eq ok)) (by decide)
  · obtain rfl := List.tail_eq_of_cons_eq (last_response_eq ok)
    exact ⟨ρ, hr, valid, read, rfl⟩
  · exact absurd (List.head_eq_of_cons_eq (last_response_eq ok)) (by decide)

/-- A reflector that is read back is valid, and the letters are its own. -/
theorem execRdref_ok {p : List Byte} {s t : State} (h : execRdref s = .next t)
    (ok : t.respOut = s.respOut ++ [0x00 :: p]) :
    s.reflValid = true ∧ serialize s.refl = some p ∧ t = s.respond p := by
  rcases readBack_cases h with ⟨valid, q, read, rfl⟩ | ⟨-, rfl⟩
  · obtain rfl := List.tail_eq_of_cons_eq (last_response_eq ok)
    exact ⟨valid, read, rfl⟩
  · exact absurd (List.head_eq_of_cons_eq (last_response_eq ok)) (by decide)

/-! ### The round trips -/

/-- R126 (1): a rotor key that loads is read back in upper case. -/
theorem rdrot_after_ldrot {r : Nat} {k : List Byte} {s t : State} (len : k.length = 26)
    (h : exec (.ldrot r k) s = .next t) (ok : t.respOut = s.respOut ++ [[0x00]]) :
    exec (.rdrot r) t = .next (answered t (0x00 :: k.map upperCase)) := by
  obtain ⟨ρ, -, good, hr⟩ := execLdrot_ok h ok
  refine exec_rdrot_valid hr ?_ (serialize_of_key len good.letter fun i => ?_)
  · simpa using (loadRotorKey_ok_iff k ρ.fwd ρ.inv).mpr good
  · rw [loadedRotor_fwd]
    exact (loadRotorKey_good good ρ.fwd ρ.inv i).1

/-- R126 (2): the letters a rotor is read back as load, and change nothing of it but its shift. -/
theorem ldrot_after_rdrot {r : Nat} {p : List Byte} {s t : State} (inv : s.Inv) (h : exec (.rdrot r) s = .next t)
    (ok : t.respOut = s.respOut ++ [0x00 :: p]) :
    ∃ (u : State) (ρ : Rotor), exec (.ldrot r p) t = .next u ∧ u.respOut = t.respOut ++ [[0x00]] ∧
      t.rotors[r]? = some ρ ∧ u.rotors[r]? = some (ρ.withShift 0) := by
  obtain ⟨ρ, hr, valid, read, rfl⟩ := execRdrot_ok h ok
  have tables := inv.rotorOk hr
  have status := (loadRotorKey_ok_iff p ρ.fwd ρ.inv).mpr ((tables.exact_of_valid valid).key_good read)
  have load := exec_ldrot (s := s.respond p) hr p
  rw [status, loadedRotor_reload tables valid read] at load
  exact ⟨_, ρ, load, rfl, hr, List.getElem?_set_self (List.getElem?_eq_some_iff.mp hr).1⟩

/-- R126 (3), the first statement: a reflector key that loads is read back in upper case. -/
theorem rdref_after_ldref {k : List Byte} {s t : State} (len : k.length = 26) (h : exec (.ldref k) s = .next t)
    (ok : t.respOut = s.respOut ++ [[0x00]]) : exec .rdref t = .next (answered t (0x00 :: k.map upperCase)) := by
  obtain ⟨good, valid, table⟩ := execLdref_ok h ok
  exact exec_rdref_valid valid (serialize_of_key len good.letter fun i => table ▸ loadReflKey_good good s.refl i)

/-- R126 (3), the second statement: the letters the reflector is read back as load, and change no cell. -/
theorem ldref_after_rdref {p : List Byte} {s t : State} (inv : s.Inv) (h : exec .rdref s = .next t)
    (ok : t.respOut = s.respOut ++ [0x00 :: p]) :
    ∃ u : State, exec (.ldref p) t = .next u ∧ u.respOut = t.respOut ++ [[0x00]] ∧ u.refl = t.refl := by
  obtain ⟨valid, read, rfl⟩ := execRdref_ok h ok
  have pairing := inv.reflPairing valid
  have status := (loadReflKey_ok_iff p s.refl).mpr (pairing.key_good read)
  exact ⟨_, exec_ldref (s := s.respond p) status, rfl, loadReflKey_reload inv.reflWf pairing read⟩

/-- Settles O29: the four round trips, and the keys that load by what a load answers. -/
theorem keyCodecLaws : Obligations.KeyCodecLaws := by
  refine ⟨fun r k s t => rdrot_after_ldrot, fun r p s t => ldrot_after_rdrot, fun k s t => rdref_after_ldref,
    fun p s t => ldref_after_rdref, fun r k s hr => ⟨fun ⟨t, h, ok⟩ => ?_, fun key => ?_⟩,
    fun k s => ⟨fun ⟨t, h, ok⟩ => ?_, fun key => ?_⟩⟩
  · obtain ⟨ρ, -, good, -⟩ := execLdrot_ok h ok
    exact rotorKeyGood_iff.mp good
  · obtain ⟨ρ', load, -⟩ := ldrotResult r k s hr key
    exact ⟨_, load, rfl⟩
  · exact reflKeyGood_iff.mp (execLdref_ok h ok).1
  · obtain ⟨m, load, -⟩ := ldrefResult k s key
    exact ⟨_, load, rfl⟩

end Sys2Proof.Machine

/-!
The cipher (spec 43_cipher R140 to R150): the odometer as a closed form and as a number, one `ENC`, a text enciphered
and deciphered, and the shift commands.
-/

namespace Sys2Proof.Machine

open Sys2Proof.Claims

/-! ### The odometer -/

/-- The closed form of `Step` peels off like the cascade: the rotors above the first are reached by its carry alone. -/
theorem steppedBank_cons (ρ : Rotor) (bank : List Rotor) :
    steppedBank (ρ :: bank) = ρ.withShift (ρ.shift + 1) :: if ρ.shift = 25 then steppedBank bank else bank := by
  have first : steppedShift (ρ :: bank) 0 ρ = ρ.shift + 1 := rfl
  have above (k : Nat) (σ : Rotor) :
      steppedShift (ρ :: bank) (k + 1) σ = if ρ.shift = 25 then steppedShift bank k σ else σ.shift := by
    by_cases carry : ρ.shift = 25 <;> simp [steppedShift, carry]
  rw [steppedBank, List.mapIdx_cons, first]
  simp only [above]
  split
  · rfl
  · exact congrArg _ (List.mapIdx_eq_iff.mpr fun k => by cases bank[k]? <;> rfl)

theorem cascade_eq_steppedBank (bank : List Rotor) : cascade bank = steppedBank bank := by
  induction bank with
  | nil => rfl
  | cons ρ bank ih => rw [cascade_cons, steppedBank_cons, ih]

theorem bankValue_lt (bank : List Rotor) : bankValue bank < 26 ^ bank.length := by
  induction bank with
  | nil => exact Nat.one_pos
  | cons ρ bank ih =>
    have := ρ.shift.isLt
    rw [bankValue, List.length_cons, pow_succ']; omega

/-- The odometer counts letters modulo `26^N` (43_cipher R141). -/
theorem bankValue_cascade (bank : List Rotor) :
    bankValue (cascade bank) = (bankValue bank + 1) % 26 ^ bank.length := by
  induction bank with
  | nil => rfl
  | cons ρ bank ih =>
    rw [cascade_cons]
    by_cases carry : ρ.shift = 25
    · have digit : ρ.shift.val = 25 := congrArg Fin.val carry
      calc bankValue (ρ.withShift (ρ.shift + 1) :: if ρ.shift = 25 then cascade bank else bank)
          = 26 * ((bankValue bank + 1) % 26 ^ bank.length) := by simp [bankValue, carry, ih]
        _ = 26 * (bankValue bank + 1) % 26 ^ (bank.length + 1) := by rw [pow_succ', Nat.mul_mod_mul_left]
        _ = (bankValue (ρ :: bank) + 1) % 26 ^ (ρ :: bank).length := by
          rw [bankValue, digit, List.length_cons]; congr 1; omega
    · have digit : (ρ.shift + 1).val = ρ.shift.val + 1 := by
        have : ρ.shift.val ≠ 25 := fun e => carry (Fin.ext e)
        rw [Fin.val_add]; simp; omega
      have stepped : bankValue (ρ.withShift (ρ.shift + 1) :: bank) = bankValue (ρ :: bank) + 1 := by
        simp [bankValue, digit]; omega
      rw [if_neg carry, ← stepped]
      exact (Nat.mod_eq_of_lt (bankValue_lt (ρ.withShift (ρ.shift + 1) :: bank))).symm

/-- Settles O13: the closed form and the number law. -/
theorem stepIsAnOdometer : Obligations.StepIsAnOdometer :=
  fun bank => ⟨cascade_eq_steppedBank bank, bankValue_cascade bank⟩

theorem length_iterate_cascade (n : Nat) (bank : List Rotor) : (cascade^[n] bank).length = bank.length := by
  induction n generalizing bank with
  | zero => rfl
  | succ n ih => rw [Function.iterate_succ_apply, ih, length_cascade]

theorem bankValue_iterate_cascade (n : Nat) (bank : List Rotor) :
    bankValue (cascade^[n] bank) = (bankValue bank + n) % 26 ^ bank.length := by
  induction n generalizing bank with
  | zero => exact (Nat.mod_eq_of_lt (bankValue_lt bank)).symm
  | succ n ih =>
    rw [Function.iterate_succ_apply, ih, length_cascade, bankValue_cascade, Nat.mod_add_mod]
    congr 1; omega

/-- Rotor `k` shows digit `k` of the number. -/
theorem bankValue_digit {bank : List Rotor} {k : Nat} {ρ : Rotor} (h : bank[k]? = some ρ) :
    bankValue bank / 26 ^ k % 26 = ρ.shift.val := by
  induction bank generalizing k with
  | nil => cases h
  | cons first bank ih =>
    have := first.shift.isLt
    rw [bankValue]
    cases k with
    | zero => cases h; simp [Nat.add_mod, Nat.mod_eq_of_lt this]
    | succ k =>
      rw [← ih h, pow_succ', ← Nat.div_div_eq_div_mul]
      congr 2; omega

theorem bankValue_eq_zero {bank : List Rotor} (h : ∀ ρ ∈ bank, ρ.shift = 0) : bankValue bank = 0 := by
  induction bank with
  | nil => rfl
  | cons ρ bank ih => rw [bankValue, h ρ (by simp), ih fun σ hσ => h σ (by simp [hσ])]; rfl

/-- A bank that has taken `n` steps from shifts 0 shows the digits of `n` (43_cipher R148). -/
theorem iterate_cascade_shift {bank : List Rotor} {n k : Nat} {ρ : Rotor} (zero : ∀ σ ∈ bank, σ.shift = 0)
    (h : (cascade^[n] bank)[k]? = some ρ) : ρ.shift.val = n / 26 ^ k % 26 := by
  have hk : k < bank.length := length_iterate_cascade n bank ▸ (List.getElem?_eq_some_iff.mp h).1
  have pow_dvd : 26 ^ (k + 1) ∣ 26 ^ bank.length := pow_dvd_pow 26 hk
  rw [← bankValue_digit h, bankValue_iterate_cascade, bankValue_eq_zero zero, Nat.zero_add]
  rw [← Nat.mod_mul_right_div_self, ← Nat.mod_mul_right_div_self, ← pow_succ, Nat.mod_mod_of_dvd _ pow_dvd]

/-! ### One `ENC` -/

/-- Settles O14: the letter test comes before any other. -/
theorem encPassesNonLettersThrough : Obligations.EncPassesNonLettersThrough :=
  fun _ s hl => execEnc_nonLetter hl s

/-- Settles O15: a flag that is 0 fails the test of all flags. -/
theorem encRefusesInvalidTables : Obligations.EncRefusesInvalidTables := by
  intro c s hl invalid
  have refused : s.tablesValid = false := by
    rw [← Bool.not_eq_true, tablesValid_iff]
    rintro ⟨reflValid, rotorsValid⟩
    rcases invalid with h | ⟨ρ, hρ, h⟩
    · exact Bool.false_ne_true (h.symm.trans reflValid)
    · exact Bool.false_ne_true (h.symm.trans (rotorsValid ρ hρ))
  exact execEnc_refused hl refused

theorem isLetter_upperCase {c : Byte} (h : isLetter c = true) : isLetter (upperCase c) = true := by
  rw [← indexToLetter_letterToIndex h]; exact indexToLetter_isLetter _

/-- `ENC` sees of a letter its index alone. -/
theorem execEnc_upperCase {c : Byte} (h : isLetter c = true) (s : State) : execEnc (upperCase c) s = execEnc c s := by
  rw [execEnc, execEnc, if_pos h, if_pos (isLetter_upperCase h), encipher, encipher, letterToIndex_upperCase h]

/-- Settles O17: the byte 0x20 lower is the letter's upper-case form. -/
theorem encFoldsCase : Obligations.EncFoldsCase := by
  intro c s ge le
  have lower : isLower c = true := (isLower_iff c).mpr ⟨ge, le⟩
  have upper : upperCase c = BitVec.ofNat 8 (c.toNat - 0x20) := if_pos lower
  rw [← upper]
  exact (execEnc_upperCase ((isLetter_iff c).mpr (Or.inr lower)) s).symm

/-- The shift of rotor `k`, 0 beyond the bank. -/
def shiftAt (bank : List Rotor) (k : Nat) : Index := (bank[k]?.map fun ρ => ρ.shift).getD 0

@[simp] theorem shiftAt_cons_zero (ρ : Rotor) (bank : List Rotor) : shiftAt (ρ :: bank) 0 = ρ.shift := rfl

@[simp] theorem shiftAt_cons_succ (ρ : Rotor) (bank : List Rotor) (k : Nat) :
    shiftAt (ρ :: bank) (k + 1) = shiftAt bank k := rfl

/-- The forward pass goes from rotor 0 up (43_cipher R142). -/
theorem forwardPass_eq_foldl {bank : List Rotor} {F : Nat → Index → Index}
    (cells : ∀ k ρ, bank[k]? = some ρ → ∀ i, ρ.fwd.read i = some (F k i)) (x : Index) :
    forwardPass bank x = some ((List.range bank.length).foldl (fun x k => F k (x + shiftAt bank k)) x) := by
  induction bank generalizing F x with
  | nil => rfl
  | cons ρ bank ih =>
    have rest := ih (F := fun k => F (k + 1)) (fun k σ hσ => cells (k + 1) σ hσ) (F 0 (x + ρ.shift))
    rw [forwardPass, cells 0 ρ rfl, addShift_eq, Option.bind_some, rest, List.length_cons, List.range_succ_eq_map]
    simp only [List.foldl_cons, List.foldl_map, shiftAt_cons_zero, shiftAt_cons_succ]

/-- The backward pass goes from the last rotor down, each rotor's own shift taken off (43_cipher R144). -/
theorem backwardPass_eq_foldr {bank : List Rotor} {G : Nat → Index → Index}
    (cells : ∀ k ρ, bank[k]? = some ρ → ∀ i, ρ.inv.read i = some (G k i)) (x : Index) :
    backwardPass bank x = some ((List.range bank.length).foldr (fun k x => G k x - shiftAt bank k) x) := by
  induction bank generalizing G with
  | nil => rfl
  | cons ρ bank ih =>
    have rest := ih (G := fun k => G (k + 1)) (fun k σ hσ => cells (k + 1) σ hσ)
    rw [backwardPass, rest, Option.bind_some, backwardOne, cells 0 ρ rfl, Option.map_some, subShift_eq,
      List.length_cons, List.range_succ_eq_map]
    simp only [List.foldr_cons, List.foldr_map, shiftAt_cons_zero, shiftAt_cons_succ]

/-- What the tables of rotor `k` hold, they hold after the step. -/
theorem cells_cascade {bank : List Rotor} {F G : Nat → Index → Index}
    (cells : ∀ k ρ, bank[k]? = some ρ → ∀ i, ρ.fwd.read i = some (F k i) ∧ ρ.inv.read i = some (G k i)) (k : Nat)
    (ρ : Rotor) (h : (cascade bank)[k]? = some ρ) (i : Index) :
    ρ.fwd.read i = some (F k i) ∧ ρ.inv.read i = some (G k i) := by
  obtain ⟨v, hv⟩ := cascade_getElem? bank k
  obtain ⟨σ, hσ, rfl⟩ := Option.map_eq_some_iff.mp (hv.symm.trans h)
  exact cells k σ hσ i

/-- Settles O16: the three parts of the substitution on the stepped bank. -/
theorem encLetterResult : Obligations.EncLetterResult := by
  intro c s F G P hl reflValid valid cells refl sh y z
  have cells' := cells_cascade cells
  have forward : forwardPass (cascade s.rotors) (letterToIndex c) = some y := by
    rw [forwardPass_eq_foldl fun k ρ h i => (cells' k ρ h i).1, length_cascade, cascade_eq_steppedBank]; rfl
  have backward : backwardPass (cascade s.rotors) (P y) = some z := by
    rw [backwardPass_eq_foldr fun k ρ h i => (cells' k ρ h i).2, length_cascade, cascade_eq_steppedBank]; rfl
  have result : substitute (cascade s.rotors) s.refl (letterToIndex c) = some z := by
    rw [substitute, forward, Option.bind_some, refl, Option.bind_some, backward]
  have letter : indexToLetter z.val = BitVec.ofNat 8 (0x41 + z.val) := if_pos (Nat.le_of_lt_succ z.isLt)
  rw [← cascade_eq_steppedBank, ← letter]
  exact execEnc_letter hl ((tablesValid_iff s).mpr ⟨reflValid, valid⟩) result

/-! ### Reciprocity -/

/-- Every flag is 1 and the tables are what their flags promise (10_state R25, R28). -/
structure SoundTables (s : State) : Prop where
  valid : s.tablesValid = true
  exact : ∀ ρ ∈ s.rotors, ρ.Exact
  pairing : Pairing s.refl

theorem State.Inv.soundTables {s : State} (h : s.Inv) (valid : s.tablesValid = true) : SoundTables s :=
  ⟨valid, (h.tables valid).1, (h.tables valid).2⟩

/-- `t` is idle and has the shifts, the tables and the flags of `s`. -/
structure CipherTwin (s t : State) : Prop where
  idle : t.busy = .idle
  rotors : t.rotors = s.rotors
  refl : t.refl = s.refl
  reflValid : t.reflValid = s.reflValid

/-- A generate command in progress keeps its target's flag 0 (41_generate R116). -/
theorem State.Inv.idle_of_tablesValid {s : State} (h : s.Inv) (valid : s.tablesValid = true) : s.busy = .idle := by
  obtain ⟨reflValid, rotorsValid⟩ := (tablesValid_iff s).mp valid
  cases hb : s.busy with
  | idle => rfl
  | genRotor r pos used =>
    obtain ⟨ρ, hρ, invalid, -⟩ := h.generatingRotor hb
    exact absurd (invalid.symm.trans (rotorsValid ρ (mem_of_getElem? hρ))) Bool.false_ne_true
  | genRefl pos used => exact absurd ((h.generatingRefl hb).1.symm.trans reflValid) Bool.false_ne_true

theorem State.Inv.cipherTwin_self {s : State} (h : s.Inv) (valid : s.tablesValid = true) : CipherTwin s s :=
  ⟨h.idle_of_tablesValid valid, rfl, rfl, rfl⟩

theorem CipherTwin.tablesValid {s t : State} (h : CipherTwin s t) : t.tablesValid = s.tablesValid := by
  rw [State.tablesValid, h.reflValid, h.rotors]; rfl

/-- The bank after `ENC c` with valid tables (43_cipher R140). -/
def bankAfter (c : Byte) (bank : List Rotor) : List Rotor := if isLetter c then cascade bank else bank

/-- The state after `ENC c` with valid tables, answered with `d`. -/
abbrev encAnswered (c d : Byte) (s : State) : State := (s.withRotors (bankAfter c s.rotors)).respond [d]

theorem SoundTables.afterEnc {s : State} (h : SoundTables s) (c d : Byte) : SoundTables (encAnswered c d s) := by
  obtain ⟨reflValid, rotorsValid⟩ := (tablesValid_iff s).mp h.valid
  have kept {P : Rotor → Prop} (hP : ∀ ρ v, P ρ → P (ρ.withShift v)) (all : ∀ ρ ∈ s.rotors, P ρ) :
      ∀ ρ ∈ bankAfter c s.rotors, P ρ := by
    unfold bankAfter; split
    · exact forall_cascade hP all
    · exact all
  exact ⟨(tablesValid_iff _).mpr ⟨reflValid, kept (fun _ _ valid => valid) rotorsValid⟩,
    kept (P := Rotor.Exact) (fun _ _ exact => exact) h.exact, h.pairing⟩

theorem CipherTwin.afterEnc {s t : State} (h : CipherTwin s t) {c e : Byte} (same : isLetter e = isLetter c)
    (d d' : Byte) : CipherTwin (encAnswered c d s) (encAnswered e d' t) :=
  ⟨h.idle, by simp [bankAfter, same, h.rotors], h.refl, h.reflValid⟩

/-- `ENC` of a letter is answered by another letter, which the same shifts and tables take back (43_cipher R146). -/
theorem execEnc_letter_pairs {s : State} (h : SoundTables s) {c : Byte} (hl : isLetter c = true) :
    ∃ d, isUpper d = true ∧ d ≠ upperCase c ∧ ∀ t, CipherTwin s t →
      execEnc c t = .next (encAnswered c d t) ∧ execEnc d t = .next (encAnswered d (upperCase c) t) := by
  have stepped : ∀ ρ ∈ cascade s.rotors, ρ.Exact := forall_cascade (fun _ _ exact => exact) h.exact
  obtain ⟨z, there, back, ne⟩ := substitute_spec stepped h.pairing (letterToIndex c)
  have hd : isLetter (indexToLetter z.val) = true := indexToLetter_isLetter z
  refine ⟨indexToLetter z.val, indexToLetter_isUpper z, fun e => ne ?_, fun t twin => ?_⟩
  · rw [← letterToIndex_indexToLetter z, e, letterToIndex_upperCase hl]
  · have valid : t.tablesValid = true := twin.tablesValid.trans h.valid
    rw [← twin.rotors, ← twin.refl] at there back
    rw [← letterToIndex_indexToLetter z] at back
    rw [encAnswered, encAnswered, bankAfter, bankAfter, if_pos hl, if_pos hd, ← indexToLetter_letterToIndex hl]
    exact ⟨execEnc_letter hl valid there, execEnc_letter hd valid back⟩

/-- Settles O18: the passes on exact rotors, and the pairing of the letters. -/
theorem letterMapIsAPairing : Obligations.LetterMapIsAPairing := by
  refine ⟨fun bank exact x => ⟨?_, ?_⟩, fun s inv valid c hl => ?_⟩
  · obtain ⟨y, forward, back⟩ := forwardPass_spec exact x
    rw [forward, Option.bind_some, back]
  · obtain ⟨y, backward, forth⟩ := backwardPass_spec exact x
    rw [backward, Option.bind_some, forth]
  · obtain ⟨d, upper, ne, pairs⟩ := execEnc_letter_pairs (inv.soundTables valid) hl
    obtain ⟨there, back⟩ := pairs s (inv.cipherTwin_self valid)
    exact ⟨d, _, _, upper, ne, there, rfl, back, rfl⟩

/-- Any byte: a letter by its partner, another byte by itself (43_cipher R140). -/
theorem execEnc_reciprocal {s : State} (h : SoundTables s) (c : Byte) :
    ∃ d, isLetter d = isLetter c ∧ ∀ t, CipherTwin s t →
      execEnc c t = .next (encAnswered c d t) ∧ execEnc d t = .next (encAnswered d (upperCase c) t) := by
  cases hl : isLetter c with
  | true =>
    obtain ⟨d, upper, -, pairs⟩ := execEnc_letter_pairs h hl
    exact ⟨d, (isLetter_iff d).mpr (Or.inl upper), pairs⟩
  | false =>
    have passed (t : State) : execEnc c t = .next (encAnswered c c t) := by
      rw [encAnswered, bankAfter, hl]; exact execEnc_nonLetter hl t
    refine ⟨c, hl, fun t _ => ⟨passed t, ?_⟩⟩
    rw [upperCase_of_not_letter hl]; exact passed t

/-- `ENCODE text` from `s` gives `out`, and the bank has taken a step for each letter. -/
def Enciphers (text out : List Byte) (s : State) : Prop :=
  ∃ t, encodeText text s = some (out, t) ∧ t.rotors = cascade^[letterCount text] s.rotors

theorem enciphers_nil (s : State) : Enciphers [] [] s := ⟨s, rfl, rfl⟩

theorem iterate_cascade_cons (c : Byte) (text : List Byte) (bank : List Rotor) :
    cascade^[letterCount (c :: text)] bank = cascade^[letterCount text] (bankAfter c bank) := by
  cases hl : isLetter c <;> simp [letterCount, bankAfter, hl]

/-- The first byte is enciphered, then the rest from the state it leaves. -/
theorem Enciphers.cons {c d : Byte} {text out : List Byte} {s : State} (idle : s.busy = .idle)
    (first : execEnc c s = .next (encAnswered c d s)) (rest : Enciphers text out (encAnswered c d s)) :
    Enciphers (c :: text) (d :: out) s := by
  obtain ⟨t, encoded, rotors⟩ := rest
  have payload : (encAnswered c d s).newestPayload = some [d] := by
    simp [State.newestPayload, okResponse, okPayload]
  have first : exec (.enc c) s = .next (encAnswered c d s) := first
  refine ⟨t, ?_, rotors.trans (iterate_cascade_cons c text s.rotors).symm⟩
  simp only [encodeText, if_pos idle, first, payload, encoded]
  rfl

/-- Every text is enciphered, and its result deciphered, from any twin of a state with sound tables (43_cipher R147). -/
theorem enciphers_reciprocal (text : List Byte) {s : State} (h : SoundTables s) :
    ∃ out, out.map isLetter = text.map isLetter ∧
      ∀ t, CipherTwin s t → Enciphers text out t ∧ Enciphers out (text.map upperCase) t := by
  induction text generalizing s with
  | nil => exact ⟨[], rfl, fun t _ => ⟨enciphers_nil t, enciphers_nil t⟩⟩
  | cons c text ih =>
    obtain ⟨d, hd, pairs⟩ := execEnc_reciprocal h c
    obtain ⟨out, hout, ciphers⟩ := ih (h.afterEnc c d)
    refine ⟨d :: out, by simp [hd, hout], fun t twin => ?_⟩
    obtain ⟨there, back⟩ := pairs t twin
    exact ⟨.cons twin.idle there (ciphers _ (twin.afterEnc rfl d d)).1,
      .cons twin.idle back (ciphers _ (twin.afterEnc hd d _)).2⟩

theorem letterCount_eq_of_map {text out : List Byte} (h : out.map isLetter = text.map isLetter) :
    letterCount out = letterCount text := by
  have count (l : List Byte) : letterCount l = ((l.map isLetter).filter id).length := by
    rw [List.filter_map, List.length_map]; rfl
  rw [count, count, h]

/-- Settles O19: a text and its result count the same letters, so both leave the bank alike; and of the writers of a
shift, `ENC` alone writes a value other than 0. -/
theorem reciprocity : Obligations.Reciprocity := by
  refine ⟨fun text s inv valid => ?_, fun i s t k ρ ρ' h hρ hρ' changed => ?_⟩
  · obtain ⟨out, hout, ciphers⟩ := enciphers_reciprocal text (inv.soundTables valid)
    obtain ⟨t, encoded, rotors⟩ := (ciphers s (inv.cipherTwin_self valid)).1
    refine ⟨out, t, encoded, ?_, fun n c d hc hd => ?_, fun s' idle hrotors hrefl hvalid => ?_⟩
    · simpa using congrArg List.length hout
    · simpa [hc, hd] using congrArg (·[n]?) hout
    · obtain ⟨u, decoded, rotors'⟩ := (ciphers s' ⟨idle, hrotors, hrefl, hvalid⟩).2
      exact ⟨u, decoded, by rw [rotors', rotors, letterCount_eq_of_map hout, hrotors]⟩
  · rcases (exec_rotorWrite h hρ hρ').writes_shift hρ hρ' changed with ⟨c, hc, -⟩ | ⟨-, zero, -⟩
    · exact Or.inr ⟨c, hc⟩
    · exact Or.inl zero

/-- Settles O20: the bank has taken one step for each letter, and shows their number. -/
theorem odometerProperty : Obligations.OdometerProperty := by
  intro text s inv valid zero
  obtain ⟨out, -, ciphers⟩ := enciphers_reciprocal text (inv.soundTables valid)
  obtain ⟨t, encoded, rotors⟩ := (ciphers s (inv.cipherTwin_self valid)).1
  exact ⟨out, t, encoded, fun k ρ hρ => iterate_cascade_shift zero (rotors ▸ hρ)⟩

/-! ### The shift commands -/

/-- Settles O21: the rotor the operand selects, or the refusal. -/
theorem rstshResult : Obligations.RstshResult :=
  ⟨fun _ _ _ hρ => withRotorOperand_some hρ _, fun _ _ hr => withRotorOperand_none (List.getElem?_eq_none hr) _⟩

/-- Settles O22: the rotor the operand selects, or the refusal. -/
theorem rdshResult : Obligations.RdshResult := by
  refine ⟨fun r s ρ hρ => ?_, fun _ _ hr => withRotorOperand_none (List.getElem?_eq_none hr) _⟩
  have bound := ρ.shift.isLt
  have value : (BitVec.ofNat 8 ρ.shift.val).toNat = ρ.shift.val := by rw [BitVec.toNat_ofNat]; omega
  exact ⟨_, value, by omega, withRotorOperand_some hρ _⟩

end Sys2Proof.Machine

/-!
Statuses and refusals (spec 60_exceptions R159 to R163): with which status each command can end, and that a refusal
is a response and nothing else.
-/

namespace Sys2Proof.Machine

open Sys2Proof.Claims

/-- From `s` to `t` the command `i` has not ended (outcome 4 of 60_exceptions R159), has been refused, or has ended
with a status that is no refusal; the status is one of its row of R161. -/
inductive CommandEnd (i : Instr) (s t : State) : Prop where
  | unended (silent : t.respOut = s.respOut)
  | refused {st : Status} (row : canEnd i st = true) (unchanged : t = s.raise st)
  | ended {st : Status} {p : List Byte} (row : canEnd i st = true) (ran : st ≠ .tableInvalid ∧ st ≠ .badRotorSelect)
      (response : t.respOut = s.respOut ++ [st.code :: p])

theorem canEnd_ok (i : Instr) : canEnd i .ok = true := by cases i <;> rfl

theorem CommandEnd.ok {i : Instr} {s t : State} {p : List Byte} (response : t.respOut = s.respOut ++ [okResponse p]) :
    CommandEnd i s t :=
  .ended (canEnd_ok i) ⟨nofun, nofun⟩ response

/-- The status byte of the one response tells which end it was. -/
theorem CommandEnd.of_response {i : Instr} {s t : State} {st : Status} {p : List Byte} (h : CommandEnd i s t)
    (response : t.respOut = s.respOut ++ [st.code :: p]) :
    canEnd i st = true ∧ (t = s.raise st ∨ st ≠ .tableInvalid ∧ st ≠ .badRotorSelect) := by
  have same {st' : Status} {p' : List Byte} (response' : t.respOut = s.respOut ++ [st'.code :: p']) : st' = st :=
    Status.code_inj (List.head_eq_of_cons_eq (last_response_eq (response'.symm.trans response)))
  cases h with
  | unended silent => simp [silent] at response
  | refused row unchanged =>
    obtain rfl := same (congrArg State.respOut unchanged)
    exact ⟨row, Or.inl unchanged⟩
  | ended row ran response' =>
    obtain rfl := same response'
    exact ⟨row, Or.inr ran⟩

/-- The loop of `LDROT` stops with a key error of its row, or runs to its end (42_keycodec R121). -/
theorem loadRotorKey_status (r : Nat) (k : List Byte) (f g : Memory) :
    canEnd (.ldrot r k) (loadRotorKey k f g).status = true ∧
      (loadRotorKey k f g).status ≠ .tableInvalid ∧ (loadRotorKey k f g).status ≠ .badRotorSelect := by
  rcases loadRotorKey_spec k f g with ⟨status, -⟩ | ⟨p, fails, -⟩
  · rw [status]; exact ⟨rfl, nofun, nofun⟩
  · rcases fails.why with ⟨status, -⟩ | ⟨status, -⟩ <;> rw [status] <;> exact ⟨rfl, nofun, nofun⟩

/-- The two passes of `LDREF` stop with a key error of its row, or run to their end (42_keycodec R122). -/
theorem loadReflKey_status (k : List Byte) (m : Memory) :
    canEnd (.ldref k) (loadReflKey k m).status = true ∧
      (loadReflKey k m).status ≠ .tableInvalid ∧ (loadReflKey k m).status ≠ .badRotorSelect := by
  rcases loadReflKey_spec k m with ⟨-, -, ⟨status, -⟩ | ⟨status, -⟩⟩ | ⟨p, status, -⟩ <;>
    rw [status] <;> exact ⟨rfl, nofun, nofun⟩

/-- Every command ends by its row of the table, and what refuses it does so before anything is written. -/
theorem exec_commandEnd {i : Instr} {s t : State} (h : exec i s = .next t) : CommandEnd i s t := by
  cases i with
  | enc c =>
    rcases execEnc_cases h with ⟨-, rfl⟩ | ⟨-, -, rfl⟩ | ⟨-, -, x, -, rfl⟩
    · exact .ok rfl
    · exact .refused rfl rfl
    · exact .ok rfl
  | ldrot r k =>
    rcases execLdrot_cases h with ⟨-, rfl⟩ | ⟨ρ, -, rfl⟩
    · exact .refused rfl rfl
    · obtain ⟨row, ran⟩ := loadRotorKey_status r k ρ.fwd ρ.inv
      exact .ended row ran rfl
  | ldref k =>
    cases (execLdref_eq k s).symm.trans h
    obtain ⟨row, ran⟩ := loadReflKey_status k s.refl
    exact .ended row ran rfl
  | rdrot r =>
    rcases execRdrot_cases h with ⟨-, rfl⟩ | ⟨ρ, -, ⟨-, p, -, rfl⟩ | ⟨-, rfl⟩⟩
    · exact .refused rfl rfl
    · exact .ok rfl
    · exact .refused rfl rfl
  | rdref =>
    rcases readBack_cases h with ⟨-, p, -, rfl⟩ | ⟨-, rfl⟩
    · exact .ok rfl
    · exact .refused rfl rfl
  | rdsh r =>
    rcases execRdsh_cases h with ⟨-, rfl⟩ | ⟨ρ, -, rfl⟩
    · exact .refused rfl rfl
    · exact .ok rfl
  | rstsh r =>
    rcases execRstsh_cases h with ⟨-, rfl⟩ | ⟨ρ, -, rfl⟩
    · exact .refused rfl rfl
    · exact .ok rfl
  | genrot r =>
    rcases execGenrot_cases h with ⟨-, rfl⟩ | ⟨ρ, -, rfl⟩
    · exact .refused rfl rfl
    · rcases (genrot_run r ρ s).outcome with ⟨-, silent, -⟩ | ⟨-, response, -⟩
      · exact .unended silent
      · exact .ok response
  | genref =>
    cases (execGenref_eq s).symm.trans h
    rcases (genref_run s).outcome with ⟨-, silent⟩ | ⟨-, response, -⟩
    · exact .unended silent
    · exact .ok response

/-- Settles O10: the end of each command, read off its response. -/
theorem statusesOfEachCommand : Obligations.StatusesOfEachCommand :=
  fun _ _ _ _ _ h response => ((exec_commandEnd h).of_response response).1

/-- Settles O11: these two statuses come from a refusal alone. -/
theorem refusalChangesNothing : Obligations.RefusalChangesNothing := by
  intro i s t st refusal h response
  rcases ((exec_commandEnd h).of_response response).2 with unchanged | ⟨notInvalid, notBadSelect⟩
  · exact unchanged
  · exact (refusal.elim notInvalid notBadSelect).elim

end Sys2Proof.Machine

/-!
Reset and hazards (spec 70_reset R180 to R189): what the reset input and the host's moves do, and that a table a load
has failed on stays invalid until it is loaded or generated again.
-/

namespace Sys2Proof.Machine

open Sys2Proof.Claims

/-! ### Reset and the host's moves -/

/-- Settles O42: the reset input comes before everything else a step looks at, and what it leaves waits on no port. -/
theorem resetEndsEverything : Obligations.ResetEndsEverything :=
  fun _ asserted => ⟨step_reset asserted, fun _ => ⟨rfl, rfl, rfl, rfl⟩⟩

/-- Settles O46: each move writes one port, and of the ports the invariant says nothing. -/
theorem hostMovesTouchOnlyPorts : Obligations.HostMovesTouchOnlyPorts := by
  refine fun s m => ⟨fun inv => inv.hostMove m, ?_⟩
  cases m <;> exact ⟨rfl, rfl, rfl, rfl, rfl⟩

/-! ### A table stays invalid -/

/-- What each command of a program keeps, the run keeps (70_reset R185). -/
theorem runCommands_keeps {P : State → Prop} {prog : List Instr} {s u : State}
    (keeps : ∀ i ∈ prog, ∀ s t : State, exec i s = .next t → P s → P t)
    (h : runCommands prog s = .ended u) (hs : P s) : P u := by
  induction prog generalizing s with
  | nil =>
    rw [runCommands_nil (idle_of_runCommands_ended h)] at h
    cases h
    exact hs
  | cons i rest ih =>
    obtain ⟨t, hx, hrest⟩ := runCommands_cons_ended h
    exact ih (fun j hj => keeps j (List.mem_cons_of_mem i hj)) hrest (keeps i List.mem_cons_self s t hx hs)

/-- Rotor `r` is in the bank and `vr[r]` is 0 (10_state R29). -/
def RotorInvalid (r : Nat) (s : State) : Prop := ∃ ρ, s.rotors[r]? = some ρ ∧ ρ.valid = false

/-- While one rotor is invalid, `ENC` of a letter is refused (43_cipher R140). -/
theorem RotorInvalid.enc_refused {r : Nat} {s : State} {c : Byte} (h : RotorInvalid r s) (letter : isLetter c = true) :
    exec (.enc c) s = .next (answered s [0x04]) := by
  obtain ⟨ρ, hr, invalid⟩ := h
  exact encRefusesInvalidTables c s letter (Or.inr ⟨ρ, mem_of_getElem? hr, invalid⟩)

/-- An invalid rotor stays so under every command but its own load and its own generation. -/
theorem exec_keeps_rotorInvalid {r : Nat} {i : Instr} {s t : State} (h : RotorInvalid r s) (hx : exec i s = .next t)
    (noWriter : (∀ key, i ≠ .ldrot r key) ∧ i ≠ .genrot r) : RotorInvalid r t := by
  obtain ⟨ρ, hr, invalid⟩ := h
  obtain ⟨noLoad, noGenerate⟩ := noWriter
  have inBank : r < t.rotors.length := (sameParams_exec hx).length ▸ (List.getElem?_eq_some_iff.mp hr).1
  refine ⟨t.rotors[r], List.getElem?_eq_getElem inBank, by_contra fun changed => ?_⟩
  rcases (exec_rotorWrite hx hr (List.getElem?_eq_getElem inBank)).writes_tables
      (Or.inr (Or.inr fun same => changed (same.trans invalid))) with ⟨key, load⟩ | generate
  · exact noLoad key load
  · exact noGenerate generate

/-- A failed load of a rotor leaves it invalid (42_keycodec R125). -/
theorem rotorInvalid_of_failed_load {r : Nat} {k : List Byte} {s t : State} (inBank : r < s.rotors.length)
    (bad : ¬ RotorKey k) (hx : exec (.ldrot r k) s = .next t) : RotorInvalid r t := by
  have hr := List.getElem?_eq_getElem inBank
  cases (exec_ldrot hr k).symm.trans hx
  refine ⟨_, List.getElem?_set_self inBank, ?_⟩
  rw [loadedRotor_valid, decide_eq_false_iff_not, loadRotorKey_ok_iff, rotorKeyGood_iff]
  exact bad

/-- A reflector that is invalid stays so under every command but `LDREF` and `GENREF`. -/
theorem exec_keeps_reflInvalid {i : Instr} {s t : State} (invalid : s.reflValid = false) (hx : exec i s = .next t)
    (noWriter : (∀ key, i ≠ .ldref key) ∧ i ≠ .genref) : t.reflValid = false := by
  obtain ⟨noLoad, noGenerate⟩ := noWriter
  rcases exec_reflector_cases hx with ⟨-, same⟩ | ⟨key, load⟩ | generate
  · exact same.trans invalid
  · exact absurd load (noLoad key)
  · exact absurd generate noGenerate

/-- A failed load of the reflector leaves it invalid (42_keycodec R125). -/
theorem reflInvalid_of_failed_load {k : List Byte} {s t : State} (bad : ¬ ReflectorKey k)
    (hx : exec (.ldref k) s = .next t) : t.reflValid = false := by
  cases (execLdref_eq k s).symm.trans hx
  refine decide_eq_false ?_
  rw [loadReflKey_ok_iff, reflKeyGood_iff]
  exact bad

/-- Settles O30: the failed load leaves its table invalid, and the run keeps it so. -/
theorem failedLoadPoisonsTheTable : Obligations.FailedLoadPoisonsTheTable := by
  refine ⟨fun r k s t c inBank bad hx letter => ?_, fun k s t c bad hx letter => ?_⟩
  · have invalid := rotorInvalid_of_failed_load inBank bad hx
    refine ⟨invalid.enc_refused letter, fun prog u noWriter run => ?_⟩
    have kept : RotorInvalid r u :=
      runCommands_keeps (fun i hi _ _ hrun h => exec_keeps_rotorInvalid h hrun (noWriter i hi)) run invalid
    exact kept.enc_refused letter
  · have refused {u : State} (h : u.reflValid = false) : exec (.enc c) u = .next (answered u [0x04]) :=
      encRefusesInvalidTables c u letter (Or.inl h)
    have invalid := reflInvalid_of_failed_load bad hx
    refine ⟨refused invalid, fun prog u noWriter run => refused ?_⟩
    exact runCommands_keeps (P := fun u => u.reflValid = false)
      (fun i hi _ _ hrun h => exec_keeps_reflInvalid h hrun (noWriter i hi)) run invalid

end Sys2Proof.Machine
